-- ==== Sys2Proof/Word.lean ====
section
/-! DEFINITION. Word: the word types of the block (spec/00_scope.md R1, R5; spec/30_encoding.md R71). -/

namespace Sys2Proof

/-- A binary32 bit pattern: sign bit 31, exponent bits 30:23 (bias 127), fraction bits 22:0 (R1). -/
abbrev F32 := BitVec 32

/-- A binary64 bit pattern: sign bit 63, exponent bits 62:52 (bias 1023), fraction bits 51:0 (R5). -/
abbrev F64 := BitVec 64

/-- A command word: `P2[159:96] P1[95:64] P0[63:32] RSV[31:8] OP[7:0]` (R71). -/
abbrev CmdWord := BitVec 160

end Sys2Proof
end

