-- ==== Sys2Proof/Syntax.lean ====
section
/-! DEFINITION. Syntax: the eight commands of spec/30_encoding.md R72, one constructor per row of spec/opcode_table.json. -/

namespace Sys2Proof

/-- A decoded command.  Integer operands are the signed values `sext_32` reads (R73); floating operands are bit
patterns, used as they are (R73). -/
inductive Instr where
  /-- `PREPARE sr=<sampleRateHz>, block=<maxBlockSizeSamples>, ch=<channelCount>` (R120). -/
  | prepare (sampleRateHz : F64) (maxBlockSizeSamples : Int) (channelCount : Int)
  /-- `RESET` (R121). -/
  | reset
  /-- `SET_DELAY_TIME_MS <value>` (R123). -/
  | setDelayTimeMs (value : F32)
  /-- `SET_MIX <value>` (R124). -/
  | setMix (value : F32)
  /-- `SET_FEEDBACK <value>` (R125). -/
  | setFeedback (value : F32)
  /-- `SET_LFO_RATE_HZ <value>` (R126). -/
  | setLfoRateHz (value : F32)
  /-- `SET_LFO_DEPTH_MS <value>` (R127). -/
  | setLfoDepthMs (value : F32)
  /-- `PROCESS_SAMPLE ch=<channel>, x=<input>` (R140). -/
  | processSample (channel : Int) (input : F32)
  deriving DecidableEq, Repr

end Sys2Proof
end

