-- ==== Sys2Proof/WellFormed.lean ====
section
/-! DEFINITION. WellFormed: the commands a command word can carry (spec/30_encoding.md R71, R73). -/

namespace Sys2Proof

/-- The integer fits a 32-bit two's-complement slot: `-2^31 .. 2^31-1` (R73). -/
def fitsInt32 (k : Int) : Bool := decide (-2147483648 ≤ k) && decide (k ≤ 2147483647)

namespace Instr

/-- Every integer operand fits its slot.  A floating operand may be any bit pattern (R73), so it needs no check. -/
def wellFormed : Instr → Bool
  | .prepare _ block ch => fitsInt32 block && fitsInt32 ch
  | .reset => true
  | .setDelayTimeMs _ => true
  | .setMix _ => true
  | .setFeedback _ => true
  | .setLfoRateHz _ => true
  | .setLfoDepthMs _ => true
  | .processSample ch _ => fitsInt32 ch

end Instr

end Sys2Proof
end

