-- ==== Sys2Proof/Decode.lean ====
section
/-! DEFINITION. Decode: from any 160-bit command word to a command or a named rejection (spec/30_encoding.md R71 to R75),
and the encoder written from the same tables. -/

namespace Sys2Proof

/-- Why a command word is none of the eight commands; each raises `ILLEGAL_COMMAND` (R162). -/
inductive DecodeError where
  /-- `OP` is not in the table of R72 (R74). -/
  | reservedOpcode
  /-- The `RSV` field is non-zero (R75). -/
  | reservedFieldNonzero
  /-- An operand slot the row shows as 0 is non-zero (R75). -/
  | unusedSlotNonzero
  deriving DecidableEq, Repr

/-- Field `OP`, bits 7:0 (R71). -/
def fieldOp (w : CmdWord) : BitVec 8 := w.extractLsb' 0 8

/-- Field `RSV`, bits 31:8 (R71). -/
def fieldRsv (w : CmdWord) : BitVec 24 := w.extractLsb' 8 24

/-- Field `P0`, bits 63:32 (R71). -/
def fieldP0 (w : CmdWord) : BitVec 32 := w.extractLsb' 32 32

/-- Field `P1`, bits 95:64 (R71). -/
def fieldP1 (w : CmdWord) : BitVec 32 := w.extractLsb' 64 32

/-- Field `P2`, bits 159:96 (R71). -/
def fieldP2 (w : CmdWord) : BitVec 64 := w.extractLsb' 96 64

/-- `i` where every slot that must be zero is zero (R75). -/
def whenUnusedZero (unusedZero : Bool) (i : Instr) : Except DecodeError Instr :=
  if unusedZero then .ok i else .error .unusedSlotNonzero

/-- The row of R72 an opcode selects, with its operands assembled as R73 says. -/
def decodeRow (op : BitVec 8) (p0 p1 : BitVec 32) (p2 : BitVec 64) : Except DecodeError Instr :=
  if op = 0x01#8 then .ok (.prepare p2 p1.toInt p0.toInt)
  else if op = 0x02#8 then whenUnusedZero (p0 == 0#32 && p1 == 0#32 && p2 == 0#64) .reset
  else if op = 0x10#8 then whenUnusedZero (p0 == 0#32 && p2 == 0#64) (.setDelayTimeMs p1)
  else if op = 0x11#8 then whenUnusedZero (p0 == 0#32 && p2 == 0#64) (.setMix p1)
  else if op = 0x12#8 then whenUnusedZero (p0 == 0#32 && p2 == 0#64) (.setFeedback p1)
  else if op = 0x13#8 then whenUnusedZero (p0 == 0#32 && p2 == 0#64) (.setLfoRateHz p1)
  else if op = 0x14#8 then whenUnusedZero (p0 == 0#32 && p2 == 0#64) (.setLfoDepthMs p1)
  else if op = 0x20#8 then whenUnusedZero (p2 == 0#64) (.processSample p0.toInt p1)
  else .error .reservedOpcode

/-- The decoder: total on all `2^160` words (R75). -/
def decode (w : CmdWord) : Except DecodeError Instr :=
  if fieldRsv w = 0#24 then decodeRow (fieldOp w) (fieldP0 w) (fieldP1 w) (fieldP2 w)
  else .error .reservedFieldNonzero

/-- A command word from its five fields (R71). -/
def wordOfFields (op : BitVec 8) (p0 p1 : BitVec 32) (p2 : BitVec 64) : CmdWord :=
  p2 ++ p1 ++ p0 ++ 0#24 ++ op

/-- The command word of a well-formed command (R71, R72). -/
def encode : Instr → CmdWord
  | .prepare sr block ch => wordOfFields 0x01#8 (BitVec.ofInt 32 ch) (BitVec.ofInt 32 block) sr
  | .reset => wordOfFields 0x02#8 0#32 0#32 0#64
  | .setDelayTimeMs v => wordOfFields 0x10#8 0#32 v 0#64
  | .setMix v => wordOfFields 0x11#8 0#32 v 0#64
  | .setFeedback v => wordOfFields 0x12#8 0#32 v 0#64
  | .setLfoRateHz v => wordOfFields 0x13#8 0#32 v 0#64
  | .setLfoDepthMs v => wordOfFields 0x14#8 0#32 v 0#64
  | .processSample ch x => wordOfFields 0x20#8 (BitVec.ofInt 32 ch) x 0#64

/-- The command word that five 32-bit beats carry; the beat holding bits 31:0 goes first (R51). -/
def wordOfBeats (b0 b1 b2 b3 b4 : BitVec 32) : CmdWord := b4 ++ b3 ++ b2 ++ b1 ++ b0

/-- The command word whose low `nbits` bits are `w`, every bit above them zero. -/
def tableWord (nbits w : Nat) : CmdWord := BitVec.ofNat 160 (w % 2 ^ nbits)

/-- The decoder on a word numbered as spec/opcode_table.json numbers it.  A command is one word, so its bits are the
table's bits. -/
def decodeTableWord (nbits w : Nat) : Option Instr := (decode (tableWord nbits w)).toOption

end Sys2Proof
end

