-- ==== Sys2Proof/Config.lean ====
section
/-! DEFINITION. Config: what an implementation of the block fixes (spec/00_scope.md section 4, spec/92_eei_decisions.md
section 3) and the free values, which have no body so that no proof can see them. -/

namespace Sys2Proof

/-- The OPEN parameters of the spec (spec/00_scope.md section 4), as plain data.  `SIN` and `ROOT` are functions; the
values a configuration tabulates are data here, and everywhere else they are the bodiless functions `Config.sinRest`
and `Config.rootRest` below (log 2).  The constraints on these fields are `Config.legal` and `Config.SinErr`
in Machine/Float.lean, and the configuration the block under proof was built with is `Config.chosen` there. -/
structure Config where
  /-- `CAP_MAX`: physical words of delay RAM per channel. -/
  capMax : Nat
  /-- `CH_MAX`: physical channels. -/
  chMax : Nat
  /-- `RAMP_TIME_FB_S`: ramp time of the feedback ramp, seconds. -/
  rampTimeFb : F32
  /-- `RAMP_TIME_MIX_S`. -/
  rampTimeMix : F32
  /-- `RAMP_TIME_RATE_S`. -/
  rampTimeRate : F32
  /-- `RAMP_TIME_LEN_S`. -/
  rampTimeLen : F32
  /-- `RATE_MIN_HZ`: smallest LFO rate the rate register can hold. -/
  rateMinHz : F32
  /-- `EPS_SIN`: the accuracy bound of `SIN` (R7), a number of no fixed format. -/
  epsSin : Rat
  /-- Values of `SIN` this configuration gives as data: (phase, sine). -/
  sinTable : List (F32 × F32)
  /-- Values of `ROOT` this configuration gives as data: ((quotient, N), root). -/
  rootTable : List ((F32 × Nat) × F32)
  deriving DecidableEq, Repr, Inhabited

/-- The arithmetic primitives of R2, to name the one whose result is not defined. -/
inductive ArithOp where
  | add | sub | mul | div
  deriving DecidableEq, Repr, Inhabited

/-- The comparisons of R3, to name the one whose answer is not defined. -/
inductive CmpOp where
  | lt | le | eq
  deriving DecidableEq, Repr, Inhabited

namespace Config

/-- FREE VALUE (log 2): `SIN` (R7) at the phases a configuration does not tabulate. -/
opaque sinRest : F32 → F32

/-- FREE VALUE (log 2): `ROOT` (R8) where a configuration does not tabulate it. -/
opaque rootRest : F32 → Nat → F32

/-- FREE VALUE (log 5): the result of a primitive of R2 on a NaN, an infinity or a zero divisor (R2, U11). -/
opaque undefinedArith : ArithOp → F32 → F32 → F32

/-- FREE VALUE (log 5): the answer of a comparison of R3 on a NaN. -/
opaque undefinedCompare : CmpOp → F32 → F32 → Bool

/-- FREE VALUE (log 5): `ffloor` of a NaN or an infinity (R4). -/
opaque undefinedFloor : F32 → F32

/-- FREE VALUE (log 5): `f2i` of a NaN or an infinity (R4). -/
opaque undefinedToInt : F32 → Int

/-- FREE VALUE (log 6): the phase after a wrap loop of R103 that would not end. -/
opaque endlessWrap : F32 → F32

end Config

end Sys2Proof
end

