-- ==== Sys2Proof/Machine/Float.lean ====
section
/-! DEFINITION. Machine/Float: the numeric primitives every rule uses (spec/00_scope.md R1 to R9).

A finite binary32 value is a whole number of units of 2^-149, the smallest subnormal, so every exact result is a fraction
of natural numbers in that unit and is rounded once, by `roundPack`. -/

namespace Sys2Proof.Machine

/-! ### Literals (R6, R9) -/

/-- `+0`. -/
def fZero : F32 := 0x00000000#32
/-- `-0`. -/
def fNegZero : F32 := 0x80000000#32
/-- `0.5`. -/
def fHalf : F32 := 0x3F000000#32
/-- `1.0`. -/
def fOne : F32 := 0x3F800000#32
/-- `-1.0`. -/
def fNegOne : F32 := 0xBF800000#32
/-- `2.0`. -/
def fTwo : F32 := 0x40000000#32
/-- `10.0`: the largest LFO rate in hertz and the largest LFO depth in milliseconds. -/
def fTen : F32 := 0x41200000#32
/-- `1000.0`: the largest delay time in milliseconds and the divisor of R128. -/
def fThousand : F32 := 0x447A0000#32
/-- `FB_MAX`, the binary32 nearest 0.95 (R28). -/
def fbMax : F32 := 0x3F733333#32
/-- `TWO_PI`, the binary32 nearest 2π (R6). -/
def twoPi : F32 := 0x40C90FDB#32

/-! ### Reading a bit pattern (R1) -/

/-- Exponent field, bits 30:23. -/
def expField (a : F32) : Nat := a.toNat / 2 ^ 23 % 2 ^ 8

/-- Fraction field, bits 22:0. -/
def fracField (a : F32) : Nat := a.toNat % 2 ^ 23

/-- Sign bit, bit 31. -/
def signBit (a : F32) : Bool := a.msb

/-- NaN: exponent field all ones and fraction non-zero, quiet or signalling alike (R165). -/
def isNaN (a : F32) : Bool := decide (expField a = 255) && decide (fracField a ≠ 0)

/-- Neither NaN nor infinite. -/
def isFinite (a : F32) : Bool := decide (expField a ≠ 255)

/-- Magnitude in units of 2^-149.  On an infinity it is 2^277, which lies above every finite magnitude, so that
comparing `value`s orders the infinities as R3 says. -/
def magnitude (a : F32) : Nat :=
  if expField a = 0 then fracField a else (2 ^ 23 + fracField a) * 2 ^ (expField a - 1)

/-- The value in units of 2^-149. -/
def value (a : F32) : Int := if signBit a then -(magnitude a : Int) else (magnitude a : Int)

/-- `+0` or `-0`. -/
def isZero (a : F32) : Bool := decide (magnitude a = 0)

/-! ### Rounding (R2) -/

/-- `n / d` rounded to the nearest integer, ties to even. -/
def roundQuotient (n d : Nat) : Nat :=
  let q := n / d
  let r := n % d
  if d < 2 * r ∨ (2 * r = d ∧ q % 2 = 1) then q + 1 else q

/-- The number of low bits a binary32 significand of 24 bits cannot hold, for a magnitude whose integral part in units
of 2^-149 is `q`. -/
def droppedBits (q : Nat) : Nat := Nat.log2 q - 23

/-- The bits 30:0 of the binary32 nearest `n / d` units of 2^-149, ties to even; `0x7F800000` (infinity) where that
exceeds the largest finite number.  With `e` dropped bits and rounded significand `m`, the fields are exactly
`e * 2^23 + m`: a carry out of `m` moves into the exponent field. -/
def packMagnitude (n d : Nat) : Nat :=
  let e := droppedBits (n / d)
  min (e * 2 ^ 23 + roundQuotient n (d * 2 ^ e)) 0x7F800000

/-- The binary32 nearest `n / d` units of 2^-149 with the given sign: the one rounding of R2. -/
def roundPack (negative : Bool) (n d : Nat) : F32 :=
  BitVec.ofNat 32 ((if negative then 2 ^ 31 else 0) + packMagnitude n d)

/-! ### Arithmetic (R2) -/

/-- The pattern with the sign bit turned over. -/
def fneg (a : F32) : F32 := a ^^^ 0x80000000#32

/-- The sum of two finite numbers.  An exact sum of zero is `+0` unless both operands carry the minus sign (log 4). -/
def addFinite (a b : F32) : F32 :=
  let v := value a + value b
  if v = 0 then (if signBit a && signBit b then fNegZero else fZero)
  else roundPack (decide (v < 0)) v.natAbs 1

/-- `fadd(a,b)` (R2). -/
def fadd (a b : F32) : F32 :=
  if isFinite a && isFinite b then addFinite a b else Config.undefinedArith .add a b

/-- `fsub(a,b)` (R2). -/
def fsub (a b : F32) : F32 :=
  if isFinite a && isFinite b then addFinite a (fneg b) else Config.undefinedArith .sub a b

/-- `fmul(a,b)` (R2). -/
def fmul (a b : F32) : F32 :=
  if isFinite a && isFinite b then
    roundPack (signBit a != signBit b) (magnitude a * magnitude b) (2 ^ 149)
  else Config.undefinedArith .mul a b

/-- `fdiv(a,b)` (R2); a zero divisor has no defined result. -/
def fdiv (a b : F32) : F32 :=
  if isFinite a && isFinite b && !isZero b then
    roundPack (signBit a != signBit b) (magnitude a * 2 ^ 149) (magnitude b)
  else Config.undefinedArith .div a b

/-! ### Comparisons, `fmin`, `fmax`, `clamp` (R3) -/

/-- `a < b` (R3). -/
def flt (a b : F32) : Bool :=
  if isNaN a || isNaN b then Config.undefinedCompare .lt a b else decide (value a < value b)

/-- `a <= b` (R3); `b >= a` is the same comparison. -/
def fle (a b : F32) : Bool :=
  if isNaN a || isNaN b then Config.undefinedCompare .le a b else decide (value a ≤ value b)

/-- `a == b` (R3): the values are compared, so `+0 == -0`. -/
def feq (a b : F32) : Bool :=
  if isNaN a || isNaN b then Config.undefinedCompare .eq a b else decide (value a = value b)

/-- `fmin(a,b)`: `a` when `a < b` and `b` otherwise (R3). -/
def fmin (a b : F32) : F32 := if flt a b then a else b

/-- `fmax(a,b)`: `a` when `a > b` and `b` otherwise (R3). -/
def fmax (a b : F32) : F32 := if flt b a then a else b

/-- `clamp(v, lo, hi)` (R3). -/
def clamp (v lo hi : F32) : F32 := fmin (fmax v lo) hi

/-! ### Conversions (R4, R5) -/

/-- The largest integer not above the value of `a`. -/
def floorInt (a : F32) : Int := value a / ((2 ^ 149 : Nat) : Int)

/-- `i2f(k)` (R4). -/
def i2f (k : Int) : F32 := roundPack (decide (k < 0)) (k.natAbs * 2 ^ 149) 1

/-- `ffloor(a)` (R4).  An integral `a` is its own floor, with its sign. -/
def ffloor (a : F32) : F32 :=
  if isFinite a then (if value a % ((2 ^ 149 : Nat) : Int) = 0 then a else i2f (floorInt a)) else Config.undefinedFloor a

/-- `f2i(a)` (R4), applied to results of `ffloor` only. -/
def f2i (a : F32) : Int := if isFinite a then floorInt a else Config.undefinedToInt a

/-- Exponent field of a binary64, bits 62:52 (R5). -/
def expField64 (s : F64) : Nat := s.toNat / 2 ^ 52 % 2 ^ 11

/-- Fraction field of a binary64, bits 51:0 (R5). -/
def fracField64 (s : F64) : Nat := s.toNat % 2 ^ 52

/-- Neither NaN nor infinite (R120). -/
def isFinite64 (s : F64) : Bool := decide (expField64 s ≠ 2047)

/-- Magnitude of a finite binary64 in units of 2^-1074. -/
def magnitude64 (s : F64) : Nat :=
  if expField64 s = 0 then fracField64 s else (2 ^ 52 + fracField64 s) * 2 ^ (expField64 s - 1)

/-- Value of a finite binary64 in units of 2^-1074. -/
def value64 (s : F64) : Int := if s.msb then -(magnitude64 s : Int) else (magnitude64 s : Int)

/-- One in units of 2^-1074, that is `2^1074`, as a product of powers small enough for every evaluator. -/
def one64 : Nat := 2 ^ 256 * 2 ^ 256 * 2 ^ 256 * 2 ^ 256 * 2 ^ 50

/-- `dceil(s)`: the smallest integer not less than the finite `s` (R5). -/
def dceil (s : F64) : Int := -(-(value64 s) / (one64 : Int))

/-- `d2f(s)`: the finite `s` rounded to binary32 (R5). -/
def d2f (s : F64) : F32 := roundPack s.msb (magnitude64 s) (2 ^ 925)

/-! ### The two configuration functions (R7, R8) -/

/-- The number lies in `[lo, hi]` and is no NaN. -/
def between (lo v hi : F32) : Bool :=
  !isNaN v && decide (value lo ≤ value v) && decide (value v ≤ value hi)

/-- `SIN(p)` (R7).  The configuration's own value is used wherever it has the named properties; `SIN_ZERO` and
`SIN_BOUND` hold by this definition for every configuration, and every admissible `SIN` is one of them (log 2).
DESIGN CHOICE (log 2): the bound is taken at every pattern, also off the range `0 <= p < TWO_PI`, where R7 states nothing. -/
def SIN (cfg : Config) (p : F32) : F32 :=
  if p = fZero then fZero
  else
    let y := (cfg.sinTable.lookup p).getD (Config.sinRest p)
    if between fNegOne y fOne then y else fZero

/-- The bounds `ROOT_BETWEEN` and `ROOT_POS` put on a root `y` of `q` (R8). -/
def rootAdmissible (q y : F32) : Bool :=
  isFinite y && decide (0 < value y) &&
    (if value q < value fOne then between q y fOne else between fOne y q)

/-- `ROOT(q, N)` (R8).  As `SIN`: `ROOT_ONE`, `ROOT_POS` and `ROOT_BETWEEN` hold by this definition for every
configuration.  Where `q` is not a positive number R8 states nothing: the result is any finite number the configuration
gives, finite because R12 has every value of the block finite (log 10).  DESIGN CHOICE (log 2): the three properties are taken
at `n = 0` too, where R8 states nothing; R92 takes no root for `N = 0`. -/
def ROOT (cfg : Config) (q : F32) (n : Nat) : F32 :=
  let y := (cfg.rootTable.lookup (q, n)).getD (Config.rootRest q n)
  if isNaN q || decide (value q ≤ 0) then (if isFinite y then y else fOne)
  else if value q = value fOne then fOne
  else if rootAdmissible q y then y else fOne

/-! ### Constraints on a configuration (section 4 of spec/00_scope.md) -/

/-- `floor(rampTime x SR32)` as R91 computes it. -/
def rampLength (rampTime sr32 : F32) : Nat := (f2i (ffloor (fmul rampTime sr32))).toNat

/-- A ramp time is finite, `>= 0`, and its length is below 2^31 at the highest sample rate `CAP_MAX` allows, hence at
every lower one. -/
def legalRampTime (capMax : Nat) (t : F32) : Bool :=
  isFinite t && decide (0 ≤ value t) && isFinite (fmul t (i2f capMax)) &&
    decide (rampLength t (i2f capMax) < 2 ^ 31)

end Sys2Proof.Machine

namespace Sys2Proof.Config

open Sys2Proof.Machine

/-- The constraints of spec/00_scope.md section 4 on the OPEN parameters. -/
def legal (cfg : Config) : Bool :=
  decide (2 ≤ cfg.capMax) && decide (cfg.capMax ≤ 2 ^ 24) &&
  decide (1 ≤ cfg.chMax) && decide (cfg.chMax ≤ 2 ^ 31 - 1) &&
  legalRampTime cfg.capMax cfg.rampTimeFb && legalRampTime cfg.capMax cfg.rampTimeMix &&
  legalRampTime cfg.capMax cfg.rampTimeRate && legalRampTime cfg.capMax cfg.rampTimeLen &&
  isFinite cfg.rateMinHz && decide (0 < value cfg.rateMinHz) && decide (value cfg.rateMinHz ≤ value fTen)

/-- `SIN_ERR` (R7): on the phases `SIN` is applied to, it is within `EPS_SIN` of the real sine. -/
def SinErr (cfg : Config) : Prop :=
  ∀ p : F32, isFinite p = true → 0 ≤ value p → value p < value twoPi →
    |(value (SIN cfg p) : ℝ) / 2 ^ 149 - Real.sin ((value p : ℝ) / 2 ^ 149)| ≤ (cfg.epsSin : ℝ)

/-- A configuration of the spec: the constraints of section 4 and `SIN_ERR`.  The other named properties of `SIN` and `ROOT`
hold of every configuration. -/
structure Admissible (cfg : Config) : Prop where
  legal : cfg.legal = true
  sinErr : cfg.SinErr

/-- The smallest configuration, with an `EPS_SIN` that no sine in `[-1, 1]` can miss; it shows that there is one. -/
def least : Config :=
  { capMax := 2, chMax := 1, rampTimeFb := fZero, rampTimeMix := fZero, rampTimeRate := fZero,
    rampTimeLen := fZero, rateMinHz := fTen, epsSin := 2, sinTable := [], rootTable := [] }

theorem sin_bound (cfg : Config) (p : F32) :
    value fNegOne ≤ value (SIN cfg p) ∧ value (SIN cfg p) ≤ value fOne := by
  have h0 : value fNegOne ≤ value fZero ∧ value fZero ≤ value fOne := by decide +kernel
  unfold SIN
  split
  · exact h0
  · dsimp only
    split
    · rename_i h
      simp only [between, Bool.and_eq_true, decide_eq_true_eq] at h
      exact ⟨h.1.2, h.2⟩
    · exact h0

/-- An accuracy bound of 2 or more holds of every `SIN` in `[-1, 1]`. -/
theorem sinErr_of_two_le {cfg : Config} (h : 2 ≤ cfg.epsSin) : cfg.SinErr := by
  intro p _ _ _
  have h1 : value fNegOne = -2 ^ 149 := by decide +kernel
  have h2 : value fOne = 2 ^ 149 := by decide +kernel
  obtain ⟨hl, hu⟩ := sin_bound cfg p
  rw [h1] at hl
  rw [h2] at hu
  have hl' : (-2 ^ 149 : ℝ) ≤ (value (SIN cfg p) : ℝ) := by exact_mod_cast hl
  have hu' : (value (SIN cfg p) : ℝ) ≤ 2 ^ 149 := by exact_mod_cast hu
  have h3 : (value (SIN cfg p) : ℝ) / 2 ^ 149 ≤ 1 := by rw [div_le_one (by positivity)]; exact hu'
  have h4 : -1 ≤ (value (SIN cfg p) : ℝ) / 2 ^ 149 := by rw [le_div_iff₀ (by positivity)]; linarith
  have h5 : (2 : ℝ) ≤ (cfg.epsSin : ℝ) := by exact_mod_cast h
  have h6 := Real.neg_one_le_sin ((value p : ℝ) / 2 ^ 149)
  have h7 := Real.sin_le_one ((value p : ℝ) / 2 ^ 149)
  rw [abs_le]
  constructor <;> linarith

theorem least_admissible : least.Admissible := ⟨by decide +kernel, sinErr_of_two_le (le_refl _)⟩

/-- A configuration with the proof that the spec admits it (U10: any other is refused). -/
structure Checked where
  cfg : Config
  admissible : cfg.Admissible

/-- FREE VALUE (log 1): the configuration the block under proof was built with. -/
opaque chosen [Inhabited Checked] : Checked

/-- The configuration of the block after reset: any admissible one (log 1). -/
def installed : Config := (@chosen ⟨⟨least, least_admissible⟩⟩).cfg

theorem installed_admissible : installed.Admissible := (@chosen ⟨⟨least, least_admissible⟩⟩).admissible

end Sys2Proof.Config
end

