-- ==== Sys2Proof/Machine/State.lean ====
section
/-! DEFINITION. Machine/State: every piece of state the spec gives the block (spec/10_state.md R20 to R40, the ports of
spec/30_encoding.md R70), as plain data, and its value after hardware reset. -/

namespace Sys2Proof.Machine

/-- The register `STATE` (R22). -/
inductive EngineState where
  | unprepared | prepared | faulted
  deriving DecidableEq, Repr, Inhabited

/-- The causes of a contract violation (R161). -/
inductive Cause where
  | illegalCommand | notPrepared | badChannel | badConfig | badValue | badInput
  deriving DecidableEq, Repr, Inhabited

/-- The stepping law of a ramp, a property of the instance and no writable field (R34, R90). -/
inductive RampMode where
  | lin | mul
  deriving DecidableEq, Repr, Inhabited

/-- A ramp record (R34). -/
structure Ramp where
  /-- Current value. -/
  cur : F32
  /-- Target value. -/
  tgt : F32
  /-- Increment (`LIN`) or factor (`MUL`) of the ramp in progress. -/
  step : F32
  /-- Sample times left; 0 means settled. -/
  rem : Nat
  /-- Ramp length in sample times. -/
  N : Nat
  deriving DecidableEq, Repr, Inhabited

/-- The record `CS[c]` of one physical channel (R30 to R35). -/
structure Channel where
  /-- Write index (R31). -/
  w : Nat
  /-- Read position (R32). -/
  rp : F32
  /-- Oscillator phase (R33). -/
  phase : F32
  /-- Oscillator frequency (R33). -/
  hz : F32
  /-- Feedback ramp, `LIN` (R35). -/
  fb : Ramp
  /-- Mix ramp, `LIN` (R35). -/
  mix : Ramp
  /-- LFO-rate ramp, `MUL` (R35). -/
  rate : Ramp
  /-- Delay-length ramp, `LIN` (R35). -/
  len : Ramp
  deriving DecidableEq, Repr, Inhabited

/-- The configuration and control registers `CR.*` (R24 to R29). -/
structure Regs where
  /-- `CR.SR32`: sample rate (R24). -/
  sr32 : F32
  /-- `CR.CAP`: words addressed per channel (R24). -/
  cap : Nat
  /-- `CR.NCH`: channel count (R24). -/
  nch : Nat
  /-- `CR.DELAY_MS` (R25). -/
  delayMs : F32
  /-- `CR.CENTER` (R25). -/
  center : F32
  /-- `CR.DEPTH_MS` (R26). -/
  depthMs : F32
  /-- `CR.DEPTH` (R26). -/
  depth : F32
  /-- `CR.MIX_T` (R27). -/
  mixT : F32
  /-- `CR.FB_T` (R28). -/
  fbT : F32
  /-- `CR.RATE_T` (R29). -/
  rateT : F32
  deriving DecidableEq, Repr, Inhabited

/-- The delay RAM (R36): the words that hold a value, as (location, word) pairs with strictly rising locations
(`Memory.wf`).  The unit of address is one binary32 word and there is no byte address (R51).  A location that is not
listed holds no value: nothing has written it since hardware reset (R40, log 3). -/
abbrev Memory := List (Nat × F32)

/-- What the host drives on the input pins of R70 in one clock cycle. -/
structure PortCycle where
  /-- `rst_n`. -/
  rstN : Bool
  /-- `cmd_valid`. -/
  cmdValid : Bool
  /-- `cmd_data`. -/
  cmdData : CmdWord
  /-- `rsp_ready`. -/
  rspReady : Bool
  deriving DecidableEq, Repr, Inhabited

/-- The state of the block. -/
structure State where
  /-- The model's own field (log 1): the configuration, which no step changes. -/
  cfg : Config
  /-- `STATE` (R22). -/
  engine : EngineState
  /-- `FAULT_CAUSE` (R23). -/
  faultCause : BitVec 8
  /-- `CR.*` (R24 to R29). -/
  cr : Regs
  /-- `CS[c]`, `c = 0 .. CH_MAX-1` (R30). -/
  cs : List Channel
  /-- `RAM[c][i]` (R36). -/
  ram : Memory
  /-- The response port: the word on `rsp_data` while `rsp_valid` is 1 (R70, R76). -/
  rsp : Option F32
  /-- The model's own field (log 8): what the host drives on the input pins in the cycles to come, next cycle first. -/
  inputs : List PortCycle
  /-- The model's own field (log 8): the response words the host has taken, oldest first. -/
  taken : List F32
  /-- The model's own field (log 7): how many hardware resets have happened, the argument of the free power-on values. -/
  freeCount : Nat
  deriving DecidableEq, Repr

/-- The reasons the machine stops.  None arises in a state that satisfies the invariant of the model. -/
inductive Fault where
  /-- Raised by `PROCESS_SAMPLE` where a word it reads holds no value, which no command sequence reaches (R36: "`PREPARE`
  zero-fills the addressed part before any command can read it").  Safe (log 3). -/
  | ramWordUnwritten
  /-- Raised by `PROCESS_SAMPLE` on a channel below `CR.NCH` that has no physical record, which no command sequence
  reaches (`CR.NCH <= CH_MAX`).  Safe (log 3). -/
  | noChannelRecord
  deriving DecidableEq, Repr

/-- The reasons a step has no meaning. -/
inductive Refusal where
  /-- An instruction that has no meaning yet, by its mnemonic.  No arm uses it: every command is modelled.  Safe. -/
  | notModelled (mnemonic : String)
  deriving DecidableEq, Repr

/-- What a command or a step answers. -/
abbrev Result := Host.Outcome State Fault Refusal

/-- FREE VALUE (log 7): the record of channel `c` after the `n`-th hardware reset (R30, R40: unspecified). -/
opaque powerOnChannel (n c : Nat) : Channel

/-- The channel records after the `n`-th hardware reset. -/
def powerOnChannels (cfg : Config) (n : Nat) : List Channel :=
  (List.range cfg.chMax).map (powerOnChannel n)

namespace State

/-- Right after hardware reset with configuration `cfg` (R40): no word of the RAM holds a value and the channel records
are unspecified. -/
def resetWith (cfg : Config) : State where
  cfg := cfg
  engine := .unprepared
  faultCause := 0#8
  cr :=
    { sr32 := fZero, cap := 0, nch := 0, delayMs := fZero, center := fZero, depthMs := fZero, depth := fZero,
      mixT := fZero, fbT := fZero, rateT := cfg.rateMinHz }
  cs := powerOnChannels cfg 0
  ram := []
  rsp := none
  inputs := []
  taken := []
  freeCount := 0

/-- Right after hardware reset (R40). -/
def reset : State := resetWith Config.installed

end State

end Sys2Proof.Machine
end

