-- ==== Sys2Proof/Machine/Flags.lean ====
section
/-! DEFINITION. Machine/Flags: the only flag of the block, `FAULT_CAUSE` (spec/10_state.md R23), its codes (spec/60_exceptions.md
R161), and the output pins that are functions of the state (spec/30_encoding.md R70, spec/60_exceptions.md R168).  There are
no condition codes and no floating-point exception flags (R23). -/

namespace Sys2Proof.Machine

/-- The encoding of `STATE` in its 2-bit register (R22). -/
def engineCode : EngineState → BitVec 2
  | .unprepared => 0#2
  | .prepared => 1#2
  | .faulted => 2#2

/-- The code a cause leaves in `FAULT_CAUSE` (R161). -/
def causeCode : Cause → BitVec 8
  | .illegalCommand => 0x01#8
  | .notPrepared => 0x02#8
  | .badChannel => 0x03#8
  | .badConfig => 0x04#8
  | .badValue => 0x05#8
  | .badInput => 0x06#8

/-- `fault_o`: 1 exactly while `STATE = Faulted` (R168). -/
def faultO (s : State) : Bool := decide (s.engine = .faulted)

/-- `fault_cause_o` (R168). -/
def faultCauseO (s : State) : BitVec 8 := s.faultCause

/-- `rsp_valid` (R70). -/
def rspValid (s : State) : Bool := s.rsp.isSome

/-- `cmd_ready` between commands, in a cycle where the host drives `rsp_ready`: low while a response waits (R77).
DESIGN CHOICE (log 8): its level in a cycle with `rst_n` low is open, since R180 says only that no command is accepted then; the
function takes no `rst_n` and gives the level of the same state with `rst_n` high.  `cycle` reads it with `rst_n` high only. -/
def cmdReady (rspReady : Bool) (s : State) : Bool := !(rspValid s && !rspReady)

end Sys2Proof.Machine
end

