-- ==== Sys2Proof/Machine/Ops.lean ====
section
/-! DEFINITION. Machine/Ops: the named operations over the delay RAM, the channel records, the registers and the response
port; taking a contract violation and the one way back from it. -/

namespace Sys2Proof.Machine

/-! ### The delay RAM (spec/20_memory.md R50 to R52) -/

/-- The key of location `(c, i)`.  The stride is the largest `CAP_MAX`, so distinct locations have distinct keys (R50,
R56; log 3). -/
def loc (c i : Nat) : Nat := c * 2 ^ 24 + i

/-- The word index an integer index means: `k mod CR.CAP` (R52). -/
def wrapIndex (cap : Nat) (k : Int) : Nat := (k % (cap : Int)).toNat

namespace Memory

/-- The canonical form: locations strictly rising. -/
def wf (m : Memory) : Bool := decide (m.Pairwise fun x y => x.1 < y.1)

/-- `MemRead` at a key: the word there, or nothing where no word holds a value. -/
def read : Memory → Nat → Option F32
  | [], _ => none
  | (b, v) :: m, a => if b = a then some v else read m a

/-- `MemWrite` at a key. -/
def write : Memory → Nat → F32 → Memory
  | [], a, v => [(a, v)]
  | (b, u) :: m, a, v =>
    if a < b then (a, v) :: (b, u) :: m
    else if a = b then (a, v) :: m
    else (b, u) :: write m a v

/-- `v` in the `n` words from key `a` on. -/
def fillRun (m : Memory) (a n : Nat) (v : F32) : Memory :=
  m.filter (fun x => decide (x.1 < a)) ++ (List.range n).map (fun i => (a + i, v)) ++
    m.filter (fun x => decide (a + n ≤ x.1))

/-- `+0` in words `0 .. cap-1` of channels `0 .. nch-1`: the loop of R110 and R114. -/
def zeroFill (cap : Nat) : Nat → Memory → Memory
  | 0, m => m
  | c + 1, m => fillRun (zeroFill cap c m) (loc c 0) cap fZero

end Memory

/-! ### Channel records (spec/10_state.md R30) -/

/-- `f` on the records of channels `0 .. n-1`, the others as they are. -/
def mapFirst (n : Nat) (f : Channel → Channel) (cs : List Channel) : List Channel :=
  (cs.take n).map f ++ cs.drop n

namespace State

/-- `f` on the record of every live channel: `for c in 0 .. CR.NCH-1`. -/
def mapLive (f : Channel → Channel) (s : State) : State := { s with cs := mapFirst s.cr.nch f s.cs }

/-- New values of `CR.*`. -/
def withRegs (r : Regs) (s : State) : State := { s with cr := r }

/-- A new delay RAM. -/
def withRam (m : Memory) (s : State) : State := { s with ram := m }

/-- `CS[c] <- r`. -/
def withChannel (c : Nat) (r : Channel) (s : State) : State := { s with cs := s.cs.set c r }

/-- `STATE <- Prepared`. -/
def enterPrepared (s : State) : State := { s with engine := .prepared }

/-! ### The response port (spec/30_encoding.md R76, R77) -/

/-- `respond(v)`: the response word is on the port. -/
def respond (v : F32) (s : State) : State := { s with rsp := some v }

/-- The host takes the waiting response, if there is one. -/
def takeResponse (s : State) : State := { s with rsp := none, taken := s.taken ++ s.rsp.toList }

/-! ### Contract violations (spec/60_exceptions.md R160) and hardware reset (spec/70_reset_and_hazards.md R180) -/

/-- `raise ContractViolation(cause)` (R160): the command writes nothing else and gives no response. -/
def raise (cause : Cause) (s : State) : State := { s with engine := .faulted, faultCause := causeCode cause }

/-- Hardware reset (R180), the only exit from `Faulted` (R171).  A waiting response is dropped.  What the host still
drives and what it has already taken are the host's.  The unspecified contents are new free values. -/
def hardwareReset (s : State) : State :=
  { resetWith s.cfg with
    cs := powerOnChannels s.cfg (s.freeCount + 1)
    inputs := s.inputs
    taken := s.taken
    freeCount := s.freeCount + 1 }

end State

end Sys2Proof.Machine
end

