-- ==== Sys2Proof/Machine/Operands.lean ====
section
/-! DEFINITION. Machine/Operands: the checks every command makes before it writes state (spec/43_config_commands.md R120, R129,
R130; spec/44_process_sample.md R140; spec/60_exceptions.md R163 to R167), in the order R167 fixes. -/

namespace Sys2Proof.Machine

/-- `require_prepared()` (R129): a `Faulted` engine ignores the command (R169), an `Unprepared` one raises
`NOT_PREPARED` (R166). -/
def requirePrepared (s : State) (k : Result) : Result :=
  match s.engine with
  | .faulted => .next s
  | .unprepared => .next (s.raise .notPrepared)
  | .prepared => k

/-- `check_value(v)` (R130): a NaN raises `BAD_VALUE`; an infinity passes and is clamped. -/
def checkValue (v : F32) (s : State) (k : State) : State := if isNaN v then s.raise .badValue else k

/-- The channel operand of `PROCESS_SAMPLE` lies in `0 .. CR.NCH-1` (R164). -/
def channelInRange (nch : Nat) (c : Int) : Bool := decide (0 ≤ c) && decide (c < (nch : Int))

/-- The input operand of `PROCESS_SAMPLE` is finite and in `[-1, 1]` (R165). -/
def inputInRange (x : F32) : Bool :=
  isFinite x && decide (value fNegOne ≤ value x) && decide (value x ≤ value fOne)

/-- The operands of `PREPARE` are a configuration the block can take: sample rate finite, then capacity in
`2 .. CAP_MAX`, then channel count in `1 .. CH_MAX` (R163).  One code serves all three, so their order shows nowhere. -/
def prepareOperandsOk (cfg : Config) (sampleRateHz : F64) (channelCount : Int) : Bool :=
  isFinite64 sampleRateHz &&
  (decide (2 ≤ dceil sampleRateHz) && decide (dceil sampleRateHz ≤ (cfg.capMax : Int))) &&
  (decide (1 ≤ channelCount) && decide (channelCount ≤ (cfg.chMax : Int)))

end Sys2Proof.Machine
end

