-- ==== Sys2Proof/Machine/Ramp.lean ====
section
/-! DEFINITION. Machine/Ramp: the ramp generator (spec/40_ramp.md R90 to R94).  `ramp_next` returns the updated current value,
so its result is read as `(rampNext mode r).cur`. -/

namespace Sys2Proof.Machine

/-- `ramp_reset(r, rampTimeSeconds)` (R91).  `step` is left as it is (log 9). -/
def rampReset (sr32 rampTime : F32) (r : Ramp) : Ramp :=
  { r with N := rampLength rampTime sr32, cur := r.tgt, rem := 0 }

/-- `ramp_init(r, v, rampTimeSeconds)` (R94). -/
def rampInit (sr32 : F32) (v rampTime : F32) (r : Ramp) : Ramp := rampReset sr32 rampTime { r with tgt := v }

/-- The step of a new ramp (R92). -/
def rampStep (cfg : Config) (mode : RampMode) (r : Ramp) (v : F32) : F32 :=
  match mode with
  | .lin => fdiv (fsub v r.cur) (i2f r.N)
  | .mul => ROOT cfg (fdiv v r.cur) r.N

/-- `ramp_setTarget(r, v)` (R92). -/
def rampSetTarget (cfg : Config) (mode : RampMode) (r : Ramp) (v : F32) : Ramp :=
  if feq v r.tgt then r
  else if r.N = 0 then { r with tgt := v, cur := v, rem := 0 }
  else { r with tgt := v, rem := r.N, step := rampStep cfg mode r v }

/-- One step of the ramp before its last, with the overshoot guard (R93). -/
def rampMove (mode : RampMode) (r : Ramp) : F32 :=
  match mode with
  | .lin =>
    if fle fZero r.step then fmin (fadd r.cur r.step) r.tgt else fmax (fadd r.cur r.step) r.tgt
  | .mul =>
    if fle fOne r.step then fmin (fmul r.cur r.step) r.tgt else fmax (fmul r.cur r.step) r.tgt

/-- `ramp_next(r)` (R93). -/
def rampNext (mode : RampMode) (r : Ramp) : Ramp :=
  if r.rem = 0 then r
  else if r.rem = 1 then { r with rem := 0, cur := r.tgt }
  else { r with rem := r.rem - 1, cur := rampMove mode r }

end Sys2Proof.Machine
end

