-- ==== Sys2Proof/Machine/Oscillator.lean ====
section
/-! DEFINITION. Machine/Oscillator: the sine LFO (spec/41_oscillator.md R100 to R103). -/

namespace Sys2Proof.Machine

/-- `osc_reset(c)` (R101). -/
def oscReset (r : Channel) : Channel := { r with phase := fZero }

/-- `osc_prepare(c)` (R100). -/
def oscPrepare (r : Channel) : Channel := oscReset r

/-- `osc_setFrequency(c, hz)` (R102). -/
def oscSetFrequency (hz : F32) (r : Channel) : Channel := { r with hz := hz }

/-- `while ph >= TWO_PI do ph <- fsub(ph, TWO_PI)` (R103).  Every turn that moves the phase lowers it, and with it its bit
pattern, so a loop that ends needs no more turns than the pattern's number; one that does not end leaves a free value
(log 6). -/
def wrapPhase : Nat → F32 → F32
  | 0, ph => if fle twoPi ph then Config.endlessWrap ph else ph
  | fuel + 1, ph =>
    if fle twoPi ph then
      (if fsub ph twoPi = ph then Config.endlessWrap ph else wrapPhase fuel (fsub ph twoPi))
    else ph

/-- The phase increment `2π·hz/sampleRate`, in the grouping of R103. -/
def phaseIncrement (sr32 hz : F32) : F32 := fdiv (fmul twoPi hz) sr32

/-- The phase after one advance (R103). -/
def nextPhase (sr32 hz phase : F32) : F32 :=
  let ph := fadd phase (phaseIncrement sr32 hz)
  wrapPhase ph.toNat ph

/-- The value `osc_nextSample(c)` returns: the sine of the phase before it advances (R103). -/
def oscOutput (cfg : Config) (r : Channel) : F32 := SIN cfg r.phase

/-- What `osc_nextSample(c)` does to the channel (R103). -/
def oscAdvance (sr32 : F32) (r : Channel) : Channel := { r with phase := nextPhase sr32 r.hz r.phase }

end Sys2Proof.Machine
end

