-- ==== Sys2Proof/Machine/Buffer.lean ====
section
/-! DEFINITION. Machine/Buffer: the delay buffer (spec/42_delay_buffer.md R110 to R114). -/

namespace Sys2Proof.Machine

/-- `buf_read(c, k)` (R111): the word at `k mod CR.CAP`. -/
def bufRead (cap : Nat) (m : Memory) (c : Nat) (k : Int) : Option F32 := Memory.read m (loc c (wrapIndex cap k))

/-- `buf_write(c, k, v)` (R112): `v` at `k mod CR.CAP`. -/
def bufWrite (cap : Nat) (m : Memory) (c : Nat) (k : Int) (v : F32) : Memory :=
  Memory.write m (loc c (wrapIndex cap k)) v

/-- The blend of two neighbouring words (R113), in the one-multiplier form. -/
def interpolate (frac a b : F32) : F32 := fadd a (fmul frac (fsub b a))

/-- The index of the first tap of a read at position `p` (R113). -/
def tapIndex (cap : Nat) (p : F32) : Nat := wrapIndex cap (f2i (ffloor p))

/-- `buf_readInterpolated(c, p)` (R113). -/
def bufReadInterpolated (cap : Nat) (m : Memory) (c : Nat) (p : F32) : Option F32 :=
  match bufRead cap m c (tapIndex cap p), bufRead cap m c ((tapIndex cap p : Int) + 1) with
  | some a, some b => some (interpolate (fsub p (ffloor p)) a b)
  | _, _ => none

namespace State

/-- `buf_clear()` (R114). -/
def bufClear (s : State) : State := s.withRam (Memory.zeroFill s.cr.cap s.cr.nch s.ram)

/-- `buf_resize(channels, capacitySamples)` (R110). -/
def bufResize (channels capacity : Nat) (s : State) : State :=
  (s.withRegs { s.cr with nch := channels, cap := capacity }).bufClear

end State

end Sys2Proof.Machine
end

