-- ==== Sys2Proof/Machine/Configure.lean ====
section
/-! DEFINITION. Machine/Configure: `PREPARE`, `RESET` and the five `SET_*` commands (spec/43_config_commands.md R120 to R130). -/

namespace Sys2Proof.Machine

/-! ### Common parts -/

/-- The conversion from milliseconds to samples, multiply then divide (R128). -/
def msToSamples (ms sr32 : F32) : F32 := fdiv (fmul ms sr32) fThousand

/-- `derive_center()` (R128). -/
def deriveCenter (r : Regs) : Regs := { r with center := fmin (msToSamples r.delayMs r.sr32) (i2f r.cap) }

/-- `derive_depth()` (R128). -/
def deriveDepth (r : Regs) : Regs := { r with depth := msToSamples r.depthMs r.sr32 }

/-- The delay length of a channel at its start: the center delay clamped into `[1, CR.CAP - 1]` (R122). -/
def startLength (cr : Regs) : F32 := clamp cr.center fOne (i2f ((cr.cap : Int) - 1))

/-- `channel_init(c)` (R122). -/
def channelInit (cfg : Config) (cr : Regs) (r : Channel) : Channel :=
  let r := { r with w := 0 }
  let r := oscPrepare r
  let r := oscSetFrequency cr.rateT r
  let r := { r with fb := rampInit cr.sr32 cr.fbT cfg.rampTimeFb r.fb }
  let r := { r with mix := rampInit cr.sr32 cr.mixT cfg.rampTimeMix r.mix }
  let r := { r with rate := rampInit cr.sr32 cr.rateT cfg.rampTimeRate r.rate }
  let r := { r with len := rampInit cr.sr32 (startLength cr) cfg.rampTimeLen r.len }
  { r with rp := fsub (i2f cr.cap) r.len.cur }

namespace State

/-- `for c in 0 .. CR.NCH-1: channel_init(c)` (R120, R121). -/
def initChannels (s : State) : State := s.mapLive (channelInit s.cfg s.cr)

/-- The state writes of a valid `PREPARE` (R120), with `d2f(sampleRateHz)`, `cap = dceil(sampleRateHz)` and the channel
count. -/
def configure (sr32 : F32) (cap channelCount : Nat) (s : State) : State :=
  let s := s.withRegs { s.cr with sr32 := sr32 }
  let s := s.bufResize channelCount cap
  let s := s.withRegs (deriveDepth (deriveCenter s.cr))
  s.initChannels.enterPrepared

/-- The state writes of `RESET` (R121). -/
def restart (s : State) : State := s.bufClear.initChannels

end State

/-! ### The commands -/

/-- `PREPARE` (R120).  `maxBlockSizeSamples` is decoded and ignored. -/
def execPrepare (sampleRateHz : F64) (_maxBlockSizeSamples channelCount : Int) (s : State) : Result :=
  if s.engine = .faulted then .next s
  else if prepareOperandsOk s.cfg sampleRateHz channelCount then
    .next (s.configure (d2f sampleRateHz) (dceil sampleRateHz).toNat channelCount.toNat)
  else .next (s.raise .badConfig)

/-- `RESET` (R121). -/
def execReset (s : State) : Result := requirePrepared s (.next s.restart)

/-- `SET_DELAY_TIME_MS` (R123). -/
def execSetDelayTimeMs (v : F32) (s : State) : Result :=
  requirePrepared s (.next (checkValue v s
    (s.withRegs (deriveCenter { s.cr with delayMs := clamp v fZero fThousand }))))

/-- `SET_MIX` (R124). -/
def execSetMix (v : F32) (s : State) : Result :=
  let t := clamp v fZero fOne
  requirePrepared s (.next (checkValue v s
    ((s.withRegs { s.cr with mixT := t }).mapLive fun r => { r with mix := rampSetTarget s.cfg .lin r.mix t })))

/-- `SET_FEEDBACK` (R125). -/
def execSetFeedback (v : F32) (s : State) : Result :=
  let t := clamp v fZero fbMax
  requirePrepared s (.next (checkValue v s
    ((s.withRegs { s.cr with fbT := t }).mapLive fun r => { r with fb := rampSetTarget s.cfg .lin r.fb t })))

/-- `SET_LFO_RATE_HZ` (R126): the lower bound is `RATE_MIN_HZ`, not 0. -/
def execSetLfoRateHz (v : F32) (s : State) : Result :=
  let t := clamp v s.cfg.rateMinHz fTen
  requirePrepared s (.next (checkValue v s
    ((s.withRegs { s.cr with rateT := t }).mapLive fun r => { r with rate := rampSetTarget s.cfg .mul r.rate t })))

/-- `SET_LFO_DEPTH_MS` (R127): a plain scalar, no ramp is retargeted. -/
def execSetLfoDepthMs (v : F32) (s : State) : Result :=
  requirePrepared s (.next (checkValue v s
    (s.withRegs (deriveDepth { s.cr with depthMs := clamp v fZero fTen }))))

end Sys2Proof.Machine
end

