-- ==== Sys2Proof/Machine/Process.lean ====
section
/-! DEFINITION. Machine/Process: `PROCESS_SAMPLE` and its nine steps (spec/44_process_sample.md R140 to R150). -/

namespace Sys2Proof.Machine

/-- Step 2: the value written to the RAM (R142). -/
def writeValue (x d fb : F32) : F32 := fadd x (fmul d fb)

/-- Steps 4 and 5: the target of the delay length, from the sine of the phase before it advances (R144, R145). -/
def targetLength (cfg : Config) (cr : Regs) (r : Channel) : F32 :=
  let lfo := oscOutput cfg r
  let mod := fmul lfo cr.depth
  clamp (fadd cr.center mod) fOne (i2f ((cr.cap : Int) - 1))

/-- Step 7: the read position that trails write index `w` by the delay length (R147). -/
def readPosition (cap w : Nat) (len : F32) : F32 :=
  let p := fsub (i2f w) len
  if flt p fZero then fadd p (i2f cap) else p

/-- Step 8: the gain of the dry signal (R148). -/
def dryGain (m : F32) : F32 := fmul fTwo (fmin fHalf (fsub fOne m))

/-- Step 8: the gain of the delayed signal (R148). -/
def wetGain (m : F32) : F32 := fmul fTwo (fmin fHalf m)

/-- Step 8: the mix before the limiter (R148). -/
def mixOut (m x d : F32) : F32 := fadd (fmul (dryGain m) x) (fmul (wetGain m) d)

/-- Step 9: the output limiter (R149). -/
def limit (out : F32) : F32 := clamp out fNegOne fOne

/-- Step 2 on the channel: the feedback ramp advances (R142). -/
def stepFeedback (r : Channel) : Channel := { r with fb := rampNext .lin r.fb }

/-- Step 4 on the channel: the rate ramp advances, its value goes to the oscillator, the oscillator advances (R144). -/
def stepOscillator (cr : Regs) (r : Channel) : Channel :=
  let r := { r with rate := rampNext .mul r.rate }
  let r := oscSetFrequency r.rate.cur r
  oscAdvance cr.sr32 r

/-- Step 5 on the channel: the length ramp is retargeted and advances (R145). -/
def stepLength (cfg : Config) (target : F32) (r : Channel) : Channel :=
  { r with len := rampNext .lin (rampSetTarget cfg .lin r.len target) }

/-- Steps 6 and 7 on the channel: the write index and the read position (R146, R147). -/
def stepCursors (cr : Regs) (r : Channel) : Channel :=
  let r := { r with w := (r.w + 1) % cr.cap }
  { r with rp := readPosition cr.cap r.w r.len.cur }

/-- Step 8 on the channel: the mix ramp advances (R148). -/
def stepMix (r : Channel) : Channel := { r with mix := rampNext .lin r.mix }

/-- The channel record after one sample time (R140). -/
def advanceChannel (cfg : Config) (cr : Regs) (r : Channel) : Channel :=
  let target := targetLength cfg cr r
  let r := stepFeedback r
  let r := stepOscillator cr r
  let r := stepLength cfg target r
  let r := stepCursors cr r
  stepMix r

/-- The response of one sample time (R148 to R150). -/
def response (r' : Channel) (x d : F32) : F32 := limit (mixOut r'.mix.cur x d)

/-- One sample time of channel `c` with record `r`, input `x` and delayed sample `d` (R140).  The delayed sample was read
before the write of step 3 (R60). -/
def sampleTime (c : Nat) (x : F32) (r : Channel) (d : F32) (s : State) : State :=
  let r' := advanceChannel s.cfg s.cr r
  let s := s.withRam (bufWrite s.cr.cap s.ram c r.w (writeValue x d r'.fb.cur))
  let s := s.withChannel c r'
  s.respond (response r' x d)

/-- The nine steps on channel `c` (R140). -/
def runSample (c : Nat) (x : F32) (s : State) : Result :=
  match s.cs[c]? with
  | none => .fault .noChannelRecord
  | some r =>
    match bufReadInterpolated s.cr.cap s.ram c r.rp with
    | none => .fault .ramWordUnwritten
    | some d => .next (sampleTime c x r d s)

/-- `PROCESS_SAMPLE` (R140). -/
def execProcessSample (channel : Int) (input : F32) (s : State) : Result :=
  requirePrepared s <|
    if channelInRange s.cr.nch channel then
      (if inputInRange input then runSample channel.toNat input s else .next (s.raise .badInput))
    else .next (s.raise .badChannel)

end Sys2Proof.Machine
end

