-- ==== Sys2Proof/Machine/Dispatch.lean ====
section
/-! DEFINITION. Machine/Dispatch: the meaning of every command, one arm per row of spec/opcode_table.json. -/

namespace Sys2Proof.Machine

/-- What a command does. -/
def exec (i : Instr) (s : State) : Host.Outcome State Fault Refusal :=
  match i with
  | .prepare sr block ch => Sys2Proof.Machine.execPrepare sr block ch s
  | .reset => Sys2Proof.Machine.execReset s
  | .setDelayTimeMs v => Sys2Proof.Machine.execSetDelayTimeMs v s
  | .setMix v => Sys2Proof.Machine.execSetMix v s
  | .setFeedback v => Sys2Proof.Machine.execSetFeedback v s
  | .setLfoRateHz v => Sys2Proof.Machine.execSetLfoRateHz v s
  | .setLfoDepthMs v => Sys2Proof.Machine.execSetLfoDepthMs v s
  | .processSample ch x => Sys2Proof.Machine.execProcessSample ch x s

end Sys2Proof.Machine
end

