-- ==== Sys2Proof/Machine/Port.lean ====
section
/-! DEFINITION. Machine/Port: one clock cycle of the ports in which the engine is between commands (spec/30_encoding.md R70, R76,
R77; spec/20_memory.md R58; spec/60_exceptions.md R162; spec/70_reset_and_hazards.md R180). -/

namespace Sys2Proof.Machine

/-- A word that decodes to no command: `ILLEGAL_COMMAND`, ignored in `Faulted` (R162, R169). -/
def illegalCommand (s : State) : State := if s.engine = .faulted then s else s.raise .illegalCommand

/-- The command of a word, executed to completion (R58). -/
def runCommand (w : CmdWord) (s : State) : Result :=
  match decode w with
  | .ok i => exec i s
  | .error _ => .next (illegalCommand s)

/-- One cycle.  While `rst_n` is low nothing but the reset happens (R180).  Otherwise a response the host is ready for is
transferred, and a command is transferred and executed where `cmd_valid` meets `cmd_ready` (R70, R77). -/
def cycle (p : PortCycle) (s : State) : Result :=
  if p.rstN = false then .next s.hardwareReset
  else
    let ready := cmdReady p.rspReady s
    let s := if p.rspReady then s.takeResponse else s
    if p.cmdValid && ready then runCommand p.cmdData s else .next s

/-- A step: the next cycle the host drives; with no cycle to come the block is idle and holds all state (R174). -/
def clock (s : State) : Result :=
  match s.inputs with
  | [] => .next s
  | p :: rest => cycle p { s with inputs := rest }

/-- The cycle in which the host presents the command word `w` and is ready for a response. -/
def commandCycle (w : CmdWord) : PortCycle := { rstN := true, cmdValid := true, cmdData := w, rspReady := true }

/-- The state in which the host presents `w` in the next cycle. -/
def presentCommand (w : CmdWord) (s : State) : State := { s with inputs := commandCycle w :: s.inputs }

end Sys2Proof.Machine
end

