-- ==== Sys2Proof/Machine/Step.lean ====
section
/-! DEFINITION. Machine/Step: one step of the machine. -/

namespace Sys2Proof.Machine

/-- One step: one clock cycle of the ports, in which at most one command is transferred and executed (R58, R70). -/
def step (s : State) : Host.Outcome State Fault Refusal := clock s

/-- `s` with the host presenting, in the next cycle, the command word numbered as spec/opcode_table.json numbers it.  The
block has no instruction memory (R21): a command exists only while it is on the command port (R62). -/
def State.withFetchWord (s : State) (nbits w : Nat) : State := presentCommand (tableWord nbits w) s

end Sys2Proof.Machine
end

