-- ==== Sys2Proof/Safety.lean ====
section
/-! DEFINITION. Safety: the terms claims use: when state is as the spec says it stays (spec/10_state.md R34, R35, R39, spec/00_scope.md
R12), the frames of commands, the first violation of a command word (spec/60_exceptions.md R167), correct rounding (spec/00_scope.md
R2), and runs of samples. -/

namespace Sys2Proof.Machine

/-! ### Correct rounding (R2) -/

/-- The finite `r` is the binary32 nearest the real number `num / den` units of 2^-149: no finite number is nearer, and
where another is as near, `r` has the even significand. -/
def NearestEven (r : F32) (num : Int) (den : Nat) : Prop :=
  ∀ y, isFinite y = true →
    |value r * den - num| ≤ |value y * den - num| ∧
    (|value r * den - num| = |value y * den - num| → value y ≠ value r → fracField r % 2 = 0)

/-- `r` is `num / den` units of 2^-149 rounded to nearest, ties to even: infinite with the sign of the exact result
exactly where the exact result is at or past the midpoint between the largest finite number and the next power of two,
and the nearest finite number otherwise. -/
def CorrectlyRounded (r : F32) (num : Int) (den : Nat) : Prop :=
  isNaN r = false ∧
  (isFinite r = false ↔ (2 ^ 25 - 1) * 2 ^ 252 * (den : Int) ≤ |num|) ∧
  (isFinite r = false → (signBit r = true ↔ num < 0)) ∧
  (isFinite r = true → NearestEven r num den)

/-! ### Ranges and the invariant (R34, R35, R39) -/

/-- A ramp whose values lie in `[lo, hi]` (R34, R35): a settled ramp is on its target, and a ramp in progress has a
step. -/
structure RampOk (lo hi : F32) (r : Ramp) : Prop where
  cur : between lo r.cur hi = true
  tgt : between lo r.tgt hi = true
  rem : r.rem ≤ r.N
  width : r.N < 2 ^ 31
  settled : r.rem = 0 → r.cur = r.tgt
  step : 0 < r.rem → isFinite r.step = true

/-- The record of a live channel (R31 to R35, R39). -/
structure ChannelOk (cfg : Config) (cr : Regs) (r : Channel) : Prop where
  w : r.w < cr.cap
  rp : between fZero r.rp (i2f cr.cap) = true
  phase : between fZero r.phase twoPi = true
  phase_lt : value r.phase < value twoPi
  hz : between cfg.rateMinHz r.hz fTen = true
  fb : RampOk fZero fbMax r.fb
  mix : RampOk fZero fOne r.mix
  rate : RampOk cfg.rateMinHz fTen r.rate
  len : RampOk fOne (i2f ((cr.cap : Int) - 1)) r.len
  fbTarget : value r.fb.tgt = value cr.fbT
  mixTarget : value r.mix.tgt = value cr.mixT
  rateTarget : value r.rate.tgt = value cr.rateT

/-- The values a ramp record holds are finite (R12).  The step of a settled ramp is unspecified and never read (R94, log 9). -/
def RampFinite (r : Ramp) : Prop :=
  isFinite r.cur = true ∧ isFinite r.tgt = true ∧ (0 < r.rem → isFinite r.step = true)

/-- The values a channel record holds are finite (R12). -/
structure RecordFinite (r : Channel) : Prop where
  rp : isFinite r.rp = true
  phase : isFinite r.phase = true
  hz : isFinite r.hz = true
  fb : RampFinite r.fb
  mix : RampFinite r.mix
  rate : RampFinite r.rate
  len : RampFinite r.len

/-- A word of the addressed RAM: finite with magnitude below 21 (R39, R152). -/
def wordOk (v : F32) : Bool := isFinite v && decide (|value v| < 21 * ((2 ^ 149 : Nat) : Int))

/-- The registers in every engine state: the control registers legal (R25 to R29), every other finite (R12). -/
structure ControlOk (cfg : Config) (cr : Regs) : Prop where
  delayMs : between fZero cr.delayMs fThousand = true
  depthMs : between fZero cr.depthMs fTen = true
  mixT : between fZero cr.mixT fOne = true
  fbT : between fZero cr.fbT fbMax = true
  rateT : between cfg.rateMinHz cr.rateT fTen = true
  sr32 : isFinite cr.sr32 = true ∧ 0 ≤ value cr.sr32
  center : isFinite cr.center = true ∧ 0 ≤ value cr.center
  depth : isFinite cr.depth = true ∧ 0 ≤ value cr.depth

/-- What `PREPARE` establishes (R24, R25, R39). -/
structure PreparedOk (s : State) : Prop where
  cap : 2 ≤ s.cr.cap ∧ s.cr.cap ≤ s.cfg.capMax
  nch : 1 ≤ s.cr.nch ∧ s.cr.nch ≤ s.cfg.chMax
  sr32 : between fOne s.cr.sr32 (i2f s.cr.cap) = true
  center : between fZero s.cr.center (i2f s.cr.cap) = true
  channels : ∀ c, c < s.cr.nch → ∃ r, s.cs[c]? = some r ∧ ChannelOk s.cfg s.cr r
  words : ∀ c i, c < s.cr.nch → i < s.cr.cap → ∃ v, Memory.read s.ram (loc c i) = some v ∧ wordOk v = true

/-- The invariant of the block (R12, R23, R39).  What `PREPARE` establishes holds wherever a channel is live, hence also in a
`Faulted` engine that was prepared (R160 leaves everything else as it was).  A record of a channel that is not live either is
unspecified since hardware reset, and then holds no value (R40, log 7), or is finite. -/
structure Inv (s : State) : Prop where
  cfg : s.cfg.Admissible
  records : s.cs.length = s.cfg.chMax
  ram : Memory.wf s.ram = true
  cause : s.faultCause = 0#8 ↔ s.engine ≠ .faulted
  control : ControlOk s.cfg s.cr
  values : ∀ c r, s.cs[c]? = some r → r = powerOnChannel s.freeCount c ∨ RecordFinite r
  prepared : s.engine = .prepared → 0 < s.cr.nch
  live : 0 < s.cr.nch → PreparedOk s

/-! ### Frames -/

/-- Nothing outside the block's own registers and memories differs: the configuration, the ports, the host's side. -/
def SamePorts (s t : State) : Prop :=
  t.cfg = s.cfg ∧ t.rsp = s.rsp ∧ t.inputs = s.inputs ∧ t.taken = s.taken ∧ t.freeCount = s.freeCount

/-- Nothing differs but `CR.*`. -/
def OnlyRegs (s t : State) : Prop :=
  SamePorts s t ∧ t.engine = s.engine ∧ t.faultCause = s.faultCause ∧ t.cs = s.cs ∧ t.ram = s.ram

/-- Nothing differs but `CR.*` and channel records. -/
def OnlyRegsAndChannels (s t : State) : Prop :=
  SamePorts s t ∧ t.engine = s.engine ∧ t.faultCause = s.faultCause ∧ t.ram = s.ram

/-- A ramp settled on `v`, of length `n` (R94, R181). -/
def SettledOn (r : Ramp) (v : F32) (n : Nat) : Prop := r.cur = v ∧ r.tgt = v ∧ r.rem = 0 ∧ r.N = n

/-- The start state of a channel (R122, R181).  Nothing is said of the ramps' `step` fields, which are unspecified (R94,
U5, log 9). -/
def ChannelStarted (cfg : Config) (cr : Regs) (r : Channel) : Prop :=
  r.w = 0 ∧ r.phase = fZero ∧ r.hz = cr.rateT ∧
  SettledOn r.fb cr.fbT (f2i (ffloor (fmul cfg.rampTimeFb cr.sr32))).toNat ∧
  SettledOn r.mix cr.mixT (f2i (ffloor (fmul cfg.rampTimeMix cr.sr32))).toNat ∧
  SettledOn r.rate cr.rateT (f2i (ffloor (fmul cfg.rampTimeRate cr.sr32))).toNat ∧
  SettledOn r.len (clamp cr.center fOne (i2f ((cr.cap : Int) - 1)))
    (f2i (ffloor (fmul cfg.rampTimeLen cr.sr32))).toNat ∧
  r.rp = fsub (i2f cr.cap) (clamp cr.center fOne (i2f ((cr.cap : Int) - 1)))

/-- Two ramps that agree in everything but `step` (U5). -/
def SameRampButStep (r r' : Ramp) : Prop := r'.cur = r.cur ∧ r'.tgt = r.tgt ∧ r'.rem = r.rem ∧ r'.N = r.N

/-- Two channel records that agree in everything but the ramps' `step` fields (U5). -/
def SameButSteps (r r' : Channel) : Prop :=
  r'.w = r.w ∧ r'.rp = r.rp ∧ r'.phase = r.phase ∧ r'.hz = r.hz ∧ SameRampButStep r.fb r'.fb ∧
  SameRampButStep r.mix r'.mix ∧ SameRampButStep r.rate r'.rate ∧ SameRampButStep r.len r'.len

/-- What `ramp_setTarget(r, v)` leaves (R92): `r'` is `r` retargeted to `v`. -/
def Retargeted (cfg : Config) (mode : RampMode) (v : F32) (r r' : Ramp) : Prop :=
  (feq v r.tgt = true → r' = r) ∧
  (feq v r.tgt = false → r.N = 0 →
    r'.cur = v ∧ r'.tgt = v ∧ r'.rem = 0 ∧ r'.N = 0 ∧ r'.step = r.step) ∧
  (feq v r.tgt = false → 0 < r.N →
    r'.cur = r.cur ∧ r'.tgt = v ∧ r'.rem = r.N ∧ r'.N = r.N ∧
    (mode = .lin → r'.step = fdiv (fsub v r.cur) (i2f r.N)) ∧
    (mode = .mul → r'.step = ROOT cfg (fdiv v r.cur) r.N))

/-- The addressed part of the RAM holds `+0` and every other word is as it was (R110, R114). -/
def ZeroFilled (cap nch : Nat) (m m' : Memory) : Prop :=
  ∀ c i, i < 2 ^ 24 → Memory.read m' (loc c i) = if c < nch ∧ i < cap then some fZero else Memory.read m (loc c i)

/-! ### The first violation of a command word (R161, R167) -/

/-- The conditions of R161 on a decoded command in an engine that is `Prepared`. -/
def operandViolation (s : State) : Instr → Option Cause
  | .prepare _ _ _ => none
  | .reset => none
  | .setDelayTimeMs v => if isNaN v then some .badValue else none
  | .setMix v => if isNaN v then some .badValue else none
  | .setFeedback v => if isNaN v then some .badValue else none
  | .setLfoRateHz v => if isNaN v then some .badValue else none
  | .setLfoDepthMs v => if isNaN v then some .badValue else none
  | .processSample ch x =>
    if ch < 0 ∨ (s.cr.nch : Int) ≤ ch then some .badChannel
    else if isFinite x = false ∨ value x < value fNegOne ∨ value fOne < value x then some .badInput
    else none

/-- The conditions of R163 on `PREPARE`, in their order. -/
def prepareViolation (cfg : Config) (sr : F64) (ch : Int) : Option Cause :=
  if isFinite64 sr = false then some .badConfig
  else if dceil sr < 2 ∨ (cfg.capMax : Int) < dceil sr then some .badConfig
  else if ch < 1 ∨ (cfg.chMax : Int) < ch then some .badConfig
  else none

/-- The first violation found of a decoded command in an engine that is not `Faulted`, in the order of R167: engine state,
integer operand, floating operand. -/
def commandViolation (s : State) : Instr → Option Cause
  | .prepare sr _ ch => prepareViolation s.cfg sr ch
  | i => if s.engine = .unprepared then some .notPrepared else operandViolation s i

/-- The first violation found of a word that an engine not `Faulted` executes: decode first, then the command's (R167). -/
def firstViolation (w : CmdWord) (s : State) : Option Cause :=
  match decode w with
  | .error _ => some .illegalCommand
  | .ok i => commandViolation s i

/-! ### Runs of samples -/

/-- `PROCESS_SAMPLE` on channel `c` for each input in turn: the responses and the last state, or nothing where a command
gives no response. -/
def runSamples (c : Nat) : List F32 → State → Option (List F32 × State)
  | [], s => some ([], s)
  | x :: xs, s =>
    match exec (.processSample c x) s with
    | .next t =>
      match t.rsp with
      | some y => (runSamples c xs { t with rsp := none }).map fun p => (y :: p.1, p.2)
      | none => none
    | _ => none

/-- The read position of every live channel is the write index minus the delay length, wrapped by one conditional addition
of the capacity (R32, R147). -/
def PositionsTrail (s : State) : Prop :=
  s.engine = .prepared → ∀ c r, c < s.cr.nch → s.cs[c]? = some r →
    r.rp =
      (let p := fsub (i2f r.w) r.len.cur
       if flt p fZero then fadd p (i2f s.cr.cap) else p)

/-- `k` turns of the wrap loop's body (R103). -/
def subtractTurns : Nat → F32 → F32
  | 0, ph => ph
  | k + 1, ph => subtractTurns k (fsub ph twoPi)

/-- `k` calls of `ramp_next` (R96). -/
def rampAfter (mode : RampMode) : Nat → Ramp → Ramp
  | 0, r => r
  | k + 1, r => rampAfter mode k (rampNext mode r)

/-- The exact middle of `PROCESS_SAMPLE` (R140) with its result in terms of the micro-operations: what one sample time does
to the channel's record `r`, with delayed sample `d` and input `x`, giving record `r'` and response `y`. -/
structure SampleStep (cfg : Config) (cr : Regs) (r r' : Channel) (x d y : F32) : Prop where
  fb : r'.fb = rampNext .lin r.fb
  rate : r'.rate = rampNext .mul r.rate
  hz : r'.hz = r'.rate.cur
  phase : r'.phase =
    (let ph := fadd r.phase (fdiv (fmul twoPi r'.hz) cr.sr32)
     wrapPhase ph.toNat ph)
  len : r'.len = rampNext .lin (rampSetTarget cfg .lin r.len
    (clamp (fadd cr.center (fmul (SIN cfg r.phase) cr.depth)) fOne (i2f ((cr.cap : Int) - 1))))
  w : r'.w = (r.w + 1) % cr.cap
  rp : r'.rp =
    (let p := fsub (i2f r'.w) r'.len.cur
     if flt p fZero then fadd p (i2f cr.cap) else p)
  mix : r'.mix = rampNext .lin r.mix
  out : y = clamp
    (fadd (fmul (fmul fTwo (fmin fHalf (fsub fOne r'.mix.cur))) x) (fmul (fmul fTwo (fmin fHalf r'.mix.cur)) d))
    fNegOne fOne

/-! ### Operands of the primitives (R12)

For each rule that computes, the operands of every primitive of R2 to R4 it applies: no operand of an arithmetic primitive or
of `ffloor` is a NaN or an infinity, no divisor is a zero, nothing compared is a NaN. -/

/-- Operands of `fadd`, `fsub` and `fmul`. -/
def FiniteOperands (a b : F32) : Prop := isFinite a = true ∧ isFinite b = true

/-- Operands of `fdiv`. -/
def DivOperands (a b : F32) : Prop := isFinite a = true ∧ isFinite b = true ∧ isZero b = false

/-- Operands of a comparison, of `fmin` and of `fmax`. -/
def NumberOperands (a b : F32) : Prop := isNaN a = false ∧ isNaN b = false

/-- `msToSamples` (R128). -/
def ConvertOperands (ms sr32 : F32) : Prop := FiniteOperands ms sr32 ∧ DivOperands (fmul ms sr32) fThousand

/-- `derive_center` and `derive_depth` (R128). -/
def CenterOperands (cr : Regs) : Prop :=
  ConvertOperands cr.delayMs cr.sr32 ∧ NumberOperands (fdiv (fmul cr.delayMs cr.sr32) fThousand) (i2f cr.cap)

/-- `ramp_setTarget(r, v)` (R92): a multiplicative ramp divides by its current value. -/
def RetargetOperands (mode : RampMode) (r : Ramp) (v : F32) : Prop :=
  NumberOperands v r.tgt ∧
  (feq v r.tgt = false → 0 < r.N →
    match mode with
    | .lin => FiniteOperands v r.cur ∧ DivOperands (fsub v r.cur) (i2f r.N)
    | .mul => DivOperands v r.cur ∧ isNaN (fdiv v r.cur) = false ∧ 0 ≤ value (fdiv v r.cur))

/-- `ramp_next(r)` (R93). -/
def AdvanceOperands (mode : RampMode) (r : Ramp) : Prop :=
  2 ≤ r.rem →
    FiniteOperands r.cur r.step ∧
    NumberOperands (match mode with | .lin => fadd r.cur r.step | .mul => fmul r.cur r.step) r.tgt

/-- `ramp_init(r, v, t)` (R91, R94). -/
def StartRampOperands (t sr32 : F32) : Prop := FiniteOperands t sr32 ∧ isFinite (fmul t sr32) = true

/-- `channel_init` (R122). -/
def StartOperands (cfg : Config) (cr : Regs) : Prop :=
  StartRampOperands cfg.rampTimeFb cr.sr32 ∧ StartRampOperands cfg.rampTimeMix cr.sr32 ∧
  StartRampOperands cfg.rampTimeRate cr.sr32 ∧ StartRampOperands cfg.rampTimeLen cr.sr32 ∧
  NumberOperands cr.center (i2f ((cr.cap : Int) - 1)) ∧
  FiniteOperands (i2f cr.cap) (clamp cr.center fOne (i2f ((cr.cap : Int) - 1)))

/-- `buf_readInterpolated` at position `p` with taps `a` and `b` (R113). -/
def InterpolateOperands (p a b : F32) : Prop :=
  FiniteOperands p (ffloor p) ∧ FiniteOperands b a ∧ FiniteOperands (fsub p (ffloor p)) (fsub b a) ∧
  FiniteOperands a (fmul (fsub p (ffloor p)) (fsub b a))

/-- `osc_nextSample` at frequency `hz` and phase `phase` (R103): the increment, the sum, and every turn of the loop that is
reached. -/
def OscillatorOperands (sr32 hz phase : F32) : Prop :=
  let ph := fadd phase (fdiv (fmul twoPi hz) sr32)
  FiniteOperands twoPi hz ∧ DivOperands (fmul twoPi hz) sr32 ∧
  FiniteOperands phase (fdiv (fmul twoPi hz) sr32) ∧
  ∀ k, (∀ j, j < k → fle twoPi (subtractTurns j ph) = true) → isFinite (subtractTurns k ph) = true

/-- Steps 4 and 5 of `PROCESS_SAMPLE`: the target length (R144, R145). -/
def TargetOperands (cfg : Config) (cr : Regs) (phase : F32) : Prop :=
  FiniteOperands (SIN cfg phase) cr.depth ∧ FiniteOperands cr.center (fmul (SIN cfg phase) cr.depth) ∧
  NumberOperands (fadd cr.center (fmul (SIN cfg phase) cr.depth)) (i2f ((cr.cap : Int) - 1))

/-- Step 7 of `PROCESS_SAMPLE`: the read position (R147). -/
def PositionOperands (cap w : Nat) (len : F32) : Prop :=
  FiniteOperands (i2f w) len ∧ FiniteOperands (fsub (i2f w) len) (i2f cap)

/-- Steps 8 and 9 of `PROCESS_SAMPLE`: the mix and the limiter (R148, R149). -/
def MixOperands (m x d : F32) : Prop :=
  FiniteOperands fOne m ∧ FiniteOperands fTwo (fmin fHalf (fsub fOne m)) ∧ FiniteOperands fTwo (fmin fHalf m) ∧
  FiniteOperands (fmul fTwo (fmin fHalf (fsub fOne m))) x ∧ FiniteOperands (fmul fTwo (fmin fHalf m)) d ∧
  FiniteOperands (fmul (fmul fTwo (fmin fHalf (fsub fOne m))) x) (fmul (fmul fTwo (fmin fHalf m)) d) ∧
  isNaN (fadd (fmul (fmul fTwo (fmin fHalf (fsub fOne m))) x) (fmul (fmul fTwo (fmin fHalf m)) d)) = false

/-- One sample time of a channel with record `r`, input `x` and taps `a` and `b` (R140). -/
def SampleOperands (cfg : Config) (cr : Regs) (r : Channel) (x a b : F32) : Prop :=
  let d := interpolate (fsub r.rp (ffloor r.rp)) a b
  let tl := targetLength cfg cr r
  InterpolateOperands r.rp a b ∧
  AdvanceOperands .lin r.fb ∧ FiniteOperands d (rampNext .lin r.fb).cur ∧
  FiniteOperands x (fmul d (rampNext .lin r.fb).cur) ∧
  AdvanceOperands .mul r.rate ∧ OscillatorOperands cr.sr32 (rampNext .mul r.rate).cur r.phase ∧
  TargetOperands cfg cr r.phase ∧
  RetargetOperands .lin r.len tl ∧ AdvanceOperands .lin (rampSetTarget cfg .lin r.len tl) ∧
  PositionOperands cr.cap ((r.w + 1) % cr.cap) (rampNext .lin (rampSetTarget cfg .lin r.len tl)).cur ∧
  AdvanceOperands .lin r.mix ∧ MixOperands (rampNext .lin r.mix).cur x d

/-- Every primitive a command that passes its checks applies has the operands R12 promises. -/
def CommandOperands (s : State) : Instr → Prop
  | .prepare sr _ _ =>
    let cr := { s.cr with sr32 := d2f sr, cap := (dceil sr).toNat }
    let center := fmin (fdiv (fmul cr.delayMs cr.sr32) fThousand) (i2f cr.cap)
    CenterOperands cr ∧ ConvertOperands cr.depthMs cr.sr32 ∧ StartOperands s.cfg { cr with center := center }
  | .reset => StartOperands s.cfg s.cr
  | .setDelayTimeMs v => CenterOperands { s.cr with delayMs := clamp v fZero fThousand }
  | .setMix v => ∀ c r, c < s.cr.nch → s.cs[c]? = some r → RetargetOperands .lin r.mix (clamp v fZero fOne)
  | .setFeedback v => ∀ c r, c < s.cr.nch → s.cs[c]? = some r → RetargetOperands .lin r.fb (clamp v fZero fbMax)
  | .setLfoRateHz v =>
    ∀ c r, c < s.cr.nch → s.cs[c]? = some r → RetargetOperands .mul r.rate (clamp v s.cfg.rateMinHz fTen)
  | .setLfoDepthMs v => ConvertOperands (clamp v fZero fTen) s.cr.sr32
  | .processSample ch x => ∀ r a b, s.cs[ch.toNat]? = some r →
    bufRead s.cr.cap s.ram ch.toNat (tapIndex s.cr.cap r.rp) = some a →
    bufRead s.cr.cap s.ram ch.toNat ((tapIndex s.cr.cap r.rp : Int) + 1) = some b →
    SampleOperands s.cfg s.cr r x a b

/-! ### The unit in the last place (R96 c) -/

/-- One unit in the last place of a finite number, in units of `2^-149`. -/
def ulp (a : F32) : Nat := 2 ^ (expField a - 1)

end Sys2Proof.Machine
end

