-- ==== Sys2Proof/Certificates/Slice0/Obligations.lean ====
section
/-! DEFINITION. Obligations: the statements for the provers.  Each docstring names the rule of spec/ it formalises; one that
rests on a choice of the model names the log entry. -/

section

open Sys2Proof Sys2Proof.Machine

/-! ### Encoding (spec/30_encoding.md) -/

/-- The worked encodings of spec/30_encoding.md section 6 decode to the commands they stand for (R71, R72, R73). -/
def Obligations.DecodeReadsWorkedWords : Prop :=
  decode 0x40E7700000000000000002000000000200000001#160 = .ok (.prepare 0x40E7700000000000#64 512 2) ∧
  decode 0x0000000000000000000000000000000000000002#160 = .ok .reset ∧
  decode 0x000000000000000043FA00000000000000000010#160 = .ok (.setDelayTimeMs 0x43FA0000#32) ∧
  decode 0x00000000000000003F8000000000000000000011#160 = .ok (.setMix 0x3F800000#32) ∧
  decode 0x00000000000000003F0000000000000000000012#160 = .ok (.setFeedback 0x3F000000#32) ∧
  decode 0x0000000000000000400000000000000000000013#160 = .ok (.setLfoRateHz 0x40000000#32) ∧
  decode 0x0000000000000000412000000000000000000014#160 = .ok (.setLfoDepthMs 0x41200000#32) ∧
  decode 0x0000000000000000BF0000000000000100000020#160 = .ok (.processSample 1 0xBF000000#32)

/-- A word is command X exactly when its low 32 bits are X's opcode and every slot the row shows as 0 is zero; its operands
are the slots, integers sign-extended (R72, R73). -/
def Obligations.DecodeMatchesOpcodeTable : Prop :=
  ∀ (w : CmdWord) (i : Instr),
    let low := w.extractLsb' 0 32
    let p0 := w.extractLsb' 32 32
    let p1 := w.extractLsb' 64 32
    let p2 := w.extractLsb' 96 64
    decode w = .ok i ↔
      (low = 0x00000001#32 ∧ i = .prepare p2 p1.toInt p0.toInt) ∨
      (low = 0x00000002#32 ∧ p0 = 0#32 ∧ p1 = 0#32 ∧ p2 = 0#64 ∧ i = .reset) ∨
      (low = 0x00000010#32 ∧ p0 = 0#32 ∧ p2 = 0#64 ∧ i = .setDelayTimeMs p1) ∨
      (low = 0x00000011#32 ∧ p0 = 0#32 ∧ p2 = 0#64 ∧ i = .setMix p1) ∨
      (low = 0x00000012#32 ∧ p0 = 0#32 ∧ p2 = 0#64 ∧ i = .setFeedback p1) ∨
      (low = 0x00000013#32 ∧ p0 = 0#32 ∧ p2 = 0#64 ∧ i = .setLfoRateHz p1) ∨
      (low = 0x00000014#32 ∧ p0 = 0#32 ∧ p2 = 0#64 ∧ i = .setLfoDepthMs p1) ∨
      (low = 0x00000020#32 ∧ p2 = 0#64 ∧ i = .processSample p0.toInt p1)

/-- A reserved opcode, a non-zero `RSV` or a non-zero slot that the opcode does not use raises `ILLEGAL_COMMAND` (code
`0x01`) in `Unprepared` and in `Prepared`, and is ignored in `Faulted` (R74, R75, R162). -/
def Obligations.IllegalWordsRaiseIllegalCommand : Prop :=
  ∀ (w : CmdWord) (s : State),
    let op := (w.extractLsb' 0 8).toNat
    let rsv := w.extractLsb' 8 24
    let p0 := w.extractLsb' 32 32
    let p1 := w.extractLsb' 64 32
    let p2 := w.extractLsb' 96 64
    (op = 0x00 ∨ (0x03 ≤ op ∧ op ≤ 0x0F) ∨ (0x15 ≤ op ∧ op ≤ 0x1F) ∨ 0x21 ≤ op ∨
      rsv ≠ 0#24 ∨
      (op = 0x02 ∧ (p0 ≠ 0#32 ∨ p1 ≠ 0#32 ∨ p2 ≠ 0#64)) ∨
      (0x10 ≤ op ∧ op ≤ 0x14 ∧ (p0 ≠ 0#32 ∨ p2 ≠ 0#64)) ∨
      (op = 0x20 ∧ p2 ≠ 0#64)) →
    (s.engine ≠ .faulted → runCommand w s = .next { s with engine := .faulted, faultCause := 0x01#8 }) ∧
    (s.engine = .faulted → runCommand w s = .next s)

/-- Decoding the word of a well-formed command gives the command back, with every operand (R71, R72, R73). -/
def Obligations.DecodeOfEncode : Prop :=
  ∀ i : Instr, i.wellFormed = true → decode (encode i) = .ok i

/-- A word that decodes to a command is that command's word, and the command is well-formed: no bit of a legal word is
dropped and each legal word has one meaning (R71, R72, R75). -/
def Obligations.EncodeOfDecode : Prop :=
  ∀ (w : CmdWord) (i : Instr), decode w = .ok i → i.wellFormed = true ∧ encode i = w

/-! ### Ports and steps (R58, R70, R76, R77, R180) -/

/-- In a cycle in which the host presents a word, whatever the word, and no response waits or the host takes it, a step hands
the response over and runs the word (R58, R70): `exec i` where it decodes to `i`, and `ILLEGAL_COMMAND`, ignored in `Faulted`,
where it decodes to nothing (R162, R169).  The pins are data of State (log 8).  That a command is accepted in the very cycle in
which the waiting response is taken is the model's deduction from R77 (log 8, DEDUCED), not a rule. -/
def Obligations.StepRunsDecodedCommand : Prop :=
  ∀ (s : State) (p : PortCycle) (rest : List PortCycle),
    s.inputs = p :: rest → p.rstN = true → p.cmdValid = true → (s.rsp = none ∨ p.rspReady = true) →
    let u : State := { s with inputs := rest, rsp := none, taken := s.taken ++ s.rsp.toList }
    step s = runCommand p.cmdData u ∧
    (∀ i, decode p.cmdData = .ok i → step s = exec i u) ∧
    (∀ e, decode p.cmdData = .error e →
      step s = .next (if s.engine = .faulted then u else { u with engine := .faulted, faultCause := 0x01#8 }))

/-- While a response waits and the host does not take it the engine accepts no command, and the response stays (R77). -/
def Obligations.WaitingResponseBlocksCommands : Prop :=
  ∀ (s : State) (p : PortCycle) (rest : List PortCycle) (y : F32),
    s.inputs = p :: rest → p.rstN = true → s.rsp = some y → p.rspReady = false →
    cmdReady p.rspReady s = false ∧ step s = .next { s with inputs := rest }

/-- Nothing in the block changes except while a command executes (R57, R174): a cycle without a command consumes the cycle,
transfers the waiting response exactly where `rsp_ready` is 1 (R70), keeps it where not (R77), and changes nothing else.  That the
words taken are kept in `taken` is the model's (log 8). -/
def Obligations.NoCommandNoChange : Prop :=
  ∀ (s : State) (p : PortCycle) (rest : List PortCycle),
    s.inputs = p :: rest → p.rstN = true → p.cmdValid = false →
    step s = .next { s with
      inputs := rest
      rsp := if p.rspReady then none else s.rsp
      taken := if p.rspReady then s.taken ++ s.rsp.toList else s.taken }

/-- A cycle with `rst_n` low returns every register to its power-on value, whatever the state, and drops a waiting response
(R180, R40).  The unspecified contents are the free values of log 7; no word of the RAM holds a value (log 3).  The last two
clauses, that the cycles to come and the words already taken are the host's and survive, are the model's choice (log 8), not the
rules'. -/
def Obligations.HardwareResetReturnsToPowerOn : Prop :=
  ∀ (s : State) (p : PortCycle) (rest : List PortCycle),
    s.inputs = p :: rest → p.rstN = false →
    ∃ t, step s = .next t ∧ t.engine = .unprepared ∧ t.faultCause = 0#8 ∧ faultO t = false ∧ t.rsp = none ∧
      t.cr = { sr32 := fZero, cap := 0, nch := 0, delayMs := fZero, center := fZero, depthMs := fZero, depth := fZero,
               mixT := fZero, fbT := fZero, rateT := s.cfg.rateMinHz } ∧
      (∀ a, Memory.read t.ram a = none) ∧ t.cs.length = s.cfg.chMax ∧
      t.cfg = s.cfg ∧ t.inputs = rest ∧ t.taken = s.taken

/-- The registers after reset (R40), for every configuration.  The last line is the model's choice (log 1), not R40's: the state
after reset is that of the installed configuration, which may be any the spec admits and is one of them. -/
def Obligations.ResetStateIsPowerOn : Prop :=
  (∀ cfg : Config,
    let s := State.resetWith cfg
    s.engine = .unprepared ∧ s.faultCause = 0#8 ∧ s.cr.sr32 = fZero ∧ s.cr.cap = 0 ∧ s.cr.nch = 0 ∧
    s.cr.delayMs = fZero ∧ s.cr.center = fZero ∧ s.cr.depthMs = fZero ∧ s.cr.depth = fZero ∧ s.cr.mixT = fZero ∧
    s.cr.fbT = fZero ∧ s.cr.rateT = cfg.rateMinHz) ∧
  State.reset = State.resetWith Config.installed ∧ Config.installed.Admissible

/-- No command but a completed `PROCESS_SAMPLE` changes the response port, and every completed `PROCESS_SAMPLE` leaves one
response (R76). -/
def Obligations.OnlyProcessSampleResponds : Prop :=
  ∀ (w : CmdWord) (s t : State), runCommand w s = .next t →
    (t.rsp ≠ s.rsp → ∃ ch x, decode w = .ok (.processSample ch x) ∧ s.engine = .prepared ∧ t.engine = .prepared) ∧
    (∀ ch x, decode w = .ok (.processSample ch x) → t.engine = .prepared → ∃ y, t.rsp = some y) ∧
    (t.engine = .faulted → t.rsp = s.rsp)

/-! ### Contract violations (spec/60_exceptions.md) -/

/-- A violation writes `FAULT_CAUSE` and `STATE` and nothing else, and gives no response (R160): whenever a command takes the
engine into `Faulted`, the state is as the previous command left it in everything else. -/
def Obligations.ViolationsArePrecise : Prop :=
  ∀ (w : CmdWord) (s t : State), runCommand w s = .next t → s.engine ≠ .faulted → t.engine = .faulted →
    ∃ cause : Cause, t = { s with engine := .faulted, faultCause := causeCode cause }

/-- The first violation found, in the order decode, engine state, integer operand, floating operand, is the one recorded,
under the code of R161; a word without a violation does not fault the engine (R161, R167). -/
def Obligations.FirstViolationIsRecorded : Prop :=
  (causeCode .illegalCommand = 0x01#8 ∧ causeCode .notPrepared = 0x02#8 ∧ causeCode .badChannel = 0x03#8 ∧
    causeCode .badConfig = 0x04#8 ∧ causeCode .badValue = 0x05#8 ∧ causeCode .badInput = 0x06#8) ∧
  ∀ (w : CmdWord) (s : State), s.engine ≠ .faulted →
    (∀ cause, firstViolation w s = some cause →
      runCommand w s = .next { s with engine := .faulted, faultCause := causeCode cause }) ∧
    (firstViolation w s = none → ∀ t, runCommand w s = .next t →
      t.engine = .prepared ∧ t.faultCause = s.faultCause)

/-- In `Unprepared` every command but `PREPARE` raises `NOT_PREPARED`, whatever its operands; `PREPARE` never does (R166). -/
def Obligations.NotPreparedCommandsRaise : Prop :=
  ∀ (s : State) (i : Instr), s.engine = .unprepared →
    ((∀ sr block ch, i ≠ .prepare sr block ch) →
      exec i s = .next { s with engine := .faulted, faultCause := 0x02#8 }) ∧
    ((∃ sr block ch, i = .prepare sr block ch) →
      ∀ t, exec i s = .next t → t.engine = .prepared ∨ (t.engine = .faulted ∧ t.faultCause = 0x04#8))

/-- The operand checks in `Prepared` (R165): a `SET_*` raises `BAD_VALUE` exactly on a NaN; `PROCESS_SAMPLE` on a channel in
range raises `BAD_INPUT` exactly on a NaN, an infinity or a number outside `[-1, 1]`. -/
def Obligations.OperandChecks : Prop :=
  ∀ (s : State) (v : F32), s.engine = .prepared →
    (∀ i, i = .setDelayTimeMs v ∨ i = .setMix v ∨ i = .setFeedback v ∨ i = .setLfoRateHz v ∨ i = .setLfoDepthMs v →
      (isNaN v = true → exec i s = .next { s with engine := .faulted, faultCause := 0x05#8 }) ∧
      (isNaN v = false → ∃ t, exec i s = .next t ∧ t.engine = .prepared ∧ t.faultCause = s.faultCause)) ∧
    (∀ ch : Int, 0 ≤ ch → ch < s.cr.nch →
      (isFinite v = false ∨ value v < value fNegOne ∨ value fOne < value v →
        exec (.processSample ch v) s = .next { s with engine := .faulted, faultCause := 0x06#8 }) ∧
      (isFinite v = true ∧ value fNegOne ≤ value v ∧ value v ≤ value fOne →
        ∀ t, exec (.processSample ch v) s = .next t → t.engine = .prepared))

/-- In `Faulted` every command word, legal or not, is accepted and discarded: no state of the block changes, no response is
produced, `FAULT_CAUSE` keeps the first cause (R169). -/
def Obligations.FaultedIgnoresEveryCommand : Prop :=
  ∀ s : State, s.engine = .faulted →
    (∀ w : CmdWord, runCommand w s = .next s) ∧
    (∀ (p : PortCycle) (rest : List PortCycle), s.inputs = p :: rest → p.rstN = true → p.cmdValid = true →
      s.rsp = none → cmdReady p.rspReady s = true ∧ step s = .next { s with inputs := rest })

/-- No step but one with `rst_n` low leaves `Faulted` or changes `FAULT_CAUSE` in it (R171). -/
def Obligations.OnlyHardwareResetLeavesFaulted : Prop :=
  ∀ s t : State, s.engine = .faulted → step s = .next t →
    (t.engine = .faulted ∧ t.faultCause = s.faultCause) ∨
    (t.engine = .unprepared ∧ ∃ p rest, s.inputs = p :: rest ∧ p.rstN = false)

/-- The engine's transitions and their codes (R22): to `Prepared` by a valid `PREPARE` only, to `Faulted` by a violation only,
to `Unprepared` by hardware reset only. -/
def Obligations.EngineStateTransitions : Prop :=
  (engineCode .unprepared = 0#2 ∧ engineCode .prepared = 1#2 ∧ engineCode .faulted = 2#2) ∧
  ∀ s t : State, step s = .next t → t.engine ≠ s.engine →
    ∃ p rest, s.inputs = p :: rest ∧
      ((p.rstN = false ∧ t.engine = .unprepared) ∨
       (p.rstN = true ∧ p.cmdValid = true ∧ s.engine = .unprepared ∧ t.engine = .prepared ∧
          ∃ sr block ch, decode p.cmdData = .ok (.prepare sr block ch) ∧ prepareViolation s.cfg sr ch = none) ∨
       (p.rstN = true ∧ p.cmdValid = true ∧ s.engine ≠ .faulted ∧ t.engine = .faulted ∧
          ∃ cause, firstViolation p.cmdData s = some cause ∧ t.faultCause = causeCode cause))

/-- `fault_o` is 1 exactly in `Faulted`, `fault_cause_o` is `FAULT_CAUSE`, and both change only by a violation or by hardware
reset (R168). -/
def Obligations.FaultOutputsChangeOnlyOnViolation : Prop :=
  ∀ s t : State, step s = .next t →
    (faultO t = true ↔ t.engine = .faulted) ∧ faultCauseO t = t.faultCause ∧
    (faultO t ≠ faultO s ∨ faultCauseO t ≠ faultCauseO s →
      ∃ p rest, s.inputs = p :: rest ∧
        (p.rstN = false ∨
          (p.cmdValid = true ∧ s.engine ≠ .faulted ∧ t.engine = .faulted ∧
            ∃ cause, firstViolation p.cmdData s = some cause ∧ faultCauseO t = causeCode cause)))

/-! ### PREPARE and RESET (R120, R121, R122, R128, R163, R181) -/

/-- `PREPARE` in every engine state (R120, R163): ignored in `Faulted`; `BAD_CONFIG` on an operand out of range; otherwise it
completes, writes the configuration registers, recomputes `CR.CENTER` and `CR.DEPTH`, keeps the other control registers,
zero-fills the addressed RAM and no other word, brings every live channel to its start state and touches no other, and
enters `Prepared`. -/
def Obligations.PrepareResult : Prop :=
  ∀ (s : State) (sr : F64) (block ch : Int), s.cfg.legal = true → s.cs.length = s.cfg.chMax →
    (s.engine = .faulted → exec (.prepare sr block ch) s = .next s) ∧
    (s.engine ≠ .faulted →
      (isFinite64 sr = false ∨ dceil sr < 2 ∨ (s.cfg.capMax : Int) < dceil sr ∨ ch < 1 ∨ (s.cfg.chMax : Int) < ch) →
      exec (.prepare sr block ch) s = .next { s with engine := .faulted, faultCause := 0x04#8 }) ∧
    (s.engine ≠ .faulted → isFinite64 sr = true → 2 ≤ dceil sr → dceil sr ≤ s.cfg.capMax → 1 ≤ ch → ch ≤ s.cfg.chMax →
      ∃ t, exec (.prepare sr block ch) s = .next t ∧
        t.engine = .prepared ∧ t.faultCause = s.faultCause ∧ SamePorts s t ∧
        t.cr = { s.cr with
          sr32 := d2f sr, cap := (dceil sr).toNat, nch := ch.toNat,
          center := fmin (fdiv (fmul s.cr.delayMs (d2f sr)) fThousand) (i2f (dceil sr)),
          depth := fdiv (fmul s.cr.depthMs (d2f sr)) fThousand } ∧
        ZeroFilled t.cr.cap t.cr.nch s.ram t.ram ∧
        t.cs.length = s.cs.length ∧
        (∀ c, c < t.cr.nch → ∃ r, t.cs[c]? = some r ∧ ChannelStarted s.cfg t.cr r) ∧
        (∀ c, t.cr.nch ≤ c → t.cs[c]? = s.cs[c]?))

/-- `RESET` in every engine state (R121): ignored in `Faulted`, `NOT_PREPARED` in `Unprepared`; in `Prepared` it completes,
zero-fills the addressed RAM and no other word, brings every live channel to its start state and touches no other, and
changes no register. -/
def Obligations.ResetResult : Prop :=
  ∀ s : State, s.cr.cap ≤ 2 ^ 24 → s.cr.nch ≤ s.cs.length →
    (s.engine = .faulted → exec .reset s = .next s) ∧
    (s.engine = .unprepared → exec .reset s = .next { s with engine := .faulted, faultCause := 0x02#8 }) ∧
    (s.engine = .prepared →
      ∃ t, exec .reset s = .next t ∧
        t.engine = .prepared ∧ t.faultCause = s.faultCause ∧ SamePorts s t ∧ t.cr = s.cr ∧
        ZeroFilled s.cr.cap s.cr.nch s.ram t.ram ∧
        t.cs.length = s.cs.length ∧
        (∀ c, c < s.cr.nch → ∃ r, t.cs[c]? = some r ∧ ChannelStarted s.cfg s.cr r) ∧
        (∀ c, s.cr.nch ≤ c → t.cs[c]? = s.cs[c]?))

/-- `RESET` immediately after a `PREPARE` that completed changes nothing (R121); the ramps' `step` fields, which are then
unspecified (U5), are left out of the comparison. -/
def Obligations.ResetAfterPrepareChangesNothing : Prop :=
  ∀ (s t : State) (sr : F64) (block ch : Int), s.cfg.legal = true → s.cs.length = s.cfg.chMax → Memory.wf s.ram = true →
    exec (.prepare sr block ch) s = .next t → t.engine = .prepared →
    ∃ u, exec .reset t = .next u ∧ u.engine = t.engine ∧ u.faultCause = t.faultCause ∧ u.cr = t.cr ∧ u.ram = t.ram ∧
      SamePorts t u ∧ u.cs.length = t.cs.length ∧
      (∀ (c : Nat) (r : Channel), t.cs[c]? = some r → ∃ r', u.cs[c]? = some r' ∧ SameButSteps r r')

/-! ### The SET commands (R123 to R130) -/

/-- `SET_DELAY_TIME_MS` in every engine state (R123): in `Prepared`, on a number, it completes and writes `CR.DELAY_MS` and
`CR.CENTER` and nothing else; a value of 1000 or more is stored as 1000, one of 0 or less as `+0`. -/
def Obligations.SetDelayTimeMsResult : Prop :=
  ∀ (s : State) (v : F32),
    (s.engine = .faulted → exec (.setDelayTimeMs v) s = .next s) ∧
    (s.engine = .unprepared → exec (.setDelayTimeMs v) s = .next { s with engine := .faulted, faultCause := 0x02#8 }) ∧
    (s.engine = .prepared → isNaN v = true →
      exec (.setDelayTimeMs v) s = .next { s with engine := .faulted, faultCause := 0x05#8 }) ∧
    (s.engine = .prepared → isNaN v = false →
      exec (.setDelayTimeMs v) s = .next { s with cr := { s.cr with
        delayMs := clamp v fZero fThousand,
        center := fmin (fdiv (fmul (clamp v fZero fThousand) s.cr.sr32) fThousand) (i2f s.cr.cap) } }) ∧
    (isNaN v = false → value v ≤ 0 → clamp v fZero fThousand = fZero) ∧
    (isNaN v = false → value fThousand ≤ value v → clamp v fZero fThousand = fThousand)

/-- `SET_MIX` in every engine state (R124): in `Prepared`, on a number, it completes, writes `CR.MIX_T`, retargets the mix ramp
of every live channel and touches nothing else. -/
def Obligations.SetMixResult : Prop :=
  ∀ (s : State) (v : F32),
    (s.engine = .faulted → exec (.setMix v) s = .next s) ∧
    (s.engine = .unprepared → exec (.setMix v) s = .next { s with engine := .faulted, faultCause := 0x02#8 }) ∧
    (s.engine = .prepared → isNaN v = true →
      exec (.setMix v) s = .next { s with engine := .faulted, faultCause := 0x05#8 }) ∧
    (s.engine = .prepared → isNaN v = false →
      ∃ t, exec (.setMix v) s = .next t ∧ OnlyRegsAndChannels s t ∧ t.cs.length = s.cs.length ∧
        t.cr = { s.cr with mixT := clamp v fZero fOne } ∧
        (∀ c r, s.cs[c]? = some r → c < s.cr.nch → ∃ r', t.cs[c]? = some r' ∧
          Retargeted s.cfg .lin (clamp v fZero fOne) r.mix r'.mix ∧ r' = { r with mix := r'.mix }) ∧
        (∀ c, s.cr.nch ≤ c → t.cs[c]? = s.cs[c]?)) ∧
    (isNaN v = false → value fOne ≤ value v → clamp v fZero fOne = fOne)

/-- `SET_FEEDBACK` in every engine state (R125): in `Prepared`, on a number, it completes, writes `CR.FB_T`, clamped to at most
the binary32 `0x3F733333`, retargets the feedback ramp of every live channel and touches nothing else. -/
def Obligations.SetFeedbackResult : Prop :=
  ∀ (s : State) (v : F32),
    (s.engine = .faulted → exec (.setFeedback v) s = .next s) ∧
    (s.engine = .unprepared → exec (.setFeedback v) s = .next { s with engine := .faulted, faultCause := 0x02#8 }) ∧
    (s.engine = .prepared → isNaN v = true →
      exec (.setFeedback v) s = .next { s with engine := .faulted, faultCause := 0x05#8 }) ∧
    (s.engine = .prepared → isNaN v = false →
      ∃ t, exec (.setFeedback v) s = .next t ∧ OnlyRegsAndChannels s t ∧ t.cs.length = s.cs.length ∧
        t.cr = { s.cr with fbT := clamp v fZero 0x3F733333#32 } ∧
        (∀ c r, s.cs[c]? = some r → c < s.cr.nch → ∃ r', t.cs[c]? = some r' ∧
          Retargeted s.cfg .lin (clamp v fZero 0x3F733333#32) r.fb r'.fb ∧ r' = { r with fb := r'.fb }) ∧
        (∀ c, s.cr.nch ≤ c → t.cs[c]? = s.cs[c]?)) ∧
    (isNaN v = false → value fOne ≤ value v → clamp v fZero 0x3F733333#32 = 0x3F733333#32)

/-- `SET_LFO_RATE_HZ` in every engine state (R126): in `Prepared`, on a number, it completes, writes `CR.RATE_T` clamped to
`[RATE_MIN_HZ, 10]`, retargets the rate ramp of every live channel and touches nothing else; a request of 0 Hz or less gives
`RATE_MIN_HZ`. -/
def Obligations.SetLfoRateHzResult : Prop :=
  ∀ (s : State) (v : F32), s.cfg.legal = true →
    (s.engine = .faulted → exec (.setLfoRateHz v) s = .next s) ∧
    (s.engine = .unprepared → exec (.setLfoRateHz v) s = .next { s with engine := .faulted, faultCause := 0x02#8 }) ∧
    (s.engine = .prepared → isNaN v = true →
      exec (.setLfoRateHz v) s = .next { s with engine := .faulted, faultCause := 0x05#8 }) ∧
    (s.engine = .prepared → isNaN v = false →
      ∃ t, exec (.setLfoRateHz v) s = .next t ∧ OnlyRegsAndChannels s t ∧ t.cs.length = s.cs.length ∧
        t.cr = { s.cr with rateT := clamp v s.cfg.rateMinHz fTen } ∧
        (∀ c r, s.cs[c]? = some r → c < s.cr.nch → ∃ r', t.cs[c]? = some r' ∧
          Retargeted s.cfg .mul (clamp v s.cfg.rateMinHz fTen) r.rate r'.rate ∧ r' = { r with rate := r'.rate }) ∧
        (∀ c, s.cr.nch ≤ c → t.cs[c]? = s.cs[c]?)) ∧
    (isNaN v = false → value v ≤ 0 → value (clamp v s.cfg.rateMinHz fTen) = value s.cfg.rateMinHz)

/-- `SET_LFO_DEPTH_MS` in every engine state (R127): in `Prepared`, on a number, it completes and writes `CR.DEPTH_MS` and
`CR.DEPTH` and nothing else: no ramp is retargeted; a value of 10 or more is stored as 10. -/
def Obligations.SetLfoDepthMsResult : Prop :=
  ∀ (s : State) (v : F32),
    (s.engine = .faulted → exec (.setLfoDepthMs v) s = .next s) ∧
    (s.engine = .unprepared → exec (.setLfoDepthMs v) s = .next { s with engine := .faulted, faultCause := 0x02#8 }) ∧
    (s.engine = .prepared → isNaN v = true →
      exec (.setLfoDepthMs v) s = .next { s with engine := .faulted, faultCause := 0x05#8 }) ∧
    (s.engine = .prepared → isNaN v = false →
      exec (.setLfoDepthMs v) s = .next { s with cr := { s.cr with
        depthMs := clamp v fZero fTen, depth := fdiv (fmul (clamp v fZero fTen) s.cr.sr32) fThousand } }) ∧
    (isNaN v = false → value fTen ≤ value v → clamp v fZero fTen = fTen)

/-- Each register of `CR.*` is written only by the commands its rule names (R24 to R29). -/
def Obligations.RegistersWrittenOnlyByTheirCommand : Prop :=
  ∀ (i : Instr) (s t : State), exec i s = .next t →
    ((t.cr.sr32 = s.cr.sr32 ∧ t.cr.cap = s.cr.cap ∧ t.cr.nch = s.cr.nch) ∨ ∃ sr block ch, i = .prepare sr block ch) ∧
    (t.cr.delayMs = s.cr.delayMs ∨ ∃ v, i = .setDelayTimeMs v) ∧
    (t.cr.center = s.cr.center ∨ (∃ v, i = .setDelayTimeMs v) ∨ ∃ sr block ch, i = .prepare sr block ch) ∧
    (t.cr.depthMs = s.cr.depthMs ∨ ∃ v, i = .setLfoDepthMs v) ∧
    (t.cr.depth = s.cr.depth ∨ (∃ v, i = .setLfoDepthMs v) ∨ ∃ sr block ch, i = .prepare sr block ch) ∧
    (t.cr.mixT = s.cr.mixT ∨ ∃ v, i = .setMix v) ∧
    (t.cr.fbT = s.cr.fbT ∨ ∃ v, i = .setFeedback v) ∧
    (t.cr.rateT = s.cr.rateT ∨ ∃ v, i = .setLfoRateHz v)

/-! ### PROCESS_SAMPLE (R140 to R157) -/

/-- `PROCESS_SAMPLE` in every engine state (R140): ignored in `Faulted`; `NOT_PREPARED`, `BAD_CHANNEL`, `BAD_INPUT` in that
order; otherwise, where the channel has its record `r` and the two taps hold words `a` and `b`, it completes: the nine steps
give the record, the word written at the write index and the response, and nothing else of the state changes. -/
def Obligations.ProcessSampleResult : Prop :=
  ∀ (s : State) (ch : Int) (x : F32),
    (s.engine = .faulted → exec (.processSample ch x) s = .next s) ∧
    (s.engine = .unprepared → exec (.processSample ch x) s = .next { s with engine := .faulted, faultCause := 0x02#8 }) ∧
    (s.engine = .prepared → (ch < 0 ∨ (s.cr.nch : Int) ≤ ch) →
      exec (.processSample ch x) s = .next { s with engine := .faulted, faultCause := 0x03#8 }) ∧
    (s.engine = .prepared → 0 ≤ ch → ch < s.cr.nch →
      (isFinite x = false ∨ value x < value fNegOne ∨ value fOne < value x) →
      exec (.processSample ch x) s = .next { s with engine := .faulted, faultCause := 0x06#8 }) ∧
    (∀ (c i0 i1 : Nat) (r : Channel) (a b : F32), s.engine = .prepared → ch = (c : Int) → c < s.cr.nch →
      isFinite x = true → value fNegOne ≤ value x → value x ≤ value fOne → 0 < s.cr.cap →
      s.cs[c]? = some r →
      (i0 : Int) = f2i (ffloor r.rp) % (s.cr.cap : Int) → i1 = (i0 + 1) % s.cr.cap →
      Memory.read s.ram (loc c i0) = some a → Memory.read s.ram (loc c i1) = some b →
      let d := fadd a (fmul (fsub r.rp (ffloor r.rp)) (fsub b a))
      ∃ t r' y, exec (.processSample ch x) s = .next t ∧
        SampleStep s.cfg s.cr r r' x d y ∧
        t.rsp = some y ∧
        t.cs[c]? = some r' ∧ t.cs.length = s.cs.length ∧ (∀ c', c' ≠ c → t.cs[c']? = s.cs[c']?) ∧
        (∀ k, Memory.read t.ram k =
          if k = loc c (r.w % s.cr.cap) then some (fadd x (fmul d r'.fb.cur)) else Memory.read s.ram k) ∧
        t.cr = s.cr ∧ t.engine = .prepared ∧ t.faultCause = s.faultCause ∧ t.cfg = s.cfg ∧ t.inputs = s.inputs ∧
        t.taken = s.taken ∧ t.freeCount = s.freeCount)

/-- Once the checks of a command pass it cannot fail (R140), and every command is a terminating function of the state (R195):
in a state of the invariant every command and every step answers a next state. -/
def Obligations.NoCommandStops : Prop :=
  ∀ s : State, Inv s → (∀ i, ∃ t, exec i s = .next t) ∧ ∃ t, step s = .next t

/-- `PROCESS_SAMPLE` on channel `c` depends on its operands, the shared registers and the state of channel `c` alone, and
changes nothing of another channel (R151). -/
def Obligations.ProcessSampleReadsOwnChannelOnly : Prop :=
  ∀ (s s' : State) (c : Nat) (x : F32), Inv s → Inv s' → s.engine = .prepared → s'.engine = .prepared →
    s'.cfg = s.cfg → s'.cr = s.cr → c < s.cr.nch → inputInRange x = true →
    s'.cs[c]? = s.cs[c]? → (∀ i, i < s.cr.cap → Memory.read s'.ram (loc c i) = Memory.read s.ram (loc c i)) →
    ∃ t t', exec (.processSample c x) s = .next t ∧ exec (.processSample c x) s' = .next t' ∧
      t'.rsp = t.rsp ∧ t'.cs[c]? = t.cs[c]? ∧ t.cr = s.cr ∧
      (∀ i, i < s.cr.cap → Memory.read t'.ram (loc c i) = Memory.read t.ram (loc c i)) ∧
      (∀ c', c' ≠ c → t.cs[c']? = s.cs[c']? ∧
        ∀ i, i < 2 ^ 24 → Memory.read t.ram (loc c' i) = Memory.read s.ram (loc c' i))

/-- `PROCESS_SAMPLE` commands on different channels commute: the same state and the same two responses in either order
(R63). -/
def Obligations.SamplesOnTwoChannelsCommute : Prop :=
  ∀ (s : State) (c1 c2 : Nat) (x1 x2 : F32), Inv s → s.engine = .prepared → c1 < s.cr.nch → c2 < s.cr.nch → c1 ≠ c2 →
    inputInRange x1 = true → inputInRange x2 = true →
    ∃ t1 t12 t2 t21,
      exec (.processSample c1 x1) s = .next t1 ∧ exec (.processSample c2 x2) { t1 with rsp := none } = .next t12 ∧
      exec (.processSample c2 x2) s = .next t2 ∧ exec (.processSample c1 x1) { t2 with rsp := none } = .next t21 ∧
      t12.rsp = t2.rsp ∧ t21.rsp = t1.rsp ∧ { t12 with rsp := none } = { t21 with rsp := none }

/-- Every response lies in `[-1, 1]` (R157). -/
def Obligations.ResponsesBounded : Prop :=
  ∀ (s : State) (ch : Int) (x : F32), Inv s → s.engine = .prepared → 0 ≤ ch → ch < s.cr.nch → inputInRange x = true →
    ∃ t y, exec (.processSample ch x) s = .next t ∧ t.rsp = some y ∧ isFinite y = true ∧
      value fNegOne ≤ value y ∧ value y ≤ value fOne

/-- From a state in which every addressed word of channel `c` is a zero, a run of zero inputs of any length gives zeros and
leaves the RAM of the channel zeros, whatever the registers and ramps hold (R155). -/
def Obligations.SilenceStaysSilent : Prop :=
  ∀ (s : State) (c : Nat) (xs : List F32), Inv s → s.engine = .prepared → c < s.cr.nch →
    (∀ i, i < s.cr.cap → ∃ v, Memory.read s.ram (loc c i) = some v ∧ isZero v = true) →
    (∀ x ∈ xs, isZero x = true) →
    ∃ ys t, runSamples c xs s = some (ys, t) ∧ ys.length = xs.length ∧ (∀ y ∈ ys, isZero y = true) ∧
      (∀ i, i < s.cr.cap → ∃ v, Memory.read t.ram (loc c i) = some v ∧ isZero v = true)

/-- Zero depth (R153): with `CR.DEPTH` a zero and the length ramp's target the clamped center delay, a sample time never
restarts the length ramp, and a settled one stays exactly where it is. -/
def Obligations.ZeroDepthFixesLength : Prop :=
  ∀ (s : State) (c : Nat) (r : Channel) (x : F32), Inv s → s.engine = .prepared → c < s.cr.nch →
    s.cs[c]? = some r → inputInRange x = true → isZero s.cr.depth = true →
    value r.len.tgt = value (clamp s.cr.center fOne (i2f ((s.cr.cap : Int) - 1))) →
    ∃ t r', exec (.processSample c x) s = .next t ∧ t.cs[c]? = some r' ∧ t.cr = s.cr ∧
      r'.len = rampNext .lin r.len ∧ (r.len.rem = 0 → r'.len = r.len)

/-- Mix boundaries (R156): settled at mix 0 the response is the input, settled at mix 1 it is the delayed sample, limited;
both numerically. -/
def Obligations.MixBoundaries : Prop :=
  ∀ (s : State) (c : Nat) (r : Channel) (x d : F32), Inv s → s.engine = .prepared → c < s.cr.nch →
    s.cs[c]? = some r → inputInRange x = true → r.mix.rem = 0 →
    bufReadInterpolated s.cr.cap s.ram c r.rp = some d →
    (value r.mix.cur = 0 → ∃ t y, exec (.processSample c x) s = .next t ∧ t.rsp = some y ∧ value y = value x) ∧
    (value r.mix.cur = value fOne → ∃ t y, exec (.processSample c x) s = .next t ∧ t.rsp = some y ∧
      value y = value (clamp d fNegOne fOne))

/-- Fixed delay at a whole number `k` of samples, feedback 0 and mix 1 (R154): from a zero history, the response at sample time
`n` is the input of sample time `n - k`, and zero before. -/
def Obligations.IntegerDelayReplaysInput : Prop :=
  ∀ (s : State) (c k : Nat) (r : Channel) (xs : List F32), Inv s → s.engine = .prepared → c < s.cr.nch →
    s.cs[c]? = some r →
    (∀ i, i < s.cr.cap → Memory.read s.ram (loc c i) = some fZero) →
    1 ≤ k → k < s.cr.cap → value r.len.cur = value (i2f k) → r.len.rem = 0 →
    isZero s.cr.depth = true → value s.cr.center = value (i2f k) →
    r.rp = (let p := fsub (i2f r.w) r.len.cur
            if flt p fZero then fadd p (i2f s.cr.cap) else p) →
    r.fb.rem = 0 → isZero r.fb.cur = true → r.mix.rem = 0 → value r.mix.cur = value fOne →
    (∀ x ∈ xs, inputInRange x = true) →
    ∃ ys t, runSamples c xs s = some (ys, t) ∧ ys.length = xs.length ∧
      ∀ n, n < xs.length → ∃ y, ys[n]? = some y ∧
        (n < k → isZero y = true) ∧ (k ≤ n → ∃ x, xs[n - k]? = some x ∧ value y = value x)

/-- The first tap of a delayed read is never the word being written (R60). -/
def Obligations.FirstTapIsNotTheWriteIndex : Prop :=
  ∀ (s : State) (c : Nat) (r : Channel), Inv s → PositionsTrail s → s.engine = .prepared → c < s.cr.nch →
    s.cs[c]? = some r → f2i (ffloor r.rp) % (s.cr.cap : Int) ≠ (r.w : Int)

/-! ### Invariants -/

/-- The delay RAM keeps its canonical form (the model's own representation, log 3). -/
def Obligations.MemoryStaysCanonical : Prop :=
  ∀ s t : State, Memory.wf s.ram = true → step s = .next t → Memory.wf t.ram = true

/-- Every step keeps the invariant: an admissible configuration, finite registers in every engine state, the register ranges,
the ramp invariants, the legal values of every live channel and of every addressed word, in a `Faulted` engine too (R12, R23,
R34, R39). -/
def Obligations.InvariantKeptByEveryStep : Prop := ∀ s t : State, Inv s → step s = .next t → Inv t

/-- The state after reset meets the invariant, for every configuration the spec admits (R40), hence for the installed one (log
1). -/
def Obligations.ResetMeetsInvariant : Prop :=
  (∀ cfg : Config, cfg.Admissible → Inv (State.resetWith cfg)) ∧ Inv State.reset

/-- The read position of every live channel is always the write index minus the ramped delay length, wrapped (R32): kept by
every step, and true after reset. -/
def Obligations.ReadPositionTrailsWriteIndex : Prop :=
  (∀ s t : State, Inv s → PositionsTrail s → step s = .next t → PositionsTrail t) ∧ PositionsTrail State.reset

/-! ### Ramps (R91 to R96) -/

/-- Settling (R96 a): after a retarget that starts a ramp, the `N`-th `ramp_next` and every later one return the target
exactly. -/
def Obligations.RampSettlesAfterN : Prop :=
  ∀ (cfg : Config) (mode : RampMode) (r : Ramp) (v : F32) (k : Nat), 1 ≤ r.N → feq v r.tgt = false → r.N ≤ k →
    (rampAfter mode k (rampSetTarget cfg mode r v)).cur = v ∧ (rampAfter mode k (rampSetTarget cfg mode r v)).rem = 0

/-- Monotonicity of a linear ramp (R96 b): between retargets the returned values move one way and stay between the starting
value and the target.  The ramp is one whose distance does not overflow, which holds of every ramp of the block. -/
def Obligations.LinearRampIsMonotone : Prop :=
  ∀ (cfg : Config) (r : Ramp) (v : F32) (k : Nat), isFinite r.cur = true → isFinite v = true →
    isFinite (fsub v r.cur) = true → 1 ≤ r.N → r.N < 2 ^ 31 → feq v r.tgt = false →
    let a := (rampAfter .lin k (rampSetTarget cfg .lin r v)).cur
    let b := (rampAfter .lin (k + 1) (rampSetTarget cfg .lin r v)).cur
    (value r.cur ≤ value v → value r.cur ≤ value a ∧ value a ≤ value b ∧ value b ≤ value v) ∧
    (value v ≤ value r.cur → value v ≤ value b ∧ value b ≤ value a ∧ value a ≤ value r.cur)

/-- A multiplicative ramp from one positive number to another is monotone and strictly positive throughout (R96 b, d): it
never crosses zero or changes sign.  Where the quotient of the two underflows to `+0`, of which R8 gives no root, it holds for
every finite factor (log 10). -/
def Obligations.MultiplicativeRampStaysPositive : Prop :=
  ∀ (cfg : Config) (r : Ramp) (v : F32) (k : Nat), isFinite r.cur = true → isFinite v = true → 0 < value r.cur →
    0 < value v → 1 ≤ r.N → feq v r.tgt = false →
    let a := (rampAfter .mul k (rampSetTarget cfg .mul r v)).cur
    let b := (rampAfter .mul (k + 1) (rampSetTarget cfg .mul r v)).cur
    0 < value a ∧
    (value r.cur ≤ value v → value r.cur ≤ value a ∧ value a ≤ value b ∧ value b ≤ value v) ∧
    (value v ≤ value r.cur → value v ≤ value b ∧ value b ≤ value a ∧ value a ≤ value r.cur)

/-! ### Oscillator (R7, R103, R104) -/

/-- The phase wraps into `[0, 2π)` by at most 11 subtractions, each taken while the phase is at or above `TWO_PI` (R103, R104
b), for every legal rate and every sample rate the block can hold. -/
def Obligations.PhaseWrapsIntoRange : Prop :=
  ∀ (sr32 hz phase : F32), isFinite sr32 = true → value fOne ≤ value sr32 → between fZero hz fTen = true →
    between fZero phase twoPi = true → value phase < value twoPi →
    let ph := fadd phase (fdiv (fmul twoPi hz) sr32)
    ∃ k, k ≤ 11 ∧ nextPhase sr32 hz phase = subtractTurns k ph ∧
      (∀ j, j < k → value twoPi ≤ value (subtractTurns j ph)) ∧
      isFinite (nextPhase sr32 hz phase) = true ∧ 0 ≤ value (nextPhase sr32 hz phase) ∧
      value (nextPhase sr32 hz phase) < value twoPi

/-- `SIN` and `ROOT` have the named properties of R7 and R8 that hold in every configuration (log 2), and `ROOT` is finite at every
quotient (log 10).  That they hold also where R7 and R8 state nothing, of `SIN` off the range `0 <= p < TWO_PI` and of `ROOT` at
`n = 0`, is the model's choice (log 2).  `SIN_ERR` is a constraint on the configuration: see LfoFollowsTheSine. -/
def Obligations.SinAndRootProperties : Prop :=
  ∀ cfg : Config,
    SIN cfg fZero = fZero ∧
    (∀ p, isNaN (SIN cfg p) = false ∧ value fNegOne ≤ value (SIN cfg p) ∧ value (SIN cfg p) ≤ value fOne) ∧
    (∀ n q, isFinite (ROOT cfg q n) = true) ∧
    (∀ n q, isNaN q = false → value q = value fOne → ROOT cfg q n = fOne) ∧
    (∀ n q, isNaN q = false → 0 < value q →
      isFinite (ROOT cfg q n) = true ∧ 0 < value (ROOT cfg q n) ∧
      (value fOne < value q → value fOne ≤ value (ROOT cfg q n) ∧ value (ROOT cfg q n) ≤ value q) ∧
      (value q < value fOne → value q ≤ value (ROOT cfg q n) ∧ value (ROOT cfg q n) ≤ value fOne))

/-! ### The number primitives (R2 to R5) -/

/-- Each arithmetic primitive is the exact result rounded once, to nearest, ties to even (R2).  A result past the largest
finite number is an infinity, which R2 does not name (log 4). -/
def Obligations.ArithmeticCorrectlyRounded : Prop :=
  ∀ a b : F32, isFinite a = true → isFinite b = true →
    CorrectlyRounded (fadd a b) (value a + value b) 1 ∧
    CorrectlyRounded (fsub a b) (value a - value b) 1 ∧
    CorrectlyRounded (fmul a b) (value a * value b) (2 ^ 149) ∧
    (value b ≠ 0 →
      CorrectlyRounded (fdiv a b) (value a * ((2 ^ 149 : Nat) : Int) * (if value b < 0 then -1 else 1)) (value b).natAbs)

/-- Comparisons compare values, an infinity above or below every finite number and the two zeros equal; `fmin`, `fmax` and
`clamp` answer one of their arguments, unrounded (R3). -/
def Obligations.ComparisonsAndClamp : Prop :=
  (∀ a b : F32, isNaN a = false → isNaN b = false →
    (flt a b = true ↔ value a < value b) ∧ (fle a b = true ↔ value a ≤ value b) ∧ (feq a b = true ↔ value a = value b) ∧
    fmin a b = (if value a < value b then a else b) ∧ fmax a b = (if value b < value a then a else b)) ∧
  feq fZero fNegZero = true ∧
  (∀ a : F32, isFinite a = true → value a < value 0x7F800000#32 ∧ value 0xFF800000#32 < value a) ∧
  (∀ v lo hi : F32, isNaN v = false → isNaN lo = false → isNaN hi = false → value lo ≤ value hi →
    (clamp v lo hi = v ∨ clamp v lo hi = lo ∨ clamp v lo hi = hi) ∧
    value lo ≤ value (clamp v lo hi) ∧ value (clamp v lo hi) ≤ value hi ∧
    (value lo < value v → value v < value hi → clamp v lo hi = v)) ∧
  (∀ hi : F32, isNaN hi = false → 0 < value hi → clamp fNegZero fZero hi = fZero)

/-- `ffloor` is the largest integral binary32 not above its operand, `f2i` of it is that integer, `i2f` rounds to nearest and
is exact up to `2^24` in magnitude (R4).  Past the largest finite number `i2f` gives an infinity, which R4 does not say: it is
presumed as IEEE 754 has it (log 4).  Values are in units of `2^-149`. -/
def Obligations.FloorAndIntegerConversions : Prop :=
  (∀ a : F32, isFinite a = true →
    isFinite (ffloor a) = true ∧ value (ffloor a) = f2i (ffloor a) * ((2 ^ 149 : Nat) : Int) ∧
    value (ffloor a) ≤ value a ∧ value a < value (ffloor a) + ((2 ^ 149 : Nat) : Int)) ∧
  (∀ k : Int, |k| ≤ 2 ^ 24 → isFinite (i2f k) = true ∧ value (i2f k) = k * ((2 ^ 149 : Nat) : Int)) ∧
  (∀ k : Int, CorrectlyRounded (i2f k) (k * ((2 ^ 149 : Nat) : Int)) 1)

/-- `dceil` is the smallest integer not less than the finite binary64, `d2f` the nearest binary32 (R5).  Past the largest finite
number `d2f` gives an infinity, which R5 does not say: it is presumed as IEEE 754 has it (log 4).  Binary64 values are
in units of `2^-1074`. -/
def Obligations.Binary64Conversions : Prop :=
  ∀ s : F64, isFinite64 s = true →
    value64 s ≤ dceil s * ((2 ^ 1074 : Nat) : Int) ∧ (dceil s - 1) * ((2 ^ 1074 : Nat) : Int) < value64 s ∧
    CorrectlyRounded (d2f s) (value64 s) (2 ^ 925)

/-! ### The delay buffer (R52, R110 to R115) -/

/-- Read after write (R115 a, R52): after a write at index `k` every index that is equal modulo the capacity reads the word
written, every other index and every other channel reads as before. -/
def Obligations.BufferReadAfterWrite : Prop :=
  ∀ (cap c c' : Nat) (m : Memory) (k k' : Int) (v : F32), 1 ≤ cap → cap ≤ 2 ^ 24 →
    bufRead cap (bufWrite cap m c k v) c' k' =
      if c' = c ∧ k' % (cap : Int) = k % (cap : Int) then some v else bufRead cap m c' k'

/-- The interpolated read of two words of magnitude at most `M`, itself at most 21, is at most `M·(1 + 2^-21)` in magnitude, plus
one unit of `2^-149` for underflow; of two zeros it is a zero (R115 b, c). -/
def Obligations.InterpolationBounded : Prop :=
  ∀ (frac a b : F32) (M : Int), isFinite frac = true → 0 ≤ value frac → value frac < value fOne →
    isFinite a = true → isFinite b = true → |value a| ≤ M → |value b| ≤ M → M ≤ 21 * ((2 ^ 149 : Nat) : Int) →
    isFinite (interpolate frac a b) = true ∧
    2 ^ 21 * |value (interpolate frac a b)| ≤ (2 ^ 21 + 1) * M + 2 ^ 21 ∧
    (isZero a = true → isZero b = true → isZero (interpolate frac a b) = true)

/-! ### The ramp's own step (R93, R96 c) -/

/-- `ramp_next(r)` (R93): a settled ramp is unchanged; the last step lands on the target; every other step adds or multiplies
and is guarded towards the target, the sense of the guard being that of the step; nothing but `cur` and `rem` changes. -/
def Obligations.RampNextResult : Prop :=
  ∀ r : Ramp,
    (∀ mode, r.rem = 0 → rampNext mode r = r) ∧
    (∀ mode, r.rem = 1 → rampNext mode r = { r with rem := 0, cur := r.tgt }) ∧
    (2 ≤ r.rem →
      rampNext .lin r = { r with
        rem := r.rem - 1
        cur := if fle fZero r.step then fmin (fadd r.cur r.step) r.tgt else fmax (fadd r.cur r.step) r.tgt } ∧
      rampNext .mul r = { r with
        rem := r.rem - 1
        cur := if fle fOne r.step then fmin (fmul r.cur r.step) r.tgt else fmax (fmul r.cur r.step) r.tgt })

/-- Bounded step of a linear ramp (R96 c): before its last step a ramp whose step points to its target moves by at most `|step|`
plus half a unit in the last place of the value it moves to; and where start and target lie in `[0, hi]`, `|step|` is at most
`fdiv(hi, i2f(N))` (for the mix ramp `hi = 1`, for the feedback ramp `hi = 0.95`).  R96's own words name the unit of `cur` and
the real quotients `1/N` and `0.95/N`; the quotient here is the rounded one. -/
def Obligations.LinearRampStepBounded : Prop :=
  (∀ r : Ramp, isFinite r.cur = true → isFinite r.tgt = true → isFinite r.step = true →
    isFinite (fadd r.cur r.step) = true → 2 ≤ r.rem →
    (value r.cur ≤ value r.tgt ∧ 0 ≤ value r.step ∨ value r.tgt ≤ value r.cur ∧ value r.step < 0) →
    2 * |value (rampNext .lin r).cur - value r.cur| ≤ 2 * |value r.step| + ulp (rampNext .lin r).cur) ∧
  (∀ (cfg : Config) (r : Ramp) (v hi : F32), between fZero r.cur hi = true → between fZero v hi = true →
    isFinite hi = true → 1 ≤ r.N → r.N < 2 ^ 31 → feq v r.tgt = false →
    |value (rampSetTarget cfg .lin r v).step| ≤ value (fdiv hi (i2f r.N)))

/-! ### What holds of the whole block (R7, R12, R38) -/

/-- In a state of the invariant a command that passes its checks applies no primitive to a NaN, an infinity or a zero divisor
(R12).  What is only compared may be infinite (R3): the guarded product of a rate ramp, which `fmin` or `fmax` then drops (log
10). -/
def Obligations.PrimitivesGetDefinedOperands : Prop :=
  ∀ (s : State) (i : Instr), Inv s → s.engine ≠ .faulted → commandViolation s i = none → CommandOperands s i

/-- `SIN_ERR` (R7) on the phases the block applies `SIN` to: in a state of the invariant the LFO value of every live channel lies
in `[-1, 1]` and within the configuration's `EPS_SIN` of the real sine of the phase. -/
def Obligations.LfoFollowsTheSine : Prop :=
  ∀ (s : State) (c : Nat) (r : Channel), Inv s → c < s.cr.nch → s.cs[c]? = some r →
    isFinite (oscOutput s.cfg r) = true ∧
    value fNegOne ≤ value (oscOutput s.cfg r) ∧ value (oscOutput s.cfg r) ≤ value fOne ∧
    |(value (oscOutput s.cfg r) : ℝ) / 2 ^ 149 - Real.sin ((value r.phase : ℝ) / 2 ^ 149)| ≤ (s.cfg.epsSin : ℝ)

/-- No step changes the configuration (R38).  That it stands in State is the model's choice (log 1). -/
def Obligations.ConfigurationNeverChanges : Prop := ∀ s t : State, step s = .next t → t.cfg = s.cfg

end
end

