-- ==== Sys2Proof/Laws/Check.lean ====
section
/-! SUPPORT. Laws/Check: the invariant of a concrete state, decided by evaluation. -/

namespace Sys2Proof.Laws

open Sys2Proof.Machine

/-- `RampOk` as a check. -/
def rampCheck (lo hi : F32) (r : Ramp) : Bool :=
  between lo r.cur hi && between lo r.tgt hi && decide (r.rem ≤ r.N) && decide (r.N < 2 ^ 31) &&
    (if r.rem = 0 then decide (r.cur = r.tgt) else isFinite r.step)

theorem rampOk_of_check {lo hi : F32} {r : Ramp} (h : rampCheck lo hi r = true) : RampOk lo hi r := by
  simp only [rampCheck, Bool.and_eq_true, decide_eq_true_eq] at h
  obtain ⟨⟨⟨⟨h1, h2⟩, h3⟩, h4⟩, h5⟩ := h
  refine ⟨h1, h2, h3, h4, fun h0 => ?_, fun h0 => ?_⟩
  · rw [if_pos h0] at h5; exact of_decide_eq_true h5
  · rw [if_neg (by omega)] at h5; exact h5

/-- `ChannelOk` as a check. -/
def channelCheck (cfg : Config) (cr : Regs) (r : Channel) : Bool :=
  decide (r.w < cr.cap) && between fZero r.rp (i2f cr.cap) && between fZero r.phase twoPi &&
    decide (value r.phase < value twoPi) && between cfg.rateMinHz r.hz fTen &&
    rampCheck fZero fbMax r.fb && rampCheck fZero fOne r.mix && rampCheck cfg.rateMinHz fTen r.rate &&
    rampCheck fOne (i2f ((cr.cap : Int) - 1)) r.len &&
    decide (value r.fb.tgt = value cr.fbT) && decide (value r.mix.tgt = value cr.mixT) &&
    decide (value r.rate.tgt = value cr.rateT)

theorem channelOk_of_check {cfg : Config} {cr : Regs} {r : Channel} (h : channelCheck cfg cr r = true) :
    ChannelOk cfg cr r := by
  simp only [channelCheck, Bool.and_eq_true, decide_eq_true_eq] at h
  obtain ⟨⟨⟨⟨⟨⟨⟨⟨⟨⟨⟨h1, h2⟩, h3⟩, h4⟩, h5⟩, h6⟩, h7⟩, h8⟩, h9⟩, h10⟩, h11⟩, h12⟩ := h
  exact ⟨h1, h2, h3, h4, h5, rampOk_of_check h6, rampOk_of_check h7, rampOk_of_check h8, rampOk_of_check h9, h10, h11,
    h12⟩

/-- `ControlOk` as a check. -/
def controlCheck (cfg : Config) (cr : Regs) : Bool :=
  between fZero cr.delayMs fThousand && between fZero cr.depthMs fTen && between fZero cr.mixT fOne &&
    between fZero cr.fbT fbMax && between cfg.rateMinHz cr.rateT fTen &&
    (isFinite cr.sr32 && decide (0 ≤ value cr.sr32)) && (isFinite cr.center && decide (0 ≤ value cr.center)) &&
    (isFinite cr.depth && decide (0 ≤ value cr.depth))

theorem controlOk_of_check {cfg : Config} {cr : Regs} (h : controlCheck cfg cr = true) : ControlOk cfg cr := by
  simp only [controlCheck, Bool.and_eq_true, decide_eq_true_eq] at h
  obtain ⟨⟨⟨⟨⟨⟨⟨h1, h2⟩, h3⟩, h4⟩, h5⟩, h6⟩, h7⟩, h8⟩ := h
  exact ⟨h1, h2, h3, h4, h5, h6, h7, h8⟩

/-- The records of the live channels, as a check. -/
def recordsCheck (s : State) : Bool :=
  (List.range s.cr.nch).all fun c => (s.cs[c]?).elim false (channelCheck s.cfg s.cr)

theorem records_of_check {s : State} (h : recordsCheck s = true) :
    ∀ c, c < s.cr.nch → ∃ r, s.cs[c]? = some r ∧ ChannelOk s.cfg s.cr r := by
  intro c hc
  have h1 := List.all_eq_true.1 h c (List.mem_range.2 hc)
  cases hr : s.cs[c]? with
  | none => rw [hr] at h1; simp at h1
  | some r => rw [hr] at h1; exact ⟨r, rfl, channelOk_of_check h1⟩

/-- `RampFinite` as a check. -/
def rampFiniteCheck (r : Ramp) : Bool :=
  isFinite r.cur && isFinite r.tgt && (decide (r.rem = 0) || isFinite r.step)

theorem rampFinite_of_check {r : Ramp} (h : rampFiniteCheck r = true) : RampFinite r := by
  simp only [rampFiniteCheck, Bool.and_eq_true, Bool.or_eq_true, decide_eq_true_eq] at h
  exact ⟨h.1.1, h.1.2, fun h0 => h.2.resolve_left (by omega)⟩

/-- `RecordFinite` as a check. -/
def recordFiniteCheck (r : Channel) : Bool :=
  isFinite r.rp && isFinite r.phase && isFinite r.hz && rampFiniteCheck r.fb && rampFiniteCheck r.mix &&
    rampFiniteCheck r.rate && rampFiniteCheck r.len

theorem recordFinite_of_check {r : Channel} (h : recordFiniteCheck r = true) : RecordFinite r := by
  simp only [recordFiniteCheck, Bool.and_eq_true] at h
  obtain ⟨⟨⟨⟨⟨⟨h1, h2⟩, h3⟩, h4⟩, h5⟩, h6⟩, h7⟩ := h
  exact ⟨h1, h2, h3, rampFinite_of_check h4, rampFinite_of_check h5, rampFinite_of_check h6, rampFinite_of_check h7⟩

/-- The addressed words, as a check. -/
def wordsCheck (s : State) : Bool :=
  (List.range s.cr.nch).all fun c => (List.range s.cr.cap).all fun i =>
    (Memory.read s.ram (loc c i)).elim false wordOk

theorem words_of_check {s : State} (h : wordsCheck s = true) :
    ∀ c i, c < s.cr.nch → i < s.cr.cap → ∃ v, Memory.read s.ram (loc c i) = some v ∧ wordOk v = true := by
  intro c i hc hi
  have h1 := List.all_eq_true.1 (List.all_eq_true.1 h c (List.mem_range.2 hc)) i (List.mem_range.2 hi)
  cases hr : Memory.read s.ram (loc c i) with
  | none => rw [hr] at h1; simp at h1
  | some v => rw [hr] at h1; exact ⟨v, rfl, h1⟩

/-- Everything `PREPARE` establishes, as a check. -/
def preparedCheck (s : State) : Bool :=
  decide (2 ≤ s.cr.cap) && decide (s.cr.cap ≤ s.cfg.capMax) && decide (1 ≤ s.cr.nch) && decide (s.cr.nch ≤ s.cfg.chMax) &&
    between fOne s.cr.sr32 (i2f s.cr.cap) && between fZero s.cr.center (i2f s.cr.cap) && recordsCheck s && wordsCheck s

theorem preparedOk_of_check {s : State} (h : preparedCheck s = true) : PreparedOk s := by
  simp only [preparedCheck, Bool.and_eq_true, decide_eq_true_eq] at h
  obtain ⟨⟨⟨⟨⟨⟨⟨h1, h2⟩, h3⟩, h4⟩, h5⟩, h6⟩, h7⟩, h8⟩ := h
  exact ⟨⟨h1, h2⟩, ⟨h3, h4⟩, h5, h6, records_of_check h7, words_of_check h8⟩

/-- Enough for everything `Inv` asks of a state but `SIN_ERR`, which speaks of the real sine, as a check. -/
def invCheck (s : State) : Bool :=
  s.cfg.legal && decide (s.cs.length = s.cfg.chMax) && Memory.wf s.ram &&
    decide (s.faultCause = 0#8 ↔ s.engine ≠ .faulted) && controlCheck s.cfg s.cr &&
    s.cs.all recordFiniteCheck && (decide (s.engine ≠ .prepared) || decide (0 < s.cr.nch)) &&
    (decide (s.cr.nch = 0) || preparedCheck s)

theorem inv_of_check {s : State} (hs : s.cfg.SinErr) (h : invCheck s = true) : Inv s := by
  simp only [invCheck, Bool.and_eq_true, Bool.or_eq_true, decide_eq_true_eq] at h
  obtain ⟨⟨⟨⟨⟨⟨⟨h1, h2⟩, h3⟩, h4⟩, h5⟩, h8⟩, h6⟩, h7⟩ := h
  refine ⟨⟨h1, hs⟩, h2, h3, h4, controlOk_of_check h5, fun c r hr => ?_, fun he => h6.resolve_left (not_not_intro he),
    fun hn => preparedOk_of_check (h7.resolve_left (by omega))⟩
  exact Or.inr (recordFinite_of_check (List.all_eq_true.1 h8 r (List.mem_of_getElem? hr)))

end Sys2Proof.Laws
end

