-- ==== Sys2Proof/Laws/Rounding.lean ====
section
/-! SUPPORT. Laws/Rounding: what a pattern's magnitude is, and that `packMagnitude` rounds to nearest, ties to even, keeps
order and keeps representable magnitudes (spec/00_scope.md R1, R2). -/

namespace Sys2Proof.Laws

open Sys2Proof.Machine

/-! ### Patterns and magnitudes -/

/-- Bits 30:0 of a pattern, as a number: finite patterns are ordered by it as their magnitudes are. -/
def low31 (a : F32) : Nat := a.toNat % 2 ^ 31

/-- The magnitude that bits 30:0 stand for. -/
def magOf (m : Nat) : Nat := if m / 2 ^ 23 = 0 then m else (2 ^ 23 + m % 2 ^ 23) * 2 ^ (m / 2 ^ 23 - 1)

theorem low31_lt (a : F32) : low31 a < 2 ^ 31 := Nat.mod_lt _ (by norm_num)

theorem toNat_eq (a : F32) : a.toNat = (if signBit a then 2 ^ 31 else 0) + low31 a := by
  have h := a.isLt
  simp only [signBit, low31, BitVec.msb_eq_decide, decide_eq_true_eq]
  split <;> omega

theorem expField_eq (a : F32) : expField a = low31 a / 2 ^ 23 := by
  have h := a.isLt
  simp only [expField, low31]; omega

theorem fracField_eq (a : F32) : fracField a = low31 a % 2 ^ 23 := by
  simp only [fracField, low31]; omega

theorem magnitude_eq (a : F32) : magnitude a = magOf (low31 a) := by
  simp only [magnitude, magOf, expField_eq, fracField_eq]
  split
  · omega
  · rfl

theorem isFinite_iff (a : F32) : isFinite a = true ↔ low31 a < 0x7F800000 := by
  have h := low31_lt a
  simp only [isFinite, expField_eq, decide_eq_true_eq, ne_eq]
  omega

theorem isNaN_iff (a : F32) : isNaN a = true ↔ 0x7F800000 < low31 a := by
  have h := low31_lt a
  simp only [isNaN, expField_eq, fracField_eq, Bool.and_eq_true, decide_eq_true_eq, ne_eq]
  omega

theorem not_isNaN_of_isFinite {a : F32} (h : isFinite a = true) : isNaN a = false := by
  by_contra hn
  have h1 := (isNaN_iff a).1 (by simpa using hn)
  have h2 := (isFinite_iff a).1 h
  omega

theorem magOf_small {m : Nat} (h : m ≤ 2 ^ 24) : magOf m = m := by
  unfold magOf
  rcases Nat.lt_or_ge m (2 ^ 23) with h1 | h1
  · rw [if_pos (by omega)]
  · rcases Nat.lt_or_ge m (2 ^ 24) with h2 | h2
    · have : m / 2 ^ 23 = 1 := by omega
      simp only [this]; norm_num; omega
    · have : m = 2 ^ 24 := by omega
      subst this; norm_num

/-- The fields `e * 2^23 + t` stand for `t * 2^e`, a carry of `t` to `2^24` included. -/
theorem magOf_fields {e t : Nat} (h : 2 ^ 23 ≤ t) (h' : t ≤ 2 ^ 24) : magOf (e * 2 ^ 23 + t) = t * 2 ^ e := by
  rcases Nat.lt_or_ge t (2 ^ 24) with h2 | h2
  · have h3 : (e * 2 ^ 23 + t) / 2 ^ 23 = e + 1 := by omega
    have h4 : 2 ^ 23 + (e * 2 ^ 23 + t) % 2 ^ 23 = t := by omega
    rw [magOf, if_neg (by omega), h3, h4, Nat.add_sub_cancel]
  · have ht : t = 2 ^ 24 := by omega
    subst ht
    have h3 : (e * 2 ^ 23 + 2 ^ 24) / 2 ^ 23 = e + 2 := by omega
    have h4 : (e * 2 ^ 23 + 2 ^ 24) % 2 ^ 23 = 0 := by omega
    rw [magOf, if_neg (by omega), h3, h4]
    simp only [Nat.add_zero, Nat.add_succ_sub_one, pow_succ]; ring

/-- Every pattern is of the form `magOf_fields` speaks of, or small. -/
theorem exists_fields {m : Nat} (h : 2 ^ 23 ≤ m) :
    ∃ e t, m = e * 2 ^ 23 + t ∧ 2 ^ 23 ≤ t ∧ t < 2 ^ 24 := by
  refine ⟨m / 2 ^ 23 - 1, 2 ^ 23 + m % 2 ^ 23, ?_, ?_, ?_⟩ <;> omega

theorem magOf_lt_succ (m : Nat) : magOf m < magOf (m + 1) := by
  rcases Nat.lt_or_ge m (2 ^ 23) with h | h
  · rw [magOf_small (by omega), magOf_small (by omega)]; omega
  · obtain ⟨e, t, rfl, h1, h2⟩ := exists_fields h
    rw [magOf_fields h1 (by omega), Nat.add_assoc, magOf_fields (by omega) (by omega)]
    exact Nat.mul_lt_mul_of_pos_right (by omega) (Nat.two_pow_pos e)

theorem magOf_strictMono : StrictMono magOf := strictMono_nat_of_lt_succ magOf_lt_succ

theorem magOf_le_iff {m n : Nat} : magOf m ≤ magOf n ↔ m ≤ n := magOf_strictMono.le_iff_le

theorem magOf_lt_iff {m n : Nat} : magOf m < magOf n ↔ m < n := magOf_strictMono.lt_iff_lt

theorem magOf_inj {m n : Nat} : magOf m = magOf n ↔ m = n := magOf_strictMono.injective.eq_iff

/-! ### Rounding a quotient -/

theorem roundQuotient_spec (n : Nat) {d : Nat} (hd : 0 < d) :
    2 * (roundQuotient n d * d) ≤ 2 * n + d ∧ 2 * n ≤ 2 * (roundQuotient n d * d) + d := by
  have h := Nat.div_add_mod n d
  have hr := Nat.mod_lt n hd
  have hc : n / d * d = d * (n / d) := Nat.mul_comm _ _
  simp only [roundQuotient]
  split
  · rename_i hcond
    rw [Nat.add_mul]
    have : d ≤ 2 * (n % d) := by omega
    omega
  · rename_i hcond
    have : 2 * (n % d) ≤ d := by omega
    omega

/-- A tie is rounded to the even neighbour. -/
theorem roundQuotient_tie {n d : Nat} (hd : 0 < d)
    (h : 2 * (roundQuotient n d * d) = 2 * n + d ∨ 2 * n = 2 * (roundQuotient n d * d) + d) :
    roundQuotient n d % 2 = 0 := by
  have h0 := Nat.div_add_mod n d
  have hr := Nat.mod_lt n hd
  have hc : n / d * d = d * (n / d) := Nat.mul_comm _ _
  revert h
  simp only [roundQuotient]
  split
  · rename_i hcond
    rw [Nat.add_mul]
    intro h; omega
  · rename_i hcond
    intro h; omega

theorem roundQuotient_exact (q : Nat) {d : Nat} (hd : 0 < d) : roundQuotient (q * d) d = q := by
  have h1 : q * d / d = q := Nat.mul_div_cancel _ hd
  have h2 : q * d % d = 0 := Nat.mul_mod_left _ _
  simp only [roundQuotient, h1, h2]
  rw [if_neg (by omega)]

/-- Rounding is nearest among the multiples of `d`. -/
theorem roundQuotient_mono {n n' d d' : Nat} (hd : 0 < d) (hd' : 0 < d') (h : n * d' ≤ n' * d) :
    roundQuotient n d ≤ roundQuotient n' d' := by
  by_contra hlt
  have hlt : roundQuotient n' d' + 1 ≤ roundQuotient n d := by omega
  obtain ⟨a1, -⟩ := roundQuotient_spec n hd
  obtain ⟨-, b2⟩ := roundQuotient_spec n' hd'
  set x := roundQuotient n d
  set y := roundQuotient n' d'
  -- 2 x d ≤ 2 n + d ; 2 n' ≤ 2 y d' + d'
  have e1 : 2 * (x * d) * d' ≤ (2 * n + d) * d' := Nat.mul_le_mul_right _ a1
  have e2 : 2 * n' * d ≤ (2 * (y * d') + d') * d := Nat.mul_le_mul_right _ b2
  have e3 : (y + 1) * (d * d') ≤ x * (d * d') := Nat.mul_le_mul_right _ hlt
  have hpos : 0 < d * d' := Nat.mul_pos hd hd'
  have e4 : x * (d * d') = (y + 1) * (d * d') := by nlinarith
  have e5 : x = y + 1 := Nat.eq_of_mul_eq_mul_right hpos e4
  have e6 : 2 * (x * d) = 2 * n + d := by
    have : 2 * (x * d) * d' = (2 * n + d) * d' := by nlinarith
    exact Nat.eq_of_mul_eq_mul_right hd' this
  have e7 : 2 * n' = 2 * (y * d') + d' := by
    have : 2 * n' * d = (2 * (y * d') + d') * d := by nlinarith
    exact Nat.eq_of_mul_eq_mul_right hd this
  have t1 := roundQuotient_tie hd (Or.inl e6)
  have t2 := roundQuotient_tie hd' (Or.inr e7)
  change x % 2 = 0 at t1
  change y % 2 = 0 at t2
  omega


/-! ### `packMagnitude` -/

/-- `packMagnitude` before it saturates at infinity. -/
def packRaw (n d : Nat) : Nat :=
  droppedBits (n / d) * 2 ^ 23 + roundQuotient n (d * 2 ^ droppedBits (n / d))

theorem packMagnitude_eq (n d : Nat) : packMagnitude n d = min (packRaw n d) 0x7F800000 := rfl

theorem droppedBits_small {q : Nat} (h : q < 2 ^ 24) : droppedBits q = 0 := by
  rcases Nat.eq_zero_or_pos q with rfl | h0
  · rfl
  · have := (Nat.log2_lt (by omega : q ≠ 0)).2 h
    unfold droppedBits; omega

theorem droppedBits_eq {q e : Nat} (h : 2 ^ (23 + e) ≤ q) (h' : q < 2 ^ (24 + e)) : droppedBits q = e := by
  have hq : q ≠ 0 := by have := Nat.two_pow_pos (23 + e); omega
  have h1 := (Nat.log2_lt hq).2 h'
  have h2 := (Nat.le_log2 hq).2 h
  unfold droppedBits; omega

theorem droppedBits_bounds (q : Nat) :
    (q < 2 ^ 24 ∧ droppedBits q = 0) ∨
      (2 ^ (23 + droppedBits q) ≤ q ∧ q < 2 ^ (24 + droppedBits q)) := by
  rcases Nat.lt_or_ge q (2 ^ 24) with h | h
  · exact Or.inl ⟨h, droppedBits_small h⟩
  · right
    have hq : q ≠ 0 := by omega
    have h1 : 24 ≤ Nat.log2 q := (Nat.le_log2 hq).2 h
    have e1 : 23 + droppedBits q = Nat.log2 q := by unfold droppedBits; omega
    have e2 : 24 + droppedBits q = Nat.log2 q + 1 := by unfold droppedBits; omega
    rw [e1, e2]
    exact ⟨Nat.log2_self_le hq, Nat.lt_log2_self⟩

theorem droppedBits_mono {q q' : Nat} (h : q ≤ q') : droppedBits q ≤ droppedBits q' := by
  rcases droppedBits_bounds q with ⟨_, h1⟩ | ⟨h1, _⟩
  · omega
  · rcases droppedBits_bounds q' with ⟨h2, h3⟩ | ⟨_, h2⟩
    · by_contra hlt
      have : 2 ^ 24 ≤ 2 ^ (23 + droppedBits q) := Nat.pow_le_pow_right (by norm_num) (by omega)
      omega
    · have : 2 ^ (23 + droppedBits q) < 2 ^ (24 + droppedBits q') := by omega
      have := (Nat.pow_lt_pow_iff_right (by norm_num : 1 < 2)).1 this
      omega

/-- The rounded significand: at most `2^24`, and at least `2^23` where bits were dropped. -/
theorem significand_bounds (n : Nat) {d : Nat} (hd : 0 < d) :
    roundQuotient n (d * 2 ^ droppedBits (n / d)) ≤ 2 ^ 24 ∧
      (droppedBits (n / d) = 0 ∨ 2 ^ 23 ≤ roundQuotient n (d * 2 ^ droppedBits (n / d))) := by
  have hD : 0 < d * 2 ^ droppedBits (n / d) := Nat.mul_pos hd (Nat.two_pow_pos _)
  have hn := Nat.div_add_mod n d
  have hr := Nat.mod_lt n hd
  set e := droppedBits (n / d) with he
  have up : n / d < 2 ^ 24 * 2 ^ e := by
    rcases droppedBits_bounds (n / d) with ⟨h1, h2⟩ | ⟨_, h2⟩
    · have : e = 0 := by omega
      rw [this]; omega
    · rw [← pow_add]; exact h2
  constructor
  · have h1 : n ≤ 2 ^ 24 * (d * 2 ^ e) := by
      have : n < d * (n / d + 1) := by rw [Nat.mul_add]; omega
      have h3 : d * (n / d + 1) ≤ d * (2 ^ 24 * 2 ^ e) := Nat.mul_le_mul_left _ up
      calc n ≤ d * (2 ^ 24 * 2 ^ e) := by omega
        _ = 2 ^ 24 * (d * 2 ^ e) := by ring
    have h2 := roundQuotient_mono (n := n) (n' := 2 ^ 24 * (d * 2 ^ e)) hD hD (Nat.mul_le_mul_right _ h1)
    rwa [roundQuotient_exact _ hD] at h2
  · rcases droppedBits_bounds (n / d) with ⟨_, h2⟩ | ⟨h2, _⟩
    · exact Or.inl h2
    · right
      have h1 : 2 ^ 23 * (d * 2 ^ e) ≤ n := by
        calc 2 ^ 23 * (d * 2 ^ e) = d * 2 ^ (23 + e) := by rw [pow_add]; ring
          _ ≤ d * (n / d) := Nat.mul_le_mul_left _ h2
          _ ≤ n := by omega
      have h3 := roundQuotient_mono (n := 2 ^ 23 * (d * 2 ^ e)) (n' := n) hD hD (Nat.mul_le_mul_right _ h1)
      rwa [roundQuotient_exact _ hD] at h3

theorem magOf_packRaw (n : Nat) {d : Nat} (hd : 0 < d) :
    magOf (packRaw n d) =
      roundQuotient n (d * 2 ^ droppedBits (n / d)) * 2 ^ droppedBits (n / d) := by
  obtain ⟨h1, h2⟩ := significand_bounds n hd
  unfold packRaw
  rcases h2 with h2 | h2
  · rw [h2] at h1 ⊢
    simpa using magOf_small h1
  · exact magOf_fields h2 h1

/-- Rounding keeps the order of the exact results. -/
theorem packRaw_mono {n n' d d' : Nat} (hd : 0 < d) (hd' : 0 < d') (h : n * d' ≤ n' * d) :
    packRaw n d ≤ packRaw n' d' := by
  have hq : n / d ≤ n' / d' := by
    rw [Nat.le_div_iff_mul_le hd']
    have h1 : n / d * d ≤ n := Nat.div_mul_le_self n d
    have : n / d * d' * d ≤ n' * d := by
      calc n / d * d' * d = n / d * d * d' := by ring
        _ ≤ n * d' := Nat.mul_le_mul_right _ h1
        _ ≤ n' * d := h
    exact Nat.le_of_mul_le_mul_right this hd
  have he := droppedBits_mono hq
  obtain ⟨a1, -⟩ := significand_bounds n hd
  obtain ⟨-, b2⟩ := significand_bounds n' hd'
  unfold packRaw
  rcases Nat.lt_or_ge (droppedBits (n / d)) (droppedBits (n' / d')) with hlt | hge
  · have : 2 ^ 23 ≤ roundQuotient n' (d' * 2 ^ droppedBits (n' / d')) := by omega
    have : (droppedBits (n / d) + 1) * 2 ^ 23 ≤ droppedBits (n' / d') * 2 ^ 23 := Nat.mul_le_mul_right _ hlt
    omega
  · have heq : droppedBits (n / d) = droppedBits (n' / d') := by omega
    rw [← heq]
    have hp := Nat.two_pow_pos (droppedBits (n / d))
    have := roundQuotient_mono (n := n) (n' := n') (Nat.mul_pos hd hp) (Nat.mul_pos hd' hp) (by
      calc n * (d' * 2 ^ droppedBits (n / d)) = n * d' * 2 ^ droppedBits (n / d) := by ring
        _ ≤ n' * d * 2 ^ droppedBits (n / d) := Nat.mul_le_mul_right _ h
        _ = n' * (d * 2 ^ droppedBits (n / d)) := by ring)
    omega

theorem packMagnitude_mono {n n' d d' : Nat} (hd : 0 < d) (hd' : 0 < d') (h : n * d' ≤ n' * d) :
    packMagnitude n d ≤ packMagnitude n' d' := by
  have := packRaw_mono hd hd' h
  simp only [packMagnitude_eq]; omega

/-- A representable magnitude is rounded to itself. -/
theorem packRaw_exact (m : Nat) {d : Nat} (hd : 0 < d) : packRaw (magOf m * d) d = m := by
  have hq : magOf m * d / d = magOf m := Nat.mul_div_cancel _ hd
  unfold packRaw
  rw [hq]
  rcases Nat.lt_or_ge m (2 ^ 23) with h | h
  · rw [magOf_small (by omega), droppedBits_small (by omega)]
    simp only [pow_zero, Nat.mul_one, Nat.zero_mul, Nat.zero_add]
    exact roundQuotient_exact m hd
  · obtain ⟨e, t, rfl, h1, h2⟩ := exists_fields h
    rw [magOf_fields h1 (by omega)]
    have hp := Nat.two_pow_pos e
    have hb : droppedBits (t * 2 ^ e) = e := droppedBits_eq
      (by rw [pow_add]; exact Nat.mul_le_mul_right _ h1)
      (by rw [pow_add]; exact Nat.mul_lt_mul_of_pos_right h2 hp)
    rw [hb]
    have : t * 2 ^ e * d = t * (d * 2 ^ e) := by ring
    rw [this, roundQuotient_exact _ (Nat.mul_pos hd hp)]

theorem packMagnitude_exact {m : Nat} (h : m ≤ 0x7F800000) {d : Nat} (hd : 0 < d) :
    packMagnitude (magOf m * d) d = m := by
  rw [packMagnitude_eq, packRaw_exact m hd]; omega

/-- What lies at or below a representable magnitude is rounded to at most that. -/
theorem packMagnitude_le {n d m : Nat} (hd : 0 < d) (h : n ≤ magOf m * d) : packMagnitude n d ≤ m := by
  have := packRaw_mono (n' := magOf m * d) hd hd (Nat.mul_le_mul_right _ h)
  rw [packRaw_exact m hd] at this
  rw [packMagnitude_eq]; omega

/-- What lies at or above a representable magnitude is rounded to at least that. -/
theorem le_packMagnitude {n d m : Nat} (hd : 0 < d) (hm : m ≤ 0x7F800000) (h : magOf m * d ≤ n) :
    m ≤ packMagnitude n d := by
  have := packRaw_mono (n := magOf m * d) (n' := n) hd hd (Nat.mul_le_mul_right _ h)
  rw [packRaw_exact m hd] at this
  rw [packMagnitude_eq]; omega

/-- The rounding error: at most half a unit in the last place, or half a unit of 2^-149. -/
theorem packRaw_error (n : Nat) {d : Nat} (hd : 0 < d) :
    2 ^ 24 * (magOf (packRaw n d) * d) ≤ 2 ^ 24 * n + (n + 2 ^ 23 * d) ∧
      2 ^ 24 * n ≤ 2 ^ 24 * (magOf (packRaw n d) * d) + (n + 2 ^ 23 * d) := by
  rw [magOf_packRaw n hd]
  have hD : 0 < d * 2 ^ droppedBits (n / d) := Nat.mul_pos hd (Nat.two_pow_pos _)
  obtain ⟨h1, h2⟩ := roundQuotient_spec n hD
  set t := roundQuotient n (d * 2 ^ droppedBits (n / d))
  have e1 : t * 2 ^ droppedBits (n / d) * d = t * (d * 2 ^ droppedBits (n / d)) := by ring
  rw [e1]
  have hb : 2 ^ 23 * (d * 2 ^ droppedBits (n / d)) ≤ n + 2 ^ 23 * d := by
    rcases droppedBits_bounds (n / d) with ⟨_, h3⟩ | ⟨h3, _⟩
    · rw [h3]; omega
    · have : 2 ^ 23 * (d * 2 ^ droppedBits (n / d)) ≤ n := by
        calc 2 ^ 23 * (d * 2 ^ droppedBits (n / d)) = d * 2 ^ (23 + droppedBits (n / d)) := by
              rw [pow_add]; ring
          _ ≤ d * (n / d) := Nat.mul_le_mul_left _ h3
          _ ≤ n := Nat.mul_div_le n d
      omega
  omega

/-- No representable magnitude lies nearer to `n / d` than the rounded one. -/
theorem packRaw_nearest (n : Nat) {d : Nat} (hd : 0 < d) (m : Nat) :
    |((magOf (packRaw n d) * d : Nat) : Int) - n| ≤ |((magOf m * d : Nat) : Int) - n| ∧
      (m ≠ packRaw n d → |((magOf (packRaw n d) * d : Nat) : Int) - n| = |((magOf m * d : Nat) : Int) - n| →
        packRaw n d % 2 = 0) := by
  have hD : 0 < d * 2 ^ droppedBits (n / d) := Nat.mul_pos hd (Nat.two_pow_pos _)
  have hmag := magOf_packRaw n hd
  obtain ⟨h1, h2⟩ := roundQuotient_spec n hD
  have htie := roundQuotient_tie (n := n) hD
  have hpr : packRaw n d =
      droppedBits (n / d) * 2 ^ 23 + roundQuotient n (d * 2 ^ droppedBits (n / d)) := rfl
  obtain ⟨-, hsig⟩ := significand_bounds n hd
  have hbd := droppedBits_bounds (n / d)
  set e := droppedBits (n / d) with he
  set t := roundQuotient n (d * 2 ^ e) with ht
  have e1 : magOf (packRaw n d) * d = t * (d * 2 ^ e) := by rw [hmag]; ring
  rw [e1]
  set D := d * 2 ^ e with hDdef
  -- either the other magnitude is a multiple of 2^e, or it lies below 2^(23+e)
  have hcase : (∃ k, magOf m = k * 2 ^ e) ∨ (magOf m < 2 ^ (23 + e) ∧ 2 ^ 23 * D ≤ n) := by
    rcases hbd with ⟨_, h3⟩ | ⟨h3, _⟩
    · exact Or.inl ⟨magOf m, by rw [h3]; simp⟩
    · have hlow : 2 ^ 23 * D ≤ n := by
        calc 2 ^ 23 * D = d * 2 ^ (23 + e) := by rw [hDdef, pow_add]; ring
          _ ≤ d * (n / d) := Nat.mul_le_mul_left _ h3
          _ ≤ n := Nat.mul_div_le n d
      rcases Nat.lt_or_ge m ((e + 1) * 2 ^ 23) with hm | hm
      · right
        refine ⟨?_, hlow⟩
        have : magOf ((e + 1) * 2 ^ 23) = 2 ^ (23 + e) := by
          have := magOf_fields (e := e) (t := 2 ^ 23) (le_refl _) (by norm_num)
          rw [show (e + 1) * 2 ^ 23 = e * 2 ^ 23 + 2 ^ 23 by ring, this, pow_add]
        rw [← this]; exact magOf_lt_iff.2 hm
      · left
        obtain ⟨e', t', rfl, h4, h5⟩ := exists_fields (m := m) (by nlinarith [Nat.zero_le e])
        have hle : e ≤ e' := by
          by_contra hlt
          have : (e' + 1) * 2 ^ 23 ≤ e * 2 ^ 23 := Nat.mul_le_mul_right _ (by omega)
          omega
        refine ⟨t' * 2 ^ (e' - e), ?_⟩
        rw [magOf_fields h4 (by omega), mul_assoc, ← pow_add, Nat.sub_add_cancel hle]
  rcases hcase with ⟨k, hk⟩ | ⟨hm, hlow⟩
  · have e2 : magOf m * d = k * D := by rw [hk, hDdef]; ring
    rw [e2]
    have hkt : k = t ∨ (k + 1) * D ≤ t * D ∨ (t + 1) * D ≤ k * D := by
      rcases Nat.lt_trichotomy k t with h | h | h
      · exact Or.inr (Or.inl (Nat.mul_le_mul_right _ h))
      · exact Or.inl h
      · exact Or.inr (Or.inr (Nat.mul_le_mul_right _ h))
    constructor
    · rcases hkt with rfl | h | h
      · exact le_refl _
      · rw [Nat.add_mul] at h
        push_cast
        rcases abs_cases ((t : Int) * D - n) with ⟨h5, _⟩ | ⟨h5, _⟩ <;>
          rcases abs_cases ((k : Int) * D - n) with ⟨h6, _⟩ | ⟨h6, _⟩ <;> rw [h5, h6] <;> zify at * <;> omega
      · rw [Nat.add_mul] at h
        push_cast
        rcases abs_cases ((t : Int) * D - n) with ⟨h5, _⟩ | ⟨h5, _⟩ <;>
          rcases abs_cases ((k : Int) * D - n) with ⟨h6, _⟩ | ⟨h6, _⟩ <;> rw [h5, h6] <;> zify at * <;> omega
    · intro hne heq
      have hpar : packRaw n d % 2 = t % 2 := by omega
      rw [hpar]
      apply htie
      rcases hkt with rfl | h | h
      · exact absurd (magOf_inj.1 (hk.trans hmag.symm)) hne
      · left
        rw [Nat.add_mul] at h
        push_cast at heq
        rcases abs_cases ((t : Int) * D - n) with ⟨h5, _⟩ | ⟨h5, _⟩ <;>
          rcases abs_cases ((k : Int) * D - n) with ⟨h6, _⟩ | ⟨h6, _⟩ <;> rw [h5, h6] at heq <;>
          zify at * <;> omega
      · right
        rw [Nat.add_mul] at h
        push_cast at heq
        rcases abs_cases ((t : Int) * D - n) with ⟨h5, _⟩ | ⟨h5, _⟩ <;>
          rcases abs_cases ((k : Int) * D - n) with ⟨h6, _⟩ | ⟨h6, _⟩ <;> rw [h5, h6] at heq <;>
          zify at * <;> omega
  · have hlt : magOf m * d < 2 ^ 23 * D := by
      calc magOf m * d < 2 ^ (23 + e) * d := Nat.mul_lt_mul_of_pos_right hm hd
        _ = 2 ^ 23 * D := by rw [hDdef, pow_add]; ring
    have ht23 : 2 ^ 23 ≤ t := by
      have := roundQuotient_mono (n := 2 ^ 23 * D) (n' := n) hD hD (Nat.mul_le_mul_right _ hlow)
      rwa [roundQuotient_exact _ hD] at this
    have hstep : t = 2 ^ 23 ∨ 2 ^ 23 * D + D ≤ t * D := by
      rcases Nat.lt_or_ge (2 ^ 23) t with h | h
      · right
        calc 2 ^ 23 * D + D = (2 ^ 23 + 1) * D := by ring
          _ ≤ t * D := Nat.mul_le_mul_right _ h
      · left; omega
    have hstrict : |((t * D : Nat) : Int) - n| < |((magOf m * d : Nat) : Int) - n| := by
      have hle : 2 ^ 23 * D ≤ t * D := Nat.mul_le_mul_right _ ht23
      generalize magOf m * d = y at hlt ⊢
      generalize hz : t * D = z at *
      rcases hstep with hs | hs
      · rw [hs] at hz
        rcases abs_cases ((z : Int) - n) with ⟨h5, _⟩ | ⟨h5, _⟩ <;>
          rcases abs_cases ((y : Int) - n) with ⟨h6, _⟩ | ⟨h6, _⟩ <;> rw [h5, h6] <;> omega
      · rcases abs_cases ((z : Int) - n) with ⟨h5, _⟩ | ⟨h5, _⟩ <;>
          rcases abs_cases ((y : Int) - n) with ⟨h6, _⟩ | ⟨h6, _⟩ <;> rw [h5, h6] <;> omega
    exact ⟨hstrict.le, fun _ h => absurd h hstrict.ne⟩

/-- The exact results that are rounded past the largest finite number: those at or beyond the midpoint between it and
`2^277` units. -/
theorem packRaw_overflow_iff (n : Nat) {d : Nat} (hd : 0 < d) :
    0x7F800000 ≤ packRaw n d ↔ (2 ^ 25 - 1) * 2 ^ 252 * d ≤ n := by
  constructor
  · intro h
    have hmag := magOf_packRaw n hd
    have h1 : magOf 0x7F800000 ≤ magOf (packRaw n d) := magOf_le_iff.2 h
    obtain ⟨ht, -⟩ := significand_bounds n hd
    have hD : 0 < d * 2 ^ droppedBits (n / d) := Nat.mul_pos hd (Nat.two_pow_pos _)
    obtain ⟨h2, -⟩ := roundQuotient_spec n hD
    have hraw : packRaw n d =
      droppedBits (n / d) * 2 ^ 23 + roundQuotient n (d * 2 ^ droppedBits (n / d)) := rfl
    have he : 253 ≤ droppedBits (n / d) := by omega
    rcases Nat.lt_or_ge 253 (droppedBits (n / d)) with h3 | h3
    · rcases droppedBits_bounds (n / d) with ⟨_, h4⟩ | ⟨h4, _⟩
      · omega
      · obtain ⟨j, hj⟩ : ∃ j, 23 + droppedBits (n / d) = 25 + 252 + j := ⟨droppedBits (n / d) - 254, by omega⟩
        rw [hj, pow_add, pow_add] at h4
        have h5 : 2 ^ 25 * 2 ^ 252 ≤ n / d := le_trans (Nat.le_mul_of_pos_right _ (Nat.two_pow_pos j)) h4
        have h6 : d * (2 ^ 25 * 2 ^ 252) ≤ n := le_trans (Nat.mul_le_mul_left _ h5) (Nat.mul_div_le n d)
        have h7 : (2 ^ 25 - 1) * 2 ^ 252 * d ≤ d * (2 ^ 25 * 2 ^ 252) := by
          rw [Nat.mul_comm d]; exact Nat.mul_le_mul_right _ (by norm_num)
        omega
    · have he' : droppedBits (n / d) = 253 := by omega
      rw [he'] at h2 hraw ht
      have ht' : roundQuotient n (d * 2 ^ 253) = 2 ^ 24 := by omega
      rw [ht'] at h2
      have e1 : 2 * (2 ^ 24 * (d * 2 ^ 253)) = (2 ^ 25 * 2 ^ 253) * d := by ring
      have e2 : (2 ^ 25 - 1) * 2 ^ 252 * d * 2 + d * 2 ^ 253 = (2 ^ 25 * 2 ^ 253) * d := by
        norm_num; ring
      omega
  · intro h
    have h1 := packRaw_mono (n := (2 ^ 25 - 1) * 2 ^ 252) (d := 1) (n' := n) (d' := d) (by norm_num) hd (by simpa using h)
    have h2 : packRaw ((2 ^ 25 - 1) * 2 ^ 252) 1 = 0x7F800000 := by decide +kernel
    omega

end Sys2Proof.Laws
end

