-- ==== Sys2Proof/Laws/FloatValue.lean ====
section
/-! SUPPORT. Laws/FloatValue: each primitive of spec/00_scope.md R2 to R4 in terms of the values of its operands.  A bound by a
representable number carries over to the rounded result, so most range facts need no error analysis. -/

namespace Sys2Proof.Laws

-- One proof at a time: many evaluations by the kernel at once would each hold a thread.
set_option Elab.async false

open Sys2Proof.Machine

/-! ### Values of patterns -/

theorem value_eq (a : F32) : value a = if signBit a then -(magOf (low31 a) : Int) else (magOf (low31 a) : Int) := by
  simp only [value, magnitude_eq]

theorem natAbs_value (a : F32) : (value a).natAbs = magOf (low31 a) := by
  rw [value_eq]; split <;> simp

theorem magOf_zero : magOf 0 = 0 := rfl

theorem magOf_inf : magOf 0x7F800000 = 2 ^ 24 * 2 ^ 253 := by
  rw [show (0x7F800000 : Nat) = 253 * 2 ^ 23 + 2 ^ 24 by norm_num]
  exact magOf_fields (by norm_num) (le_refl _)

/-- A pattern is finite exactly when it is no NaN and its value lies strictly between the infinities' values. -/
theorem isFinite_iff_value (a : F32) :
    isFinite a = true ↔ (isNaN a = false ∧ (value a).natAbs < magOf 0x7F800000) := by
  rw [natAbs_value, magOf_lt_iff, isFinite_iff]
  constructor
  · intro h
    refine ⟨?_, h⟩
    by_contra hn
    have := (isNaN_iff a).1 (by simpa using hn)
    omega
  · exact fun h => h.2

theorem low31_le_of_not_isNaN {a : F32} (h : isNaN a = false) : low31 a ≤ 0x7F800000 := by
  by_contra hlt
  have := (isNaN_iff a).2 (by omega)
  simp [h] at this

theorem isFinite_of_bounds {a lo hi : F32} (hn : isNaN a = false) (hlo : isFinite lo = true) (hhi : isFinite hi = true)
    (h1 : value lo ≤ value a) (h2 : value a ≤ value hi) : isFinite a = true := by
  rw [isFinite_iff_value] at *
  refine ⟨hn, ?_⟩
  omega

/-! ### Literals -/

@[simp] theorem value_fZero : value fZero = 0 := by decide +kernel
@[simp] theorem value_fNegZero : value fNegZero = 0 := by decide +kernel
@[simp] theorem value_fHalf : value fHalf = 2 ^ 148 := by decide +kernel
@[simp] theorem value_fOne : value fOne = 2 ^ 149 := by decide +kernel
@[simp] theorem value_fNegOne : value fNegOne = -2 ^ 149 := by decide +kernel
@[simp] theorem value_fTwo : value fTwo = 2 ^ 150 := by decide +kernel
@[simp] theorem value_fTen : value fTen = 10 * 2 ^ 149 := by decide +kernel
@[simp] theorem value_fThousand : value fThousand = 1000 * 2 ^ 149 := by decide +kernel
@[simp] theorem value_fbMax : value fbMax = 15938355 * 2 ^ 125 := by decide +kernel
@[simp] theorem value_twoPi : value twoPi = 13176795 * 2 ^ 128 := by decide +kernel

@[simp] theorem isFinite_fZero : isFinite fZero = true := by decide +kernel
@[simp] theorem isFinite_fNegZero : isFinite fNegZero = true := by decide +kernel
@[simp] theorem isFinite_fHalf : isFinite fHalf = true := by decide +kernel
@[simp] theorem isFinite_fOne : isFinite fOne = true := by decide +kernel
@[simp] theorem isFinite_fNegOne : isFinite fNegOne = true := by decide +kernel
@[simp] theorem isFinite_fTwo : isFinite fTwo = true := by decide +kernel
@[simp] theorem isFinite_fTen : isFinite fTen = true := by decide +kernel
@[simp] theorem isFinite_fThousand : isFinite fThousand = true := by decide +kernel
@[simp] theorem isFinite_fbMax : isFinite fbMax = true := by decide +kernel
@[simp] theorem isFinite_twoPi : isFinite twoPi = true := by decide +kernel

/-! ### The sign bit -/

theorem signBit_fneg (a : F32) : signBit (fneg a) = !signBit a := by
  simp only [signBit, fneg, BitVec.msb_xor]
  have : (0x80000000#32 : BitVec 32).msb = true := by decide
  rw [this, Bool.xor_true]

theorem low31_fneg (a : F32) : low31 (fneg a) = low31 a := by
  have h : (fneg a) &&& 0x7FFFFFFF#32 = a &&& 0x7FFFFFFF#32 := by
    unfold fneg
    rw [BitVec.and_comm, BitVec.and_comm a]
    rw [show (0x7FFFFFFF#32 &&& (a ^^^ 0x80000000#32)) =
      (0x7FFFFFFF#32 &&& a) ^^^ (0x7FFFFFFF#32 &&& 0x80000000#32) by
        ext i hi
        simp only [BitVec.getElem_and, BitVec.getElem_xor]
        cases (0x7FFFFFFF#32)[i] <;> simp]
    rw [show (0x7FFFFFFF#32 &&& 0x80000000#32) = 0#32 by decide, BitVec.xor_zero]
  have h2 : ∀ x : F32, (x &&& 0x7FFFFFFF#32).toNat = low31 x := by
    intro x
    rw [BitVec.toNat_and]
    exact Nat.and_two_pow_sub_one_eq_mod x.toNat 31
  rw [← h2, ← h2, h]

@[simp] theorem value_fneg (a : F32) : value (fneg a) = -value a := by
  rw [value_eq, value_eq, signBit_fneg, low31_fneg]
  cases signBit a <;> simp

@[simp] theorem isFinite_fneg (a : F32) : isFinite (fneg a) = isFinite a := by
  rw [Bool.eq_iff_iff, isFinite_iff, isFinite_iff, low31_fneg]

/-! ### `roundPack` -/

theorem packMagnitude_le_inf (n d : Nat) : packMagnitude n d ≤ 0x7F800000 := by
  rw [packMagnitude_eq]; omega

theorem roundPack_toNat (neg : Bool) (n d : Nat) :
    (roundPack neg n d).toNat = (if neg then 2 ^ 31 else 0) + packMagnitude n d := by
  have := packMagnitude_le_inf n d
  unfold roundPack
  rw [BitVec.toNat_ofNat]
  cases neg <;> simp <;> omega

theorem low31_roundPack (neg : Bool) (n d : Nat) : low31 (roundPack neg n d) = packMagnitude n d := by
  have := packMagnitude_le_inf n d
  unfold low31
  rw [roundPack_toNat]
  cases neg <;> simp <;> omega

theorem signBit_roundPack (neg : Bool) (n d : Nat) : signBit (roundPack neg n d) = neg := by
  have := packMagnitude_le_inf n d
  simp only [signBit, BitVec.msb_eq_decide, roundPack_toNat]
  cases neg
  · simp; omega
  · simp

@[simp] theorem isNaN_roundPack (neg : Bool) (n d : Nat) : isNaN (roundPack neg n d) = false := by
  by_contra h
  have h1 := (isNaN_iff _).1 (by simpa using h)
  rw [low31_roundPack] at h1
  have := packMagnitude_le_inf n d
  omega

/-- The exact signed numerator that `roundPack` rounds. -/
def signed (neg : Bool) (n : Nat) : Int := if neg then -(n : Int) else (n : Int)

theorem value_roundPack (neg : Bool) (n d : Nat) :
    value (roundPack neg n d) = signed neg (magOf (packMagnitude n d)) := by
  rw [value_eq, signBit_roundPack, low31_roundPack]; rfl

/-- An upper bound by a representable number carries over to the rounded result. -/
theorem value_roundPack_le {neg : Bool} {n d : Nat} {c : F32} (hd : 0 < d) (hc : isNaN c = false)
    (h : signed neg n ≤ value c * d) : value (roundPack neg n d) ≤ value c := by
  rw [value_roundPack]
  rw [value_eq] at h ⊢
  have hcl := low31_le_of_not_isNaN hc
  cases neg <;> cases hs : signBit c <;> simp only [signed, hs, if_true, if_false, Bool.false_eq_true] at h ⊢
  · have h1 : n ≤ magOf (low31 c) * d := by exact_mod_cast h
    have := magOf_le_iff.2 (packMagnitude_le hd h1)
    exact_mod_cast this
  · have hz : n = 0 ∧ magOf (low31 c) * d = 0 := by
      have : (0 : Int) ≤ ((magOf (low31 c) * d : Nat) : Int) := Int.natCast_nonneg _
      push_cast at this
      have h2 : (n : Int) + (magOf (low31 c) : Int) * d ≤ 0 := by linarith
      constructor
      · omega
      · have : ((magOf (low31 c) * d : Nat) : Int) ≤ 0 := by push_cast; omega
        omega
    have hm : magOf (low31 c) = 0 := by
      rcases Nat.mul_eq_zero.1 hz.2 with h3 | h3
      · exact h3
      · omega
    have := packMagnitude_le (n := n) (m := 0) hd (by rw [hz.1]; exact Nat.zero_le _)
    have hp : packMagnitude n d = 0 := by omega
    rw [hp, hm, magOf_zero]; simp
  · have : (0 : Int) ≤ magOf (packMagnitude n d) := Int.natCast_nonneg _
    have : (0 : Int) ≤ magOf (low31 c) := Int.natCast_nonneg _
    omega
  · have h1 : magOf (low31 c) * d ≤ n := by
      have : (magOf (low31 c) : Int) * d ≤ n := by linarith
      exact_mod_cast this
    have := magOf_le_iff.2 (le_packMagnitude hd hcl h1)
    omega

theorem signed_not (neg : Bool) (n : Nat) : signed (!neg) n = -signed neg n := by
  cases neg <;> simp [signed]

/-- A lower bound by a representable number carries over to the rounded result. -/
theorem le_value_roundPack {neg : Bool} {n d : Nat} {c : F32} (hd : 0 < d) (hc : isNaN c = false)
    (h : value c * d ≤ signed neg n) : value c ≤ value (roundPack neg n d) := by
  have hn : isNaN (fneg c) = false := by
    by_contra h'
    have h1 := (isNaN_iff _).1 (by simpa using h')
    rw [low31_fneg] at h1
    have := low31_le_of_not_isNaN hc
    omega
  have := value_roundPack_le (neg := !neg) (n := n) (c := fneg c) hd hn (by
    rw [signed_not, value_fneg]; linarith)
  rw [value_fneg, value_roundPack, signed_not] at this
  rw [value_roundPack]; linarith

/-- An exact result that is representable is the result. -/
theorem value_roundPack_exact {neg : Bool} {n d : Nat} {c : F32} (hd : 0 < d) (hc : isNaN c = false)
    (h : signed neg n = value c * d) : value (roundPack neg n d) = value c :=
  le_antisymm (value_roundPack_le hd hc h.le) (le_value_roundPack hd hc h.ge)

/-- The error of the one rounding, where the result is finite. -/
theorem value_roundPack_error {neg : Bool} {n d : Nat} (hd : 0 < d) (hf : isFinite (roundPack neg n d) = true) :
    2 ^ 24 * |value (roundPack neg n d) * d - signed neg n| ≤ n + 2 ^ 23 * d := by
  have hp : packMagnitude n d = packRaw n d := by
    have := (isFinite_iff _).1 hf
    rw [low31_roundPack] at this
    rw [packMagnitude_eq] at this ⊢; omega
  obtain ⟨h1, h2⟩ := packRaw_error n hd
  rw [value_roundPack, hp]
  have e1 : |signed neg (magOf (packRaw n d)) * d - signed neg n| = |((magOf (packRaw n d) * d : Nat) : Int) - n| := by
    cases neg
    · simp [signed]
    · simp only [signed, if_true]; push_cast
      rw [show -(magOf (packRaw n d) : Int) * d - -(n : Int) = -((magOf (packRaw n d) : Int) * d - n) by ring, abs_neg]
  rw [e1]
  rcases abs_cases (((magOf (packRaw n d) * d : Nat) : Int) - n) with ⟨h3, _⟩ | ⟨h3, _⟩ <;> rw [h3] <;> omega

/-! ### The primitives -/

theorem addFinite_eq (a b : F32) :
    value a + value b ≠ 0 →
      addFinite a b = roundPack (decide (value a + value b < 0)) (value a + value b).natAbs 1 := by
  intro h; simp only [addFinite, if_neg h]

theorem signed_natAbs (v : Int) : signed (decide (v < 0)) v.natAbs = v := by
  unfold signed; split
  · rename_i h; have := of_decide_eq_true h; omega
  · rename_i h
    have : ¬ v < 0 := by simpa using h
    omega

theorem value_addFinite_zero {a b : F32} (h : value a + value b = 0) : value (addFinite a b) = 0 := by
  simp only [addFinite, if_pos h]
  split <;> simp

theorem isNaN_addFinite (a b : F32) : isNaN (addFinite a b) = false := by
  by_cases h : value a + value b = 0
  · simp only [addFinite, if_pos h]
    split <;> decide
  · rw [addFinite_eq a b h]; simp

theorem value_addFinite_le {a b c : F32} (hc : isNaN c = false) (h : value a + value b ≤ value c) :
    value (addFinite a b) ≤ value c := by
  by_cases h0 : value a + value b = 0
  · rw [value_addFinite_zero h0]; omega
  · rw [addFinite_eq a b h0]
    exact value_roundPack_le (by norm_num) hc (by rw [signed_natAbs]; simpa using h)

theorem le_value_addFinite {a b c : F32} (hc : isNaN c = false) (h : value c ≤ value a + value b) :
    value c ≤ value (addFinite a b) := by
  by_cases h0 : value a + value b = 0
  · rw [value_addFinite_zero h0]; omega
  · rw [addFinite_eq a b h0]
    exact le_value_roundPack (by norm_num) hc (by rw [signed_natAbs]; simpa using h)

theorem addFinite_error {a b : F32} (hf : isFinite (addFinite a b) = true) :
    2 ^ 24 * |value (addFinite a b) - (value a + value b)| ≤ |value a + value b| + 2 ^ 23 := by
  by_cases h0 : value a + value b = 0
  · rw [value_addFinite_zero h0, h0]; norm_num
  · rw [addFinite_eq a b h0] at hf ⊢
    have := value_roundPack_error (by norm_num : 0 < 1) hf
    rw [signed_natAbs, Int.natCast_natAbs] at this
    simpa using this

section Sum

variable {a b c : F32} (ha : isFinite a = true) (hb : isFinite b = true)

include ha hb

theorem fadd_eq : fadd a b = addFinite a b := by simp [fadd, ha, hb]

theorem fsub_eq : fsub a b = addFinite a (fneg b) := by simp [fsub, ha, hb]

theorem isNaN_fadd : isNaN (fadd a b) = false := by rw [fadd_eq ha hb]; exact isNaN_addFinite a b

theorem isNaN_fsub : isNaN (fsub a b) = false := by rw [fsub_eq ha hb]; exact isNaN_addFinite a _

theorem fadd_le (hc : isNaN c = false) (h : value a + value b ≤ value c) : value (fadd a b) ≤ value c := by
  rw [fadd_eq ha hb]; exact value_addFinite_le hc h

theorem le_fadd (hc : isNaN c = false) (h : value c ≤ value a + value b) : value c ≤ value (fadd a b) := by
  rw [fadd_eq ha hb]; exact le_value_addFinite hc h

theorem fsub_le (hc : isNaN c = false) (h : value a - value b ≤ value c) : value (fsub a b) ≤ value c := by
  rw [fsub_eq ha hb]; exact value_addFinite_le hc (by rw [value_fneg]; omega)

theorem le_fsub (hc : isNaN c = false) (h : value c ≤ value a - value b) : value c ≤ value (fsub a b) := by
  rw [fsub_eq ha hb]; exact le_value_addFinite hc (by rw [value_fneg]; omega)

/-- A representable sum is exact. -/
theorem fadd_exact (hc : isNaN c = false) (h : value a + value b = value c) : value (fadd a b) = value c :=
  le_antisymm (fadd_le ha hb hc h.le) (le_fadd ha hb hc h.ge)

/-- A representable difference is exact. -/
theorem fsub_exact (hc : isNaN c = false) (h : value a - value b = value c) : value (fsub a b) = value c :=
  le_antisymm (fsub_le ha hb hc h.le) (le_fsub ha hb hc h.ge)

end Sum

section Product

variable {a b c : F32} (ha : isFinite a = true) (hb : isFinite b = true)

theorem signed_product (a b : F32) :
    signed (signBit a != signBit b) (magnitude a * magnitude b) = value a * value b := by
  simp only [signed, value]
  cases signBit a <;> cases signBit b <;> simp

theorem two_pow_149_pos : 0 < 2 ^ 149 := Nat.two_pow_pos 149

include ha hb

theorem fmul_eq : fmul a b = roundPack (signBit a != signBit b) (magnitude a * magnitude b) (2 ^ 149) := by
  simp [fmul, ha, hb]

theorem isNaN_fmul : isNaN (fmul a b) = false := by rw [fmul_eq ha hb]; simp

theorem fmul_le (hc : isNaN c = false) (h : value a * value b ≤ value c * 2 ^ 149) : value (fmul a b) ≤ value c := by
  rw [fmul_eq ha hb]
  exact value_roundPack_le two_pow_149_pos hc (by rw [signed_product]; exact_mod_cast h)

theorem le_fmul (hc : isNaN c = false) (h : value c * 2 ^ 149 ≤ value a * value b) : value c ≤ value (fmul a b) := by
  rw [fmul_eq ha hb]
  exact le_value_roundPack two_pow_149_pos hc (by rw [signed_product]; exact_mod_cast h)

/-- A representable product is exact. -/
theorem fmul_exact (hc : isNaN c = false) (h : value a * value b = value c * 2 ^ 149) : value (fmul a b) = value c :=
  le_antisymm (fmul_le ha hb hc h.le) (le_fmul ha hb hc h.ge)

end Product

section Quotient

variable {a b c : F32} (ha : isFinite a = true) (hb : isFinite b = true) (h0 : 0 < value b)

theorem magnitude_of_pos {b : F32} (h : 0 < value b) : signBit b = false ∧ (magnitude b : Int) = value b := by
  unfold value at *
  cases hs : signBit b
  · simp
  · simp [hs] at h; omega

theorem isZero_eq_false {b : F32} (h : value b ≠ 0) : isZero b = false := by
  unfold isZero
  have : magnitude b ≠ 0 := by
    intro h0; apply h; unfold value; rw [h0]; simp
  simp [this]

include ha hb h0

theorem fdiv_eq : fdiv a b = roundPack (signBit a) (magnitude a * 2 ^ 149) (magnitude b) := by
  obtain ⟨h1, -⟩ := magnitude_of_pos h0
  simp [fdiv, ha, hb, h1, isZero_eq_false (by omega : value b ≠ 0)]

theorem isNaN_fdiv : isNaN (fdiv a b) = false := by rw [fdiv_eq ha hb h0]; simp

omit ha hb h0 in
theorem signed_quotient : signed (signBit a) (magnitude a * 2 ^ 149) = value a * 2 ^ 149 := by
  simp only [signed, value]
  cases signBit a <;> simp

theorem fdiv_le (hc : isNaN c = false) (h : value a * 2 ^ 149 ≤ value c * value b) : value (fdiv a b) ≤ value c := by
  obtain ⟨-, h2⟩ := magnitude_of_pos h0
  rw [fdiv_eq ha hb h0]
  exact value_roundPack_le (by omega) hc (by rw [signed_quotient, h2]; exact h)

theorem le_fdiv (hc : isNaN c = false) (h : value c * value b ≤ value a * 2 ^ 149) : value c ≤ value (fdiv a b) := by
  obtain ⟨-, h2⟩ := magnitude_of_pos h0
  rw [fdiv_eq ha hb h0]
  exact le_value_roundPack (by omega) hc (by rw [signed_quotient, h2]; exact h)

/-- A representable quotient is exact. -/
theorem fdiv_exact (hc : isNaN c = false) (h : value a * 2 ^ 149 = value c * value b) : value (fdiv a b) = value c :=
  le_antisymm (fdiv_le ha hb h0 hc h.le) (le_fdiv ha hb h0 hc h.ge)

end Quotient

/-! ### Comparisons -/

section Compare

variable {a b lo hi : F32} (ha : isNaN a = false) (hb : isNaN b = false)

include ha hb

theorem flt_iff : flt a b = true ↔ value a < value b := by simp [flt, ha, hb]

theorem fle_iff : fle a b = true ↔ value a ≤ value b := by simp [fle, ha, hb]

theorem feq_iff : feq a b = true ↔ value a = value b := by simp [feq, ha, hb]

theorem value_fmin : value (fmin a b) = min (value a) (value b) := by
  unfold fmin
  split
  · rename_i h; have := (flt_iff ha hb).1 h; omega
  · rename_i h; have := mt (flt_iff ha hb).2 h; omega

theorem value_fmax : value (fmax a b) = max (value a) (value b) := by
  unfold fmax
  split
  · rename_i h; have := (flt_iff hb ha).1 h; omega
  · rename_i h; have := mt (flt_iff hb ha).2 h; omega

end Compare

/-- `fmin` answers one of its operands. -/
theorem fmin_cases (a b : F32) : fmin a b = a ∨ fmin a b = b := by unfold fmin; split <;> simp

/-- `fmax` answers one of its operands. -/
theorem fmax_cases (a b : F32) : fmax a b = a ∨ fmax a b = b := by unfold fmax; split <;> simp

theorem isNaN_fmin {a b : F32} (ha : isNaN a = false) (hb : isNaN b = false) : isNaN (fmin a b) = false := by
  rcases fmin_cases a b with h | h <;> rw [h] <;> assumption

theorem isNaN_fmax {a b : F32} (ha : isNaN a = false) (hb : isNaN b = false) : isNaN (fmax a b) = false := by
  rcases fmax_cases a b with h | h <;> rw [h] <;> assumption

theorem between_iff (lo v hi : F32) :
    between lo v hi = true ↔ (isNaN v = false ∧ value lo ≤ value v ∧ value v ≤ value hi) := by
  simp [between, and_assoc]

theorem value_clamp {v lo hi : F32} (hv : isNaN v = false) (hlo : isNaN lo = false) (hhi : isNaN hi = false) :
    value (clamp v lo hi) = min (max (value v) (value lo)) (value hi) := by
  unfold clamp
  rw [value_fmin (isNaN_fmax hv hlo) hhi, value_fmax hv hlo]

/-- A clamped value lies in the range. -/
theorem between_clamp {v lo hi : F32} (hv : isNaN v = false) (hlo : isNaN lo = false) (hhi : isNaN hi = false)
    (h : value lo ≤ value hi) : between lo (clamp v lo hi) hi = true := by
  rw [between_iff]
  refine ⟨isNaN_fmin (isNaN_fmax hv hlo) hhi, ?_⟩
  rw [value_clamp hv hlo hhi]; omega

/-! ### Conversions -/

theorem isNaN_i2f (k : Int) : isNaN (i2f k) = false := by unfold i2f; simp

theorem signed_i2f (k : Int) : signed (decide (k < 0)) (k.natAbs * 2 ^ 149) = k * 2 ^ 149 := by
  have h := signed_natAbs k
  unfold signed at *
  split at h <;> rename_i hs <;> simp only [hs, if_true, if_false, Bool.false_eq_true] <;> push_cast <;> rw [← h] <;>
    simp

theorem magOf_natCast {k : Nat} (h0 : 0 < k) (h : k ≤ 2 ^ 24) : ∃ m, m < 0x7F800000 ∧ magOf m = k * 2 ^ 149 := by
  -- scale the significand up to 24 bits
  have hk : k ≠ 0 := by omega
  have hl : Nat.log2 k ≤ 24 := by
    by_contra hlt
    have : 2 ^ 25 ≤ k := le_trans (Nat.pow_le_pow_right (by norm_num) (by omega)) (Nat.log2_self_le hk)
    omega
  by_cases h24 : k = 2 ^ 24
  · refine ⟨149 * 2 ^ 23 + 2 ^ 24, by norm_num, ?_⟩
    rw [magOf_fields (by norm_num) (le_refl _), h24]
  · have hl' : Nat.log2 k ≤ 23 := by
      have := (Nat.log2_lt (n := k) (k := 24) hk).2 (by omega)
      omega
    have e1 := Nat.log2_self_le hk
    have e2 := Nat.lt_log2_self (n := k)
    refine ⟨(126 + Nat.log2 k) * 2 ^ 23 + k * 2 ^ (23 - Nat.log2 k), ?_, ?_⟩
    · have : k * 2 ^ (23 - Nat.log2 k) < 2 ^ (Nat.log2 k + 1) * 2 ^ (23 - Nat.log2 k) :=
        Nat.mul_lt_mul_of_pos_right e2 (Nat.two_pow_pos _)
      rw [← pow_add, show Nat.log2 k + 1 + (23 - Nat.log2 k) = 24 by omega] at this
      omega
    · rw [magOf_fields]
      · rw [mul_assoc, ← pow_add, show 23 - Nat.log2 k + (126 + Nat.log2 k) = 149 by omega]
      · calc 2 ^ 23 = 2 ^ Nat.log2 k * 2 ^ (23 - Nat.log2 k) := by
              rw [← pow_add]; congr 1; omega
          _ ≤ k * 2 ^ (23 - Nat.log2 k) := Nat.mul_le_mul_right _ e1
      · have : k * 2 ^ (23 - Nat.log2 k) < 2 ^ (Nat.log2 k + 1) * 2 ^ (23 - Nat.log2 k) :=
          Nat.mul_lt_mul_of_pos_right e2 (Nat.two_pow_pos _)
        rw [← pow_add, show Nat.log2 k + 1 + (23 - Nat.log2 k) = 24 by omega] at this
        omega

/-- `i2f` is exact on the integers of magnitude at most `2^24` (R4). -/
theorem value_i2f {k : Int} (h : k.natAbs ≤ 2 ^ 24) : value (i2f k) = k * 2 ^ 149 := by
  unfold i2f
  rw [value_roundPack]
  rcases Nat.eq_zero_or_pos k.natAbs with h0 | h0
  · have hk : k = 0 := by omega
    subst hk
    decide +kernel
  · obtain ⟨m, hm, hmag⟩ := magOf_natCast h0 h
    rw [← hmag]
    have := packMagnitude_exact (m := m) (by omega) (d := 1) (by norm_num)
    rw [Nat.mul_one] at this
    rw [this, hmag, signed_i2f]

theorem isFinite_i2f {k : Int} (h : k.natAbs ≤ 2 ^ 24) : isFinite (i2f k) = true := by
  rw [isFinite_iff_value, value_i2f h, magOf_inf]
  refine ⟨isNaN_i2f k, ?_⟩
  rw [Int.natAbs_mul]
  have : (2 ^ 149 : Int).natAbs = 2 ^ 149 := by decide +kernel
  rw [this]
  calc k.natAbs * 2 ^ 149 ≤ 2 ^ 24 * 2 ^ 149 := Nat.mul_le_mul_right _ h
    _ < 2 ^ 24 * 2 ^ 253 := Nat.mul_lt_mul_of_pos_left (Nat.pow_lt_pow_right (by norm_num) (by norm_num)) (by norm_num)

/-- The unit of binary64 values. -/
theorem one64_eq : one64 = 2 ^ 1074 := by decide +kernel

end Sys2Proof.Laws
end

