-- ==== Sys2Proof/Laws/Memory.lean ====
section
/-! SUPPORT. Laws/Memory: the delay RAM.  Every operation keeps the canonical form, what each leaves at each location, and that
two canonical memories with the same words are the same data. -/

namespace Sys2Proof.Machine

/-! ### Locations -/

/-- Distinct locations have distinct keys: `i` below the stride. -/
theorem loc_inj {c c' i i' : Nat} (hi : i < 2 ^ 24) (hi' : i' < 2 ^ 24) :
    loc c i = loc c' i' ↔ c = c' ∧ i = i' := by
  unfold loc; omega

theorem wrapIndex_lt {cap : Nat} (h : 0 < cap) (k : Int) : wrapIndex cap k < cap := by
  unfold wrapIndex
  have h1 := Int.emod_nonneg k (by omega : (cap : Int) ≠ 0)
  have h2 := Int.emod_lt_of_pos k (by omega : (0 : Int) < cap)
  omega

/-- An index already below the capacity is itself (R52). -/
theorem wrapIndex_of_lt {cap i : Nat} (h : i < cap) : wrapIndex cap i = i := by
  unfold wrapIndex
  rw [Int.emod_eq_of_lt (by omega) (by omega)]; simp

namespace Memory

/-! ### `wf` -/

theorem wf_iff (m : Memory) : wf m = true ↔ m.Pairwise fun x y => x.1 < y.1 := by
  unfold wf; exact decide_eq_true_iff

@[simp] theorem wf_nil : wf [] = true := by decide

theorem wf_cons (x : Nat × F32) (m : Memory) : wf (x :: m) = true ↔ (∀ y ∈ m, x.1 < y.1) ∧ wf m = true := by
  rw [wf_iff, wf_iff, List.pairwise_cons]

theorem read_eq_none_of_lt {m : Memory} {a : Nat} (h : ∀ y ∈ m, a < y.1) : read m a = none := by
  induction m with
  | nil => rfl
  | cons x m ih =>
    have h1 := h x (by simp)
    rw [read, if_neg (by omega)]
    exact ih fun y hy => h y (by simp [hy])

theorem read_eq_none_iff (m : Memory) (a : Nat) : read m a = none ↔ ∀ y ∈ m, y.1 ≠ a := by
  induction m with
  | nil => simp [read]
  | cons x m ih =>
    obtain ⟨b, v⟩ := x
    by_cases h : b = a
    · simp [read, h]
    · simp only [read, if_neg h, ih, List.mem_cons, forall_eq_or_imp]
      exact ⟨fun h1 => ⟨h, h1⟩, fun h1 => h1.2⟩

/-- A word that a location holds is listed. -/
theorem mem_of_read {m : Memory} {a : Nat} {v : F32} (h : read m a = some v) : (a, v) ∈ m := by
  induction m with
  | nil => simp [read] at h
  | cons x m ih =>
    obtain ⟨b, u⟩ := x
    rw [read] at h
    split at h
    · rename_i hb; injection h with h; subst hb; subst h; exact List.mem_cons_self
    · exact List.mem_cons_of_mem _ (ih h)

/-! ### `write` -/

theorem mem_write {m : Memory} {a : Nat} {v : F32} {y : Nat × F32} (h : y ∈ write m a v) : y = (a, v) ∨ y ∈ m := by
  induction m with
  | nil => simpa [write] using h
  | cons x m ih =>
    obtain ⟨b, u⟩ := x
    simp only [write] at h
    split at h
    · simpa using h
    · split at h
      · rcases List.mem_cons.1 h with h | h
        · exact Or.inl h
        · exact Or.inr (List.mem_cons_of_mem _ h)
      · rcases List.mem_cons.1 h with h | h
        · exact Or.inr (by simp [h])
        · rcases ih h with h | h
          · exact Or.inl h
          · exact Or.inr (List.mem_cons_of_mem _ h)

/-- A write keeps the canonical form. -/
theorem wf_write {m : Memory} (h : wf m = true) (a : Nat) (v : F32) : wf (write m a v) = true := by
  induction m with
  | nil => simp [write, wf_iff]
  | cons x m ih =>
    obtain ⟨b, u⟩ := x
    obtain ⟨h1, h2⟩ := (wf_cons _ _).1 h
    simp only [write]
    split
    · rw [wf_cons]
      refine ⟨?_, h⟩
      intro y hy
      rcases List.mem_cons.1 hy with rfl | hy
      · assumption
      · have := h1 y hy; dsimp at *; omega
    · split
      · rename_i hab; subst hab
        rw [wf_cons]; exact ⟨h1, h2⟩
      · rw [wf_cons]
        refine ⟨?_, ih h2⟩
        intro y hy
        rcases mem_write hy with rfl | hy
        · dsimp; omega
        · exact h1 y hy

/-- A read after a write: the word written at its location, every other location as before. -/
theorem read_write (m : Memory) (a : Nat) (v : F32) (x : Nat) :
    read (write m a v) x = if x = a then some v else read m x := by
  induction m with
  | nil =>
    by_cases h : x = a
    · simp [write, read, h]
    · simp [write, read, h, Ne.symm h]
  | cons y m ih =>
    obtain ⟨b, u⟩ := y
    simp only [write]
    split
    · by_cases h : x = a
      · simp [read, h]
      · simp [read, h, Ne.symm h]
    · split
      · rename_i hab; subst hab
        by_cases h : x = a
        · simp [read, h]
        · simp [read, h, Ne.symm h]
      · rename_i h1 h2
        simp only [read, ih]
        by_cases h : b = x
        · have : x ≠ a := by omega
          simp [h, this]
        · simp [h]

/-- Two canonical memories with the same words are equal data. -/
theorem ext {m m' : Memory} (h : wf m = true) (h' : wf m' = true) (hr : ∀ a, read m a = read m' a) : m = m' := by
  induction m generalizing m' with
  | nil =>
    cases m' with
    | nil => rfl
    | cons y m' => have := hr y.1; simp [read] at this
  | cons x m ih =>
    cases m' with
    | nil => have := hr x.1; simp [read] at this
    | cons y m' =>
      obtain ⟨b, u⟩ := x
      obtain ⟨b', u'⟩ := y
      obtain ⟨h1, h2⟩ := (wf_cons _ _).1 h
      obtain ⟨h1', h2'⟩ := (wf_cons _ _).1 h'
      have hb : b = b' := by
        rcases Nat.lt_trichotomy b b' with hlt | heq | hgt
        · have := hr b
          rw [read, if_pos rfl, read_eq_none_of_lt] at this
          · simp at this
          · intro y hy
            rcases List.mem_cons.1 hy with rfl | hy
            · exact hlt
            · have := h1' y hy; dsimp at *; omega
        · exact heq
        · have := hr b'
          rw [read_eq_none_of_lt, read, if_pos rfl] at this
          · simp at this
          · intro y hy
            rcases List.mem_cons.1 hy with rfl | hy
            · exact hgt
            · have := h1 y hy; dsimp at *; omega
      subst hb
      have hu : u = u' := by have := hr b; simpa [read] using this
      subst hu
      have : m = m' := by
        apply ih h2 h2'
        intro a
        by_cases ha : b = a
        · subst ha
          rw [read_eq_none_of_lt h1, read_eq_none_of_lt h1']
        · have := hr a; simpa [read, ha] using this
      rw [this]

/-- Writes to different locations commute. -/
theorem write_comm {m : Memory} (h : wf m = true) {a b : Nat} (hab : a ≠ b) (v u : F32) :
    write (write m a v) b u = write (write m b u) a v := by
  apply ext (wf_write (wf_write h _ _) _ _) (wf_write (wf_write h _ _) _ _)
  intro x
  simp only [read_write]
  by_cases h1 : x = a
  · subst h1; simp [hab]
  · simp [h1]

/-! ### `fillRun` and `zeroFill` -/

theorem read_append (m m' : Memory) (a : Nat) : read (m ++ m') a = (read m a).or (read m' a) := by
  induction m with
  | nil => simp [read]
  | cons x m ih =>
    obtain ⟨b, v⟩ := x
    by_cases h : b = a
    · simp [read, h]
    · simp [read, h, ih]

theorem read_filter (m : Memory) (p : Nat → Bool) (a : Nat) :
    read (m.filter fun x => p x.1) a = if p a then read m a else none := by
  induction m with
  | nil => simp [read]
  | cons x m ih =>
    obtain ⟨b, v⟩ := x
    by_cases hb : p b
    · rw [List.filter_cons_of_pos (by simpa using hb)]
      by_cases h : b = a
      · subst h; simp [read, hb]
      · simp [read, h, ih]
    · rw [List.filter_cons_of_neg (by simpa using hb), ih]
      by_cases h : b = a
      · subst h; simp [hb]
      · simp [read, h]

theorem read_run (a n : Nat) (v : F32) (x : Nat) :
    read ((List.range n).map fun i => (a + i, v)) x = if a ≤ x ∧ x < a + n then some v else none := by
  induction n with
  | zero =>
    rw [if_neg (by omega)]
    rfl
  | succ n ih =>
    rw [List.range_succ, List.map_append, read_append, ih]
    by_cases h : a ≤ x ∧ x < a + n
    · rw [if_pos h, if_pos (by omega)]; rfl
    · rw [if_neg h]
      by_cases hx : a + n = x
      · rw [if_pos (by omega)]; simp [read, hx]
      · rw [if_neg (by omega)]; simp [read, hx]

/-- A filled run reads as the value, every other location as before. -/
theorem read_fillRun (m : Memory) (a n : Nat) (v : F32) (x : Nat) :
    read (fillRun m a n v) x = if a ≤ x ∧ x < a + n then some v else read m x := by
  unfold fillRun
  rw [read_append, read_append, read_filter m (fun y => decide (y < a)), read_run,
    read_filter m (fun y => decide (a + n ≤ y))]
  by_cases h1 : a ≤ x ∧ x < a + n
  · have : ¬ x < a := by omega
    simp [h1, this]
  · by_cases h2 : x < a
    · have : ¬ a + n ≤ x := by omega
      have h3 : ¬ (a ≤ x ∧ x < a + n) := h1
      simp only [h2, decide_true, if_true, h3, if_false, this, decide_false, Bool.false_eq_true]
      cases read m x <;> simp
    · have : a + n ≤ x := by omega
      simp [h1, h2, this]

/-- Filling a run keeps the canonical form. -/
theorem wf_fillRun {m : Memory} (h : wf m = true) (a n : Nat) (v : F32) : wf (fillRun m a n v) = true := by
  rw [wf_iff] at *
  unfold fillRun
  have hrun : ((List.range n).map fun i => (a + i, v)).Pairwise fun x y : Nat × F32 => x.1 < y.1 := by
    rw [List.pairwise_map]
    exact List.pairwise_lt_range.imp (by intro x y hxy; dsimp; omega)
  rw [List.pairwise_append, List.pairwise_append]
  refine ⟨⟨h.filter _, hrun, ?_⟩, h.filter _, ?_⟩
  · intro x hx y hy
    simp only [List.mem_filter, decide_eq_true_eq, List.mem_map, List.mem_range] at hx hy
    obtain ⟨i, _, rfl⟩ := hy
    dsimp; omega
  · intro x hx y hy
    simp only [List.mem_append, List.mem_filter, decide_eq_true_eq, List.mem_map, List.mem_range] at hx hy
    rcases hx with ⟨_, hx⟩ | ⟨i, hi, rfl⟩
    · omega
    · dsimp; omega

/-- The zero fill keeps the canonical form. -/
theorem wf_zeroFill (cap nch : Nat) {m : Memory} (h : wf m = true) : wf (zeroFill cap nch m) = true := by
  induction nch with
  | zero => exact h
  | succ c ih => exact wf_fillRun ih _ _ _

/-- The addressed part reads as `+0`, every other location as before (R110, R114). -/
theorem read_zeroFill {cap : Nat} (hcap : cap ≤ 2 ^ 24) (nch : Nat) (m : Memory) {c i : Nat} (hi : i < 2 ^ 24) :
    read (zeroFill cap nch m) (loc c i) = if c < nch ∧ i < cap then some fZero else read m (loc c i) := by
  induction nch with
  | zero => rw [if_neg (by omega)]; rfl
  | succ n ih =>
    rw [zeroFill, read_fillRun, ih]
    unfold loc
    by_cases h1 : c < n ∧ i < cap
    · rw [if_pos h1, if_pos (by omega : c < n + 1 ∧ i < cap)]
      split <;> rfl
    · rw [if_neg h1]
      by_cases h2 : c = n ∧ i < cap
      · rw [if_pos (by omega), if_pos (by omega)]
      · rw [if_neg (by omega), if_neg (by omega)]

/-- Every key is the key of a location. -/
theorem exists_loc (a : Nat) : ∃ c i, i < 2 ^ 24 ∧ a = loc c i := by
  refine ⟨a / 2 ^ 24, a % 2 ^ 24, Nat.mod_lt _ (by norm_num), ?_⟩
  unfold loc; omega

end Memory

/-! ### Channel records -/

@[simp] theorem length_mapFirst (n : Nat) (f : Channel → Channel) (cs : List Channel) :
    (mapFirst n f cs).length = cs.length := by
  simp only [mapFirst, List.length_append, List.length_map, List.length_take, List.length_drop]; omega

/-- `mapFirst` changes the records below `n` and no other. -/
theorem getElem?_mapFirst (n : Nat) (f : Channel → Channel) (cs : List Channel) (c : Nat) :
    (mapFirst n f cs)[c]? = if c < n then cs[c]?.map f else cs[c]? := by
  unfold mapFirst
  by_cases hc : c < n
  · rw [if_pos hc]
    by_cases hl : c < cs.length
    · rw [List.getElem?_append_left (by simp; omega), List.getElem?_map, List.getElem?_take_of_lt hc]
    · rw [List.getElem?_eq_none (by simp; omega), List.getElem?_eq_none (by omega)]; rfl
  · rw [if_neg hc]
    by_cases hl : n ≤ cs.length
    · rw [List.getElem?_append_right (by simp; omega), List.getElem?_drop]
      congr 1
      simp only [List.length_map, List.length_take]; omega
    · rw [List.getElem?_eq_none (by simp; omega), List.getElem?_eq_none (by omega)]

end Sys2Proof.Machine
end

