-- ==== Sys2Proof/Laws/State.lean ====
section
/-! SUPPORT. Laws/State: one lemma per field per update of State and of the channel record, all true by definition, so that
no proof unfolds a record update. -/

namespace Sys2Proof.Machine

namespace State

variable (s : State)

/-! ### `raise` writes `STATE` and `FAULT_CAUSE` only -/

@[simp] theorem raise_cfg (c : Cause) : (s.raise c).cfg = s.cfg := rfl
@[simp] theorem raise_engine (c : Cause) : (s.raise c).engine = .faulted := rfl
@[simp] theorem raise_faultCause (c : Cause) : (s.raise c).faultCause = causeCode c := rfl
@[simp] theorem raise_cr (c : Cause) : (s.raise c).cr = s.cr := rfl
@[simp] theorem raise_cs (c : Cause) : (s.raise c).cs = s.cs := rfl
@[simp] theorem raise_ram (c : Cause) : (s.raise c).ram = s.ram := rfl
@[simp] theorem raise_rsp (c : Cause) : (s.raise c).rsp = s.rsp := rfl
@[simp] theorem raise_inputs (c : Cause) : (s.raise c).inputs = s.inputs := rfl
@[simp] theorem raise_taken (c : Cause) : (s.raise c).taken = s.taken := rfl
@[simp] theorem raise_freeCount (c : Cause) : (s.raise c).freeCount = s.freeCount := rfl

/-! ### `withRegs` writes `CR.*` only -/

@[simp] theorem withRegs_cfg (r : Regs) : (s.withRegs r).cfg = s.cfg := rfl
@[simp] theorem withRegs_engine (r : Regs) : (s.withRegs r).engine = s.engine := rfl
@[simp] theorem withRegs_faultCause (r : Regs) : (s.withRegs r).faultCause = s.faultCause := rfl
@[simp] theorem withRegs_cr (r : Regs) : (s.withRegs r).cr = r := rfl
@[simp] theorem withRegs_cs (r : Regs) : (s.withRegs r).cs = s.cs := rfl
@[simp] theorem withRegs_ram (r : Regs) : (s.withRegs r).ram = s.ram := rfl
@[simp] theorem withRegs_rsp (r : Regs) : (s.withRegs r).rsp = s.rsp := rfl
@[simp] theorem withRegs_inputs (r : Regs) : (s.withRegs r).inputs = s.inputs := rfl
@[simp] theorem withRegs_taken (r : Regs) : (s.withRegs r).taken = s.taken := rfl
@[simp] theorem withRegs_freeCount (r : Regs) : (s.withRegs r).freeCount = s.freeCount := rfl

/-! ### `withRam` writes the delay RAM only -/

@[simp] theorem withRam_cfg (m : Memory) : (s.withRam m).cfg = s.cfg := rfl
@[simp] theorem withRam_engine (m : Memory) : (s.withRam m).engine = s.engine := rfl
@[simp] theorem withRam_faultCause (m : Memory) : (s.withRam m).faultCause = s.faultCause := rfl
@[simp] theorem withRam_cr (m : Memory) : (s.withRam m).cr = s.cr := rfl
@[simp] theorem withRam_cs (m : Memory) : (s.withRam m).cs = s.cs := rfl
@[simp] theorem withRam_ram (m : Memory) : (s.withRam m).ram = m := rfl
@[simp] theorem withRam_rsp (m : Memory) : (s.withRam m).rsp = s.rsp := rfl
@[simp] theorem withRam_inputs (m : Memory) : (s.withRam m).inputs = s.inputs := rfl
@[simp] theorem withRam_taken (m : Memory) : (s.withRam m).taken = s.taken := rfl
@[simp] theorem withRam_freeCount (m : Memory) : (s.withRam m).freeCount = s.freeCount := rfl

/-! ### `withChannel` and `mapLive` write channel records only -/

@[simp] theorem withChannel_cfg (c : Nat) (r : Channel) : (s.withChannel c r).cfg = s.cfg := rfl
@[simp] theorem withChannel_engine (c : Nat) (r : Channel) : (s.withChannel c r).engine = s.engine := rfl
@[simp] theorem withChannel_faultCause (c : Nat) (r : Channel) : (s.withChannel c r).faultCause = s.faultCause := rfl
@[simp] theorem withChannel_cr (c : Nat) (r : Channel) : (s.withChannel c r).cr = s.cr := rfl
@[simp] theorem withChannel_cs (c : Nat) (r : Channel) : (s.withChannel c r).cs = s.cs.set c r := rfl
@[simp] theorem withChannel_ram (c : Nat) (r : Channel) : (s.withChannel c r).ram = s.ram := rfl
@[simp] theorem withChannel_rsp (c : Nat) (r : Channel) : (s.withChannel c r).rsp = s.rsp := rfl
@[simp] theorem withChannel_inputs (c : Nat) (r : Channel) : (s.withChannel c r).inputs = s.inputs := rfl
@[simp] theorem withChannel_taken (c : Nat) (r : Channel) : (s.withChannel c r).taken = s.taken := rfl
@[simp] theorem withChannel_freeCount (c : Nat) (r : Channel) : (s.withChannel c r).freeCount = s.freeCount := rfl

@[simp] theorem mapLive_cfg (f : Channel → Channel) : (s.mapLive f).cfg = s.cfg := rfl
@[simp] theorem mapLive_engine (f : Channel → Channel) : (s.mapLive f).engine = s.engine := rfl
@[simp] theorem mapLive_faultCause (f : Channel → Channel) : (s.mapLive f).faultCause = s.faultCause := rfl
@[simp] theorem mapLive_cr (f : Channel → Channel) : (s.mapLive f).cr = s.cr := rfl
@[simp] theorem mapLive_cs (f : Channel → Channel) : (s.mapLive f).cs = mapFirst s.cr.nch f s.cs := rfl
@[simp] theorem mapLive_ram (f : Channel → Channel) : (s.mapLive f).ram = s.ram := rfl
@[simp] theorem mapLive_rsp (f : Channel → Channel) : (s.mapLive f).rsp = s.rsp := rfl
@[simp] theorem mapLive_inputs (f : Channel → Channel) : (s.mapLive f).inputs = s.inputs := rfl
@[simp] theorem mapLive_taken (f : Channel → Channel) : (s.mapLive f).taken = s.taken := rfl
@[simp] theorem mapLive_freeCount (f : Channel → Channel) : (s.mapLive f).freeCount = s.freeCount := rfl

/-! ### `enterPrepared` writes `STATE` only -/

@[simp] theorem enterPrepared_cfg : s.enterPrepared.cfg = s.cfg := rfl
@[simp] theorem enterPrepared_engine : s.enterPrepared.engine = .prepared := rfl
@[simp] theorem enterPrepared_faultCause : s.enterPrepared.faultCause = s.faultCause := rfl
@[simp] theorem enterPrepared_cr : s.enterPrepared.cr = s.cr := rfl
@[simp] theorem enterPrepared_cs : s.enterPrepared.cs = s.cs := rfl
@[simp] theorem enterPrepared_ram : s.enterPrepared.ram = s.ram := rfl
@[simp] theorem enterPrepared_rsp : s.enterPrepared.rsp = s.rsp := rfl
@[simp] theorem enterPrepared_inputs : s.enterPrepared.inputs = s.inputs := rfl
@[simp] theorem enterPrepared_taken : s.enterPrepared.taken = s.taken := rfl
@[simp] theorem enterPrepared_freeCount : s.enterPrepared.freeCount = s.freeCount := rfl

/-! ### The response port -/

@[simp] theorem respond_cfg (v : F32) : (s.respond v).cfg = s.cfg := rfl
@[simp] theorem respond_engine (v : F32) : (s.respond v).engine = s.engine := rfl
@[simp] theorem respond_faultCause (v : F32) : (s.respond v).faultCause = s.faultCause := rfl
@[simp] theorem respond_cr (v : F32) : (s.respond v).cr = s.cr := rfl
@[simp] theorem respond_cs (v : F32) : (s.respond v).cs = s.cs := rfl
@[simp] theorem respond_ram (v : F32) : (s.respond v).ram = s.ram := rfl
@[simp] theorem respond_rsp (v : F32) : (s.respond v).rsp = some v := rfl
@[simp] theorem respond_inputs (v : F32) : (s.respond v).inputs = s.inputs := rfl
@[simp] theorem respond_taken (v : F32) : (s.respond v).taken = s.taken := rfl
@[simp] theorem respond_freeCount (v : F32) : (s.respond v).freeCount = s.freeCount := rfl

@[simp] theorem takeResponse_cfg : s.takeResponse.cfg = s.cfg := rfl
@[simp] theorem takeResponse_engine : s.takeResponse.engine = s.engine := rfl
@[simp] theorem takeResponse_faultCause : s.takeResponse.faultCause = s.faultCause := rfl
@[simp] theorem takeResponse_cr : s.takeResponse.cr = s.cr := rfl
@[simp] theorem takeResponse_cs : s.takeResponse.cs = s.cs := rfl
@[simp] theorem takeResponse_ram : s.takeResponse.ram = s.ram := rfl
@[simp] theorem takeResponse_rsp : s.takeResponse.rsp = none := rfl
@[simp] theorem takeResponse_inputs : s.takeResponse.inputs = s.inputs := rfl
@[simp] theorem takeResponse_taken : s.takeResponse.taken = s.taken ++ s.rsp.toList := rfl
@[simp] theorem takeResponse_freeCount : s.takeResponse.freeCount = s.freeCount := rfl

/-! ### Hardware reset -/

@[simp] theorem hardwareReset_cfg : s.hardwareReset.cfg = s.cfg := rfl
@[simp] theorem hardwareReset_engine : s.hardwareReset.engine = .unprepared := rfl
@[simp] theorem hardwareReset_faultCause : s.hardwareReset.faultCause = 0#8 := rfl
@[simp] theorem hardwareReset_cr : s.hardwareReset.cr = (resetWith s.cfg).cr := rfl
@[simp] theorem hardwareReset_cs : s.hardwareReset.cs = powerOnChannels s.cfg (s.freeCount + 1) := rfl
@[simp] theorem hardwareReset_ram : s.hardwareReset.ram = [] := rfl
@[simp] theorem hardwareReset_rsp : s.hardwareReset.rsp = none := rfl
@[simp] theorem hardwareReset_inputs : s.hardwareReset.inputs = s.inputs := rfl
@[simp] theorem hardwareReset_taken : s.hardwareReset.taken = s.taken := rfl
@[simp] theorem hardwareReset_freeCount : s.hardwareReset.freeCount = s.freeCount + 1 := rfl

@[simp] theorem resetWith_cfg (cfg : Config) : (resetWith cfg).cfg = cfg := rfl
@[simp] theorem resetWith_engine (cfg : Config) : (resetWith cfg).engine = .unprepared := rfl
@[simp] theorem resetWith_faultCause (cfg : Config) : (resetWith cfg).faultCause = 0#8 := rfl
@[simp] theorem resetWith_cs (cfg : Config) : (resetWith cfg).cs = powerOnChannels cfg 0 := rfl
@[simp] theorem resetWith_ram (cfg : Config) : (resetWith cfg).ram = [] := rfl
@[simp] theorem resetWith_rsp (cfg : Config) : (resetWith cfg).rsp = none := rfl

/-! ### The composed updates -/

@[simp] theorem bufClear_ram : s.bufClear.ram = Memory.zeroFill s.cr.cap s.cr.nch s.ram := rfl
@[simp] theorem bufClear_cs : s.bufClear.cs = s.cs := rfl
@[simp] theorem bufClear_cr : s.bufClear.cr = s.cr := rfl

@[simp] theorem restart_cfg : s.restart.cfg = s.cfg := rfl
@[simp] theorem restart_engine : s.restart.engine = s.engine := rfl
@[simp] theorem restart_faultCause : s.restart.faultCause = s.faultCause := rfl
@[simp] theorem restart_cr : s.restart.cr = s.cr := rfl
@[simp] theorem restart_cs : s.restart.cs = mapFirst s.cr.nch (channelInit s.cfg s.cr) s.cs := rfl
@[simp] theorem restart_ram : s.restart.ram = Memory.zeroFill s.cr.cap s.cr.nch s.ram := rfl
@[simp] theorem restart_rsp : s.restart.rsp = s.rsp := rfl
@[simp] theorem restart_inputs : s.restart.inputs = s.inputs := rfl
@[simp] theorem restart_taken : s.restart.taken = s.taken := rfl
@[simp] theorem restart_freeCount : s.restart.freeCount = s.freeCount := rfl

/-- `CR.*` after a valid `PREPARE` (R120, R181). -/
def configuredRegs (sr : F32) (cap nch : Nat) (cr : Regs) : Regs :=
  deriveDepth (deriveCenter { cr with sr32 := sr, nch := nch, cap := cap })

variable (sr : F32) (cap nch : Nat)

/-- Every write of a valid `PREPARE` in one record update. -/
theorem configure_eq : s.configure sr cap nch =
    { s with
      engine := .prepared
      cr := configuredRegs sr cap nch s.cr
      cs := mapFirst nch (channelInit s.cfg (configuredRegs sr cap nch s.cr)) s.cs
      ram := Memory.zeroFill cap nch s.ram } := rfl

@[simp] theorem configure_cfg : (s.configure sr cap nch).cfg = s.cfg := rfl
@[simp] theorem configure_engine : (s.configure sr cap nch).engine = .prepared := rfl
@[simp] theorem configure_faultCause : (s.configure sr cap nch).faultCause = s.faultCause := rfl
@[simp] theorem configure_cr : (s.configure sr cap nch).cr = configuredRegs sr cap nch s.cr := rfl
@[simp] theorem configure_cs :
    (s.configure sr cap nch).cs = mapFirst nch (channelInit s.cfg (configuredRegs sr cap nch s.cr)) s.cs := rfl
@[simp] theorem configure_ram : (s.configure sr cap nch).ram = Memory.zeroFill cap nch s.ram := rfl
@[simp] theorem configure_rsp : (s.configure sr cap nch).rsp = s.rsp := rfl
@[simp] theorem configure_inputs : (s.configure sr cap nch).inputs = s.inputs := rfl
@[simp] theorem configure_taken : (s.configure sr cap nch).taken = s.taken := rfl
@[simp] theorem configure_freeCount : (s.configure sr cap nch).freeCount = s.freeCount := rfl

@[simp] theorem configuredRegs_sr32 (cr : Regs) : (configuredRegs sr cap nch cr).sr32 = sr := rfl
@[simp] theorem configuredRegs_cap (cr : Regs) : (configuredRegs sr cap nch cr).cap = cap := rfl
@[simp] theorem configuredRegs_nch (cr : Regs) : (configuredRegs sr cap nch cr).nch = nch := rfl
@[simp] theorem configuredRegs_delayMs (cr : Regs) : (configuredRegs sr cap nch cr).delayMs = cr.delayMs := rfl
@[simp] theorem configuredRegs_depthMs (cr : Regs) : (configuredRegs sr cap nch cr).depthMs = cr.depthMs := rfl
@[simp] theorem configuredRegs_mixT (cr : Regs) : (configuredRegs sr cap nch cr).mixT = cr.mixT := rfl
@[simp] theorem configuredRegs_fbT (cr : Regs) : (configuredRegs sr cap nch cr).fbT = cr.fbT := rfl
@[simp] theorem configuredRegs_rateT (cr : Regs) : (configuredRegs sr cap nch cr).rateT = cr.rateT := rfl
@[simp] theorem configuredRegs_center (cr : Regs) : (configuredRegs sr cap nch cr).center =
    fmin (msToSamples cr.delayMs sr) (i2f cap) := rfl
@[simp] theorem configuredRegs_depth (cr : Regs) :
    (configuredRegs sr cap nch cr).depth = msToSamples cr.depthMs sr := rfl

end State

section Sample

variable (c : Nat) (x : F32) (r : Channel) (d : F32) (s : State)

@[simp] theorem sampleTime_cfg : (sampleTime c x r d s).cfg = s.cfg := rfl
@[simp] theorem sampleTime_engine : (sampleTime c x r d s).engine = s.engine := rfl
@[simp] theorem sampleTime_faultCause : (sampleTime c x r d s).faultCause = s.faultCause := rfl
@[simp] theorem sampleTime_cr : (sampleTime c x r d s).cr = s.cr := rfl
@[simp] theorem sampleTime_cs : (sampleTime c x r d s).cs = s.cs.set c (advanceChannel s.cfg s.cr r) := rfl
@[simp] theorem sampleTime_ram : (sampleTime c x r d s).ram =
    bufWrite s.cr.cap s.ram c r.w (writeValue x d (rampNext .lin r.fb).cur) := rfl
@[simp] theorem sampleTime_rsp : (sampleTime c x r d s).rsp =
    some (limit (mixOut (rampNext .lin r.mix).cur x d)) := rfl
@[simp] theorem sampleTime_inputs : (sampleTime c x r d s).inputs = s.inputs := rfl
@[simp] theorem sampleTime_taken : (sampleTime c x r d s).taken = s.taken := rfl
@[simp] theorem sampleTime_freeCount : (sampleTime c x r d s).freeCount = s.freeCount := rfl

end Sample

section Record

variable (cfg : Config) (cr : Regs) (r : Channel)

@[simp] theorem advanceChannel_w : (advanceChannel cfg cr r).w = (r.w + 1) % cr.cap := rfl
@[simp] theorem advanceChannel_fb : (advanceChannel cfg cr r).fb = rampNext .lin r.fb := rfl
@[simp] theorem advanceChannel_mix : (advanceChannel cfg cr r).mix = rampNext .lin r.mix := rfl
@[simp] theorem advanceChannel_rate : (advanceChannel cfg cr r).rate = rampNext .mul r.rate := rfl
@[simp] theorem advanceChannel_hz : (advanceChannel cfg cr r).hz = (rampNext .mul r.rate).cur := rfl
@[simp] theorem advanceChannel_phase :
    (advanceChannel cfg cr r).phase = nextPhase cr.sr32 (rampNext .mul r.rate).cur r.phase := rfl
@[simp] theorem advanceChannel_len : (advanceChannel cfg cr r).len =
    rampNext .lin (rampSetTarget cfg .lin r.len (targetLength cfg cr r)) := rfl
@[simp] theorem advanceChannel_rp : (advanceChannel cfg cr r).rp =
    readPosition cr.cap ((r.w + 1) % cr.cap)
      (rampNext .lin (rampSetTarget cfg .lin r.len (targetLength cfg cr r))).cur := rfl

@[simp] theorem channelInit_w : (channelInit cfg cr r).w = 0 := rfl
@[simp] theorem channelInit_phase : (channelInit cfg cr r).phase = fZero := rfl
@[simp] theorem channelInit_hz : (channelInit cfg cr r).hz = cr.rateT := rfl
@[simp] theorem channelInit_fb : (channelInit cfg cr r).fb = rampInit cr.sr32 cr.fbT cfg.rampTimeFb r.fb := rfl
@[simp] theorem channelInit_mix : (channelInit cfg cr r).mix = rampInit cr.sr32 cr.mixT cfg.rampTimeMix r.mix := rfl
@[simp] theorem channelInit_rate :
    (channelInit cfg cr r).rate = rampInit cr.sr32 cr.rateT cfg.rampTimeRate r.rate := rfl
@[simp] theorem channelInit_len :
    (channelInit cfg cr r).len = rampInit cr.sr32 (startLength cr) cfg.rampTimeLen r.len := rfl
@[simp] theorem channelInit_rp : (channelInit cfg cr r).rp = fsub (i2f cr.cap) (startLength cr) := rfl

@[simp] theorem rampInit_cur (sr v t : F32) (r : Ramp) : (rampInit sr v t r).cur = v := rfl
@[simp] theorem rampInit_tgt (sr v t : F32) (r : Ramp) : (rampInit sr v t r).tgt = v := rfl
@[simp] theorem rampInit_step (sr v t : F32) (r : Ramp) : (rampInit sr v t r).step = r.step := rfl
@[simp] theorem rampInit_rem (sr v t : F32) (r : Ramp) : (rampInit sr v t r).rem = 0 := rfl
@[simp] theorem rampInit_N (sr v t : F32) (r : Ramp) : (rampInit sr v t r).N = rampLength t sr := rfl

end Record

end Sys2Proof.Machine
end

