-- ==== Sys2Proof/Laws/Commands.lean ====
section
/-! SUPPORT. Laws/Commands: one lemma per shared operation and per command that says everything it can do; later proofs cite it
and do not unfold the operation. -/

namespace Sys2Proof.Machine

/-! ### The checks -/

/-- What `require_prepared` can answer (R129). -/
theorem requirePrepared_cases {s t : State} {k : Result} (h : requirePrepared s k = .next t) :
    (s.engine = .faulted ∧ t = s) ∨ (s.engine = .unprepared ∧ t = s.raise .notPrepared) ∨
      (s.engine = .prepared ∧ k = .next t) := by
  unfold requirePrepared at h
  split at h
  · cases h; exact Or.inl ⟨‹_›, rfl⟩
  · cases h; exact Or.inr (Or.inl ⟨‹_›, rfl⟩)
  · exact Or.inr (Or.inr ⟨‹_›, h⟩)

theorem requirePrepared_of_prepared {s : State} (h : s.engine = .prepared) (k : Result) : requirePrepared s k = k := by
  simp [requirePrepared, h]

theorem requirePrepared_of_faulted {s : State} (h : s.engine = .faulted) (k : Result) :
    requirePrepared s k = .next s := by simp [requirePrepared, h]

theorem requirePrepared_of_unprepared {s : State} (h : s.engine = .unprepared) (k : Result) :
    requirePrepared s k = .next (s.raise .notPrepared) := by simp [requirePrepared, h]

theorem checkValue_of_nan {v : F32} (h : isNaN v = true) (s k : State) : checkValue v s k = s.raise .badValue := by
  simp [checkValue, h]

theorem checkValue_of_not_nan {v : F32} (h : isNaN v = false) (s k : State) : checkValue v s k = k := by
  simp [checkValue, h]

theorem channelInRange_iff (nch : Nat) (c : Int) : channelInRange nch c = true ↔ 0 ≤ c ∧ c < nch := by
  simp [channelInRange]

theorem inputInRange_iff (x : F32) :
    inputInRange x = true ↔ isFinite x = true ∧ value fNegOne ≤ value x ∧ value x ≤ value fOne := by
  simp [inputInRange, and_assoc]

theorem prepareOperandsOk_iff (cfg : Config) (sr : F64) (ch : Int) :
    prepareOperandsOk cfg sr ch = true ↔
      isFinite64 sr = true ∧ (2 ≤ dceil sr ∧ dceil sr ≤ cfg.capMax) ∧ (1 ≤ ch ∧ ch ≤ cfg.chMax) := by
  simp [prepareOperandsOk, and_assoc]

/-! ### The ramp -/

/-- What `ramp_setTarget` can do (R92). -/
theorem rampSetTarget_cases (cfg : Config) (mode : RampMode) (r : Ramp) (v : F32) :
    (feq v r.tgt = true ∧ rampSetTarget cfg mode r v = r) ∨
    (feq v r.tgt = false ∧ r.N = 0 ∧ rampSetTarget cfg mode r v = { r with tgt := v, cur := v, rem := 0 }) ∨
    (feq v r.tgt = false ∧ 0 < r.N ∧
      rampSetTarget cfg mode r v = { r with tgt := v, rem := r.N, step := rampStep cfg mode r v }) := by
  unfold rampSetTarget
  cases h : feq v r.tgt
  · by_cases hN : r.N = 0
    · exact Or.inr (Or.inl ⟨rfl, hN, by simp [hN]⟩)
    · exact Or.inr (Or.inr ⟨rfl, by omega, by simp [hN]⟩)
  · exact Or.inl ⟨rfl, by simp⟩

/-- What `ramp_next` can do (R93). -/
theorem rampNext_cases (mode : RampMode) (r : Ramp) :
    (r.rem = 0 ∧ rampNext mode r = r) ∨
    (r.rem = 1 ∧ rampNext mode r = { r with rem := 0, cur := r.tgt }) ∨
    (2 ≤ r.rem ∧ rampNext mode r = { r with rem := r.rem - 1, cur := rampMove mode r }) := by
  unfold rampNext
  by_cases h0 : r.rem = 0
  · exact Or.inl ⟨h0, by simp [h0]⟩
  · by_cases h1 : r.rem = 1
    · exact Or.inr (Or.inl ⟨h1, by simp [h1]⟩)
    · exact Or.inr (Or.inr ⟨by omega, by simp [h0, h1]⟩)

@[simp] theorem rampNext_tgt (mode : RampMode) (r : Ramp) : (rampNext mode r).tgt = r.tgt := by
  rcases rampNext_cases mode r with ⟨-, h⟩ | ⟨-, h⟩ | ⟨-, h⟩ <;> rw [h]

@[simp] theorem rampNext_N (mode : RampMode) (r : Ramp) : (rampNext mode r).N = r.N := by
  rcases rampNext_cases mode r with ⟨-, h⟩ | ⟨-, h⟩ | ⟨-, h⟩ <;> rw [h]

@[simp] theorem rampNext_step (mode : RampMode) (r : Ramp) : (rampNext mode r).step = r.step := by
  rcases rampNext_cases mode r with ⟨-, h⟩ | ⟨-, h⟩ | ⟨-, h⟩ <;> rw [h]

@[simp] theorem rampNext_rem (mode : RampMode) (r : Ramp) : (rampNext mode r).rem = r.rem - 1 := by
  rcases rampNext_cases mode r with ⟨h0, h⟩ | ⟨h0, h⟩ | ⟨h0, h⟩ <;> rw [h]
  · omega
  · simp [h0]

/-- The value a guarded step leaves is a bound of the ramp or lies on the near side of it: `rampMove` answers the moved
value or the target. -/
theorem rampMove_cases (mode : RampMode) (r : Ramp) :
    (rampMove mode r = r.tgt) ∨
    (rampMove mode r = match mode with | .lin => fadd r.cur r.step | .mul => fmul r.cur r.step) := by
  cases mode <;> simp only [rampMove] <;> split
  · rcases fminOrTarget (fadd r.cur r.step) r.tgt with h | h <;> simp [h]
  · rcases fmaxOrTarget (fadd r.cur r.step) r.tgt with h | h <;> simp [h]
  · rcases fminOrTarget (fmul r.cur r.step) r.tgt with h | h <;> simp [h]
  · rcases fmaxOrTarget (fmul r.cur r.step) r.tgt with h | h <;> simp [h]
where
  fminOrTarget (a b : F32) : fmin a b = a ∨ fmin a b = b := Sys2Proof.Laws.fmin_cases a b
  fmaxOrTarget (a b : F32) : fmax a b = a ∨ fmax a b = b := Sys2Proof.Laws.fmax_cases a b

/-! ### The delay buffer -/

/-- A read at a position finds both taps and blends them (R113). -/
theorem bufReadInterpolated_eq_some {cap : Nat} {m : Memory} {c : Nat} {p d : F32} :
    bufReadInterpolated cap m c p = some d ↔
      ∃ a b, bufRead cap m c (tapIndex cap p) = some a ∧ bufRead cap m c ((tapIndex cap p : Int) + 1) = some b ∧
        d = interpolate (fsub p (ffloor p)) a b := by
  unfold bufReadInterpolated
  cases bufRead cap m c (tapIndex cap p) <;> cases bufRead cap m c ((tapIndex cap p : Int) + 1) <;>
    simp [eq_comm]

theorem wf_bufWrite {m : Memory} (h : Memory.wf m = true) (cap c : Nat) (k : Int) (v : F32) :
    Memory.wf (bufWrite cap m c k v) = true := Memory.wf_write h _ _

/-! ### The commands -/

/-- What `PREPARE` can do (R120). -/
theorem execPrepare_cases {sr : F64} {block ch : Int} {s t : State} (h : execPrepare sr block ch s = .next t) :
    (s.engine = .faulted ∧ t = s) ∨
    (s.engine ≠ .faulted ∧ prepareOperandsOk s.cfg sr ch = true ∧
      t = s.configure (d2f sr) (dceil sr).toNat ch.toNat) ∨
    (s.engine ≠ .faulted ∧ prepareOperandsOk s.cfg sr ch = false ∧ t = s.raise .badConfig) := by
  unfold execPrepare at h
  split at h
  · injection h with h; exact Or.inl ⟨‹_›, h.symm⟩
  · split at h
    · injection h with h; exact Or.inr (Or.inl ⟨‹_›, ‹_›, h.symm⟩)
    · rename_i h1 h2
      injection h with h; exact Or.inr (Or.inr ⟨h1, by simpa using h2, h.symm⟩)

/-- What the nine steps can answer (R140). -/
theorem runSample_next_iff {c : Nat} {x : F32} {s t : State} :
    runSample c x s = .next t ↔
      ∃ r d, s.cs[c]? = some r ∧ bufReadInterpolated s.cr.cap s.ram c r.rp = some d ∧ t = sampleTime c x r d s := by
  unfold runSample
  cases h : s.cs[c]? with
  | none => simp
  | some r =>
    cases h2 : bufReadInterpolated s.cr.cap s.ram c r.rp with
    | none => simp [h2]
    | some d => simp [h2, eq_comm]

/-- What `PROCESS_SAMPLE` can do (R140). -/
theorem execProcessSample_cases {ch : Int} {x : F32} {s t : State} (h : execProcessSample ch x s = .next t) :
    (s.engine = .faulted ∧ t = s) ∨ (s.engine = .unprepared ∧ t = s.raise .notPrepared) ∨
    (s.engine = .prepared ∧ channelInRange s.cr.nch ch = false ∧ t = s.raise .badChannel) ∨
    (s.engine = .prepared ∧ channelInRange s.cr.nch ch = true ∧ inputInRange x = false ∧ t = s.raise .badInput) ∨
    (s.engine = .prepared ∧ channelInRange s.cr.nch ch = true ∧ inputInRange x = true ∧
      runSample ch.toNat x s = .next t) := by
  unfold execProcessSample at h
  rcases requirePrepared_cases h with h1 | h1 | ⟨h1, h2⟩
  · exact Or.inl h1
  · exact Or.inr (Or.inl h1)
  · right; right
    cases hc : channelInRange s.cr.nch ch
    · rw [hc] at h2; simp only [Bool.false_eq_true, if_false] at h2; injection h2 with h2
      exact Or.inl ⟨h1, rfl, h2.symm⟩
    · rw [hc, if_pos rfl] at h2
      cases hx : inputInRange x
      · rw [hx] at h2; simp only [Bool.false_eq_true, if_false] at h2; injection h2 with h2
        exact Or.inr (Or.inl ⟨h1, rfl, rfl, h2.symm⟩)
      · rw [hx, if_pos rfl] at h2
        exact Or.inr (Or.inr ⟨h1, rfl, rfl, h2⟩)

/-- What a `SET_*` command with state write `k` can do. -/
theorem setCommand_cases {v : F32} {s t k : State} (h : requirePrepared s (.next (checkValue v s k)) = .next t) :
    (s.engine = .faulted ∧ t = s) ∨ (s.engine = .unprepared ∧ t = s.raise .notPrepared) ∨
    (s.engine = .prepared ∧ isNaN v = true ∧ t = s.raise .badValue) ∨
    (s.engine = .prepared ∧ isNaN v = false ∧ t = k) := by
  rcases requirePrepared_cases h with h1 | h1 | ⟨h1, h2⟩
  · exact Or.inl h1
  · exact Or.inr (Or.inl h1)
  · injection h2 with h2
    right; right
    cases hv : isNaN v
    · rw [checkValue_of_not_nan hv] at h2; exact Or.inr ⟨h1, rfl, h2.symm⟩
    · rw [checkValue_of_nan hv] at h2; exact Or.inl ⟨h1, rfl, h2.symm⟩

/-- A command either leaves the state as it is (`Faulted`), or raises, or does what its meaning writes in a state that is
not `Faulted`: no command leaves `Faulted`. -/
theorem exec_of_faulted {s : State} (h : s.engine = .faulted) (i : Instr) : exec i s = .next s := by
  cases i <;> simp only [exec, execReset, execSetDelayTimeMs, execSetMix, execSetFeedback, execSetLfoRateHz,
    execSetLfoDepthMs, execProcessSample, requirePrepared_of_faulted h]
  simp [execPrepare, h]

/-! ### The ports -/

/-- What a step can do: idle, reset, or a cycle of the ports between commands. -/
theorem step_cases (s : State) :
    (s.inputs = [] ∧ step s = .next s) ∨
    ∃ p rest, s.inputs = p :: rest ∧
      ((p.rstN = false ∧ step s = .next (State.hardwareReset { s with inputs := rest })) ∨
       (p.rstN = true ∧ p.rspReady = false ∧ s.rsp.isSome = true ∧ step s = .next { s with inputs := rest }) ∨
       (p.rstN = true ∧ (s.rsp = none ∨ p.rspReady = true) ∧
          step s = (let u := { s with inputs := rest, rsp := none, taken := s.taken ++ s.rsp.toList }
            if p.cmdValid then runCommand p.cmdData u else .next u))) := by
  cases hin : s.inputs with
  | nil => left; simp [step, clock, hin]
  | cons p rest =>
    right
    refine ⟨p, rest, rfl, ?_⟩
    cases hrst : p.rstN
    · left; simp [step, clock, hin, cycle, hrst]
    · right
      cases hready : p.rspReady
      · cases hrsp : s.rsp with
        | none =>
          right
          refine ⟨rfl, Or.inl rfl, ?_⟩
          simp [step, clock, hin, cycle, hrst, hready, cmdReady, rspValid, hrsp]
        | some v =>
          left
          simp [step, clock, hin, cycle, hrst, hready, cmdReady, rspValid, hrsp]
      · right
        refine ⟨rfl, Or.inr rfl, ?_⟩
        simp only [step, clock, hin, cycle, hrst, hready, cmdReady, State.takeResponse]
        simp

/-- A word the decoder reads runs its command (R58). -/
theorem runCommand_of_ok {w : CmdWord} {i : Instr} (h : decode w = .ok i) (s : State) : runCommand w s = exec i s := by
  simp [runCommand, h]

/-- A word the decoder rejects raises `ILLEGAL_COMMAND`, ignored in `Faulted` (R162). -/
theorem runCommand_of_error {w : CmdWord} {e : DecodeError} (h : decode w = .error e) (s : State) :
    runCommand w s = .next (if s.engine = .faulted then s else s.raise .illegalCommand) := by
  simp [runCommand, h, illegalCommand]

end Sys2Proof.Machine
end

