-- ==== Sys2Proof/Laws/PerInstr.lean ====
section
/-! SUPPORT. Laws/PerInstr: statements about every command as syntax, one lemma per constructor. -/

namespace Sys2Proof.Laws

/-! ### The five fields of a command word (R71) -/

theorem fieldOp_wordOfFields (op : BitVec 8) (p0 p1 : BitVec 32) (p2 : BitVec 64) :
    fieldOp (wordOfFields op p0 p1 p2) = op := by
  unfold fieldOp wordOfFields
  ext i hi
  rw [BitVec.getElem_extractLsb', BitVec.getLsbD_append]
  simp [hi]

theorem fieldRsv_wordOfFields (op : BitVec 8) (p0 p1 : BitVec 32) (p2 : BitVec 64) :
    fieldRsv (wordOfFields op p0 p1 p2) = 0#24 := by
  unfold fieldRsv wordOfFields
  ext i hi
  rw [BitVec.getElem_extractLsb', BitVec.getLsbD_append, BitVec.getLsbD_append]
  simp [hi]

theorem fieldP0_wordOfFields (op : BitVec 8) (p0 p1 : BitVec 32) (p2 : BitVec 64) :
    fieldP0 (wordOfFields op p0 p1 p2) = p0 := by
  unfold fieldP0 wordOfFields
  ext i hi
  rw [BitVec.getElem_extractLsb', BitVec.getLsbD_append, BitVec.getLsbD_append, BitVec.getLsbD_append]
  simp [hi, show ¬ 32 + i < 8 by omega, show ¬ 32 + i - 8 < 24 by omega, show 32 + i - 8 - 24 = i by omega]

theorem fieldP1_wordOfFields (op : BitVec 8) (p0 p1 : BitVec 32) (p2 : BitVec 64) :
    fieldP1 (wordOfFields op p0 p1 p2) = p1 := by
  unfold fieldP1 wordOfFields
  ext i hi
  rw [BitVec.getElem_extractLsb', BitVec.getLsbD_append, BitVec.getLsbD_append, BitVec.getLsbD_append,
    BitVec.getLsbD_append]
  simp [hi, show ¬ 64 + i < 8 by omega, show ¬ 64 + i - 8 < 24 by omega, show ¬ 64 + i - 8 - 24 < 32 by omega,
    show 64 + i - 8 - 24 - 32 = i by omega]

theorem fieldP2_wordOfFields (op : BitVec 8) (p0 p1 : BitVec 32) (p2 : BitVec 64) :
    fieldP2 (wordOfFields op p0 p1 p2) = p2 := by
  unfold fieldP2 wordOfFields
  ext i hi
  rw [BitVec.getElem_extractLsb', BitVec.getLsbD_append, BitVec.getLsbD_append, BitVec.getLsbD_append,
    BitVec.getLsbD_append]
  simp [show ¬ 96 + i < 8 by omega, show ¬ 96 + i - 8 < 24 by omega, show ¬ 96 + i - 8 - 24 < 32 by omega,
    show ¬ 96 + i - 8 - 24 - 32 < 32 by omega, show 96 + i - 8 - 24 - 32 - 32 = i by omega,
    BitVec.getLsbD_eq_getElem hi]

/-! ### Every encoded command has its opcode and a zero reserved field (R72, R75) -/

namespace EncodeFields

/-- The opcode the table of R72 gives a command. -/
def opcode : Instr → BitVec 8
  | .prepare _ _ _ => 0x01#8
  | .reset => 0x02#8
  | .setDelayTimeMs _ => 0x10#8
  | .setMix _ => 0x11#8
  | .setFeedback _ => 0x12#8
  | .setLfoRateHz _ => 0x13#8
  | .setLfoDepthMs _ => 0x14#8
  | .processSample _ _ => 0x20#8

/-- The encoding has the row's opcode and a zero `RSV`. -/
def Statement (i : Instr) : Prop := fieldOp (encode i) = opcode i ∧ fieldRsv (encode i) = 0#24

theorem prepare (sr : F64) (block ch : Int) : Statement (.prepare sr block ch) :=
  ⟨fieldOp_wordOfFields _ _ _ _, fieldRsv_wordOfFields _ _ _ _⟩

theorem reset : Statement .reset := ⟨fieldOp_wordOfFields _ _ _ _, fieldRsv_wordOfFields _ _ _ _⟩

theorem setDelayTimeMs (v : F32) : Statement (.setDelayTimeMs v) :=
  ⟨fieldOp_wordOfFields _ _ _ _, fieldRsv_wordOfFields _ _ _ _⟩

theorem setMix (v : F32) : Statement (.setMix v) := ⟨fieldOp_wordOfFields _ _ _ _, fieldRsv_wordOfFields _ _ _ _⟩

theorem setFeedback (v : F32) : Statement (.setFeedback v) :=
  ⟨fieldOp_wordOfFields _ _ _ _, fieldRsv_wordOfFields _ _ _ _⟩

theorem setLfoRateHz (v : F32) : Statement (.setLfoRateHz v) :=
  ⟨fieldOp_wordOfFields _ _ _ _, fieldRsv_wordOfFields _ _ _ _⟩

theorem setLfoDepthMs (v : F32) : Statement (.setLfoDepthMs v) :=
  ⟨fieldOp_wordOfFields _ _ _ _, fieldRsv_wordOfFields _ _ _ _⟩

theorem processSample (ch : Int) (x : F32) : Statement (.processSample ch x) :=
  ⟨fieldOp_wordOfFields _ _ _ _, fieldRsv_wordOfFields _ _ _ _⟩

end EncodeFields

end Sys2Proof.Laws
end

