-- ==== Sys2Proof/Tests/Slice0.lean ====
section
/-! SUPPORT. Tests/Slice0: the model's own tests.  Expected values come from spec/95_test_vectors.md (ids in the comments) and
from the encodings of spec/30_encoding.md; and one witness per statement with hypotheses. -/

namespace Sys2Proof.Tests

-- One proof at a time: a hundred evaluations by the kernel at once would each hold a thread.
set_option Elab.async false

open Sys2Proof.Machine

/-! ### Small states: the toy configuration of spec/95_test_vectors.md section 0 -/

/-- The toy configuration, with the reference values of `SIN` and `ROOT` the tests use.  Its `EPS_SIN` is one that every `SIN`
meets, so that nothing has to be known of the phases the table does not list. -/
def toy : Config :=
  { capMax := 262144, chMax := 2, rampTimeFb := fHalf, rampTimeMix := fHalf, rampTimeRate := fHalf,
    rampTimeLen := fHalf, rateMinHz := 0x3C800000#32, epsSin := 2,
    sinTable := [(0x3FC90FDB#32, fOne), (0x40490FDB#32, 0xB3BBBD2E#32)],
    rootTable := [((0x43000000#32, 4), 0x405744FD#32)] }

/-- A ramp `cur/tgt/rem` of length 4. -/
def ramp (cur tgt : F32) (rem : Nat) (step : F32 := fZero) : Ramp :=
  { cur := cur, tgt := tgt, step := step, rem := rem, N := 4 }

/-- The record PR1 leaves. -/
def record : Channel :=
  { w := 0, rp := 0x40E00000#32, phase := fZero, hz := 0x3C800000#32, fb := ramp fZero fZero 0,
    mix := ramp fZero fZero 0, rate := ramp 0x3C800000#32 0x3C800000#32 0, len := ramp fOne fOne 0 }

/-- A RAM of two channels of 8 zeros. -/
def zeros : Memory := Memory.zeroFill 8 2 []

/-- PR1 with two channels: `Prepared`, sample rate 8. -/
def pr1 : State :=
  { cfg := toy, engine := .prepared, faultCause := 0#8,
    cr := { sr32 := 0x41000000#32, cap := 8, nch := 2, delayMs := fZero, center := fZero, depthMs := fZero,
            depth := fZero, mixT := fZero, fbT := fZero, rateT := 0x3C800000#32 },
    cs := [record, record], ram := zeros, rsp := none, inputs := [], taken := [], freeCount := 0 }

/-- Before `PREPARE`. -/
def fresh : State := { pr1 with engine := .unprepared, cr := (State.resetWith toy).cr, ram := [] }

/-- After a violation. -/
def dead : State := { fresh with engine := .faulted, faultCause := 0x02#8 }

/-- PS2: mix 0.5, feedback 0.5, 4.25 samples of delay, history 1, -1 under the read position. -/
def ps2 : State :=
  { pr1 with
    cr := { pr1.cr with delayMs := 0x4404D000#32, center := 0x40880000#32, mixT := fHalf, fbT := fHalf }
    cs := [{ record with
        w := 3, rp := 0x40D80000#32, mix := ramp fHalf fHalf 0, fb := ramp fHalf fHalf 0,
        len := ramp 0x40880000#32 0x40880000#32 0 },
      { record with mix := ramp fHalf fHalf 0, fb := ramp fHalf fHalf 0 }]
    ram := Memory.write (Memory.write zeros (loc 0 6) fOne) (loc 0 7) fNegOne }

/-- Four samples of delay, mix 1, settled, from a zero history (the state of P1 after `RESET`, feedback 0). -/
def echo : State :=
  { pr1 with
    cr := { pr1.cr with delayMs := 0x43FA0000#32, center := 0x40800000#32, mixT := fOne }
    cs := [{ record with rp := 0x40800000#32, mix := ramp fOne fOne 0, len := ramp 0x40800000#32 0x40800000#32 0 },
      { record with mix := ramp fOne fOne 0 }] }

/-- The next state, if there is one. -/
def after : Result → Option State
  | .next t => some t
  | _ => none

/-- Channel 0 of the next state. -/
def channel0 (r : Result) : Option Channel := (after r).bind fun t => t.cs[0]?

/-- What a word does to `STATE` and `FAULT_CAUSE`. -/
def verdict (w : CmdWord) (s : State) : Option (EngineState × BitVec 8) :=
  (after (runCommand w s)).map fun t => (t.engine, t.faultCause)

/-! ### Well-formedness: an ill-formed term for each check (R73) -/

theorem test_wellFormed_prepare_block : (Instr.prepare 0#64 2147483648 1).wellFormed = false := by decide
theorem test_wellFormed_prepare_channels : (Instr.prepare 0#64 0 (-2147483649)).wellFormed = false := by decide
theorem test_wellFormed_processSample : (Instr.processSample 2147483648 0#32).wellFormed = false := by decide
theorem test_wellFormed_extremes : (Instr.prepare 0#64 (-2147483648) 2147483647).wellFormed = true := by decide

/-! ### Decoding: words of spec/95_test_vectors.md section 2.5 -/

theorem test_decode_prepare :
    decode 0x40E5889000000000000002000000000200000001#160 = .ok (.prepare 0x40E5889000000000#64 512 2) := by decide
theorem test_decode_prepare_negative :
    decode 0x4020000000000000FFFFFFF9FFFFFFFF00000001#160 = .ok (.prepare 0x4020000000000000#64 (-7) (-1)) := by decide
theorem test_decode_reset : decode 0x02#160 = .ok .reset := by decide
theorem test_decode_setDelayTimeMs :
    decode 0x000000000000000043FA00000000000000000010#160 = .ok (.setDelayTimeMs 0x43FA0000#32) := by decide
theorem test_decode_setMix :
    decode 0x00000000000000003F0000000000000000000011#160 = .ok (.setMix 0x3F000000#32) := by decide
theorem test_decode_setFeedback :
    decode 0x00000000000000003F8000000000000000000012#160 = .ok (.setFeedback 0x3F800000#32) := by decide
theorem test_decode_setLfoRateHz : decode 0x13#160 = .ok (.setLfoRateHz 0#32) := by decide
theorem test_decode_setLfoDepthMs :
    decode 0x000000000000000042FA00000000000000000014#160 = .ok (.setLfoDepthMs 0x42FA0000#32) := by decide
theorem test_decode_processSample :
    decode 0x00000000000000003E800000FFFFFFFF00000020#160 = .ok (.processSample (-1) 0x3E800000#32) := by decide
theorem test_decode_all_zero : decode 0#160 = .error .reservedOpcode := by decide
theorem test_decode_reserved_field :
    decode 0x4020000000000000000000040000000180000001#160 = .error .reservedFieldNonzero := by decide
theorem test_decode_reset_minus_zero :
    decode 0x0000000000000000800000000000000000000002#160 = .error .unusedSlotNonzero := by decide
theorem test_decode_processSample_p2 :
    decode 0x80000000000000003E8000000000000000000020#160 = .error .unusedSlotNonzero := by decide
theorem test_decode_beats : decode (wordOfBeats 0x10#32 0#32 0x43FA0000#32 0#32 0#32) =
    .ok (.setDelayTimeMs 0x43FA0000#32) := by decide
theorem test_decodeTableWord_short : decodeTableWord 8 0x02 = some .reset := by decide

/-! ### Number primitives (section 2.1) -/

theorem test_fadd_even : fadd 0x3F7FFFFF#32 0x33CC0000#32 = 0x3F800000#32 := by decide +kernel
theorem test_fmul_rounds : fmul 0x3DCCCCCD#32 0x41000000#32 = 0x3F4CCCCD#32 := by decide +kernel
theorem test_fdiv_third : fdiv fOne 0x40400000#32 = 0x3EAAAAAB#32 := by decide +kernel
theorem test_clamp_minus_zero : clamp fNegZero fZero fThousand = fZero := by decide +kernel
theorem test_clamp_infinity : clamp 0xFF800000#32 fZero fOne = fZero := by decide +kernel
theorem test_dceil : dceil 0x40E5889000000000#64 = 44101 ∧ dceil 0xC020000000000000#64 = -8 := by decide +kernel
theorem test_d2f : d2f 0x40E58883F35BA6E7#64 = 0x472C4420#32 := by decide +kernel

/-! ### Ramps, oscillator, buffer (sections 2.2 to 2.4) -/

/-- RL7: the target it has already, half-way: nothing changes. -/
theorem test_ramp_same_target :
    rampSetTarget toy .lin (ramp 0x3E800000#32 fOne 3 0x3E800000#32) fOne = ramp 0x3E800000#32 fOne 3 0x3E800000#32 := by
  decide +kernel
/-- RG3: a step of -0 with the target below. -/
theorem test_ramp_minus_zero_step :
    (rampNext .lin (ramp fOne 0x3F7FFFFF#32 2 fNegZero)).cur = 0x3F7FFFFF#32 := by decide +kernel
/-- RM1: 0.25 on the way from 0.125 to 2 with factor 2. -/
theorem test_ramp_mul : (rampNext .mul (ramp 0x3E000000#32 fTwo 4 fTwo)).cur = 0x3E800000#32 := by decide +kernel
/-- O3, fourth call: two subtractions. -/
theorem test_phase_two_turns : nextPhase 0x41000000#32 fTen 0x4096CBE5#32 = 0x35800000#32 := by decide +kernel
/-- B2: the pair wraps round the end. -/
theorem test_interpolated_wraps :
    bufReadInterpolated 8 (Memory.write (Memory.write [] 7 0x3F000000#32) 0 0xBF000000#32) 0 0x40E80000#32
      = some 0x3E800000#32 := by decide +kernel

/-! ### Commands (sections 2.6 to 2.9) -/

/-- PR1. -/
theorem test_prepare :
    (channel0 (exec (.prepare 0x4020000000000000#64 4 1) fresh)).map
      (fun r => (r.w, r.rp, r.len.cur, r.len.N)) = some (0, 0x40E00000#32, fOne, 4) := by decide +kernel
/-- PR9: one word too many. -/
theorem test_prepare_too_big :
    verdict 0x4110000200000000000000040000000100000001#160 fresh = some (.faulted, 0x04#8) := by decide +kernel
/-- RESET: history cleared, cursor back, ramp snapped. -/
theorem test_reset :
    (channel0 (exec .reset { ps2 with cs := ps2.cs.map fun r => { r with w := 5, mix := ramp fZero fHalf 2 } })).map
      (fun r => (r.w, r.rp, r.mix.cur, r.mix.rem)) = some (0, 0x40700000#32, fHalf, 0) := by decide +kernel
theorem test_reset_clears : (after (exec .reset ps2)).map (fun t => decide (t.ram = zeros)) = some true := by
  decide +kernel
/-- ST1. -/
theorem test_setDelayTimeMs :
    (after (exec (.setDelayTimeMs 0x43FA0000#32) pr1)).map (fun t => (t.cr.delayMs, t.cr.center)) =
      some (0x43FA0000#32, 0x40800000#32) := by decide +kernel
/-- ST4. -/
theorem test_setDelayTimeMs_infinity :
    (after (exec (.setDelayTimeMs 0x7F800000#32) pr1)).map (fun t => (t.cr.delayMs, t.cr.center)) =
      some (0x447A0000#32, 0x41000000#32) := by decide +kernel
/-- ST5. -/
theorem test_setMix :
    (channel0 (exec (.setMix fOne) pr1)).map (fun r => r.mix) = some (ramp fZero fOne 4 0x3E800000#32) := by
  decide +kernel
/-- ST7. -/
theorem test_setMix_negative : after (exec (.setMix 0xBE800000#32) pr1) = some pr1 := by decide +kernel
/-- ST9. -/
theorem test_setFeedback :
    (channel0 (exec (.setFeedback fOne) pr1)).map (fun r => r.fb) = some (ramp fZero 0x3F733333#32 4 0x3E733333#32) := by
  decide +kernel
/-- ST11. -/
theorem test_setLfoRateHz :
    (channel0 (exec (.setLfoRateHz fTwo) pr1)).map (fun r => r.rate) =
      some (ramp 0x3C800000#32 fTwo 4 0x405744FD#32) := by decide +kernel
/-- ST13. -/
theorem test_setLfoRateHz_zero : after (exec (.setLfoRateHz fZero) pr1) = some pr1 := by decide +kernel
/-- ST15 and ST14. -/
theorem test_setLfoDepthMs :
    (after (exec (.setLfoDepthMs 0x42FA0000#32) pr1)).map (fun t => (t.cr.depthMs, t.cr.depth)) =
      some (fTen, 0x3DA3D70A#32) := by decide +kernel
/-- PS2. -/
theorem test_processSample :
    (after (exec (.processSample 0 0x3F400000#32) ps2)).map
      (fun t => (t.rsp, Memory.read t.ram (loc 0 3), (t.cs[0]?).map fun r => (r.w, r.rp))) =
      some (some 0x3E800000#32, some fHalf, some (4, 0x40F80000#32)) := by decide +kernel
/-- PS5, first sample: the position rounds up to the capacity. -/
theorem test_processSample_position_rounds_up :
    readPosition 8 1 0x3F800001#32 = 0x41000000#32 := by decide +kernel
/-- X10 and X11: state before operands, channel before input. -/
theorem test_violation_order :
    verdict 0x00000000000000007FC000000000000500000020#160 fresh = some (.faulted, 0x02#8) ∧
    verdict 0x00000000000000007FC000000000000500000020#160 pr1 = some (.faulted, 0x03#8) := by decide +kernel
/-- X12: decode before state.  X7: input above 1. -/
theorem test_violation_decode_and_input :
    verdict 0x00000000000000007FC000000000000100000011#160 fresh = some (.faulted, 0x01#8) ∧
    verdict 0x00000000000000003F8000010000000000000020#160 pr1 = some (.faulted, 0x06#8) := by decide +kernel
/-- X5 and X6: NaN is rejected, an infinity is not. -/
theorem test_set_operands :
    verdict 0x00000000000000007FC000000000000000000010#160 pr1 = some (.faulted, 0x05#8) ∧
    verdict 0x00000000000000007F8000000000000000000010#160 pr1 = some (.prepared, 0x00#8) := by decide +kernel

/-- From reset with nothing presented the block idles; a command presented runs in the next step. -/
theorem test_step_idle : step State.reset = .next State.reset := rfl
theorem test_step_runs_presented (s : State) (h : s.rsp = none) (w : CmdWord) :
    step (presentCommand w s) = runCommand w s := by
  cases s; subst h
  simp [step, clock, presentCommand, cycle, commandCycle, cmdReady, rspValid, State.takeResponse]

/-! ### Witnesses: a concrete state and operands that meet the hypotheses of each statement -/

theorem toy_sinErr : toy.SinErr := Config.sinErr_of_two_le (le_refl _)
theorem toy_admissible : toy.Admissible := ⟨by decide +kernel, toy_sinErr⟩
theorem inv_pr1 : Inv pr1 := Laws.inv_of_check toy_sinErr (by decide +kernel)
theorem inv_ps2 : Inv ps2 := Laws.inv_of_check toy_sinErr (by decide +kernel)
theorem inv_echo : Inv echo := Laws.inv_of_check toy_sinErr (by decide +kernel)

/-- PS2 after a violation: channels are live in a `Faulted` engine. -/
def ps2Faulted : State := ps2.raise .badInput

theorem inv_ps2Faulted : Inv ps2Faulted := Laws.inv_of_check toy_sinErr (by decide +kernel)

/-- DecodeOfEncode. -/
theorem witness_decodeOfEncode : (Instr.processSample (-2147483648) 0x7FC00000#32).wellFormed = true := by decide

/-- DecodeMatchesOpcodeTable, EncodeOfDecode: one word per row is in the decode tests above. -/
theorem witness_encodeOfDecode : decode 0x20#160 = .ok (.processSample 0 0#32) := by decide

/-- IllegalWordsRaiseIllegalCommand: a word for each clause, at the ends of each range. -/
theorem witness_illegalWords :
    [0x00#160, 0x03#160, 0x0F#160, 0x15#160, 0x1F#160, 0x21#160, 0xFF#160, 0x102#160, 0x80000001#160,
      0x0000000000000000000000000000000100000002#160, 0x0000000000000000800000000000000000000002#160,
      0x0000000000000001000000000000000000000002#160, 0x0000000000000000000000000000000100000010#160,
      0x0000000000000001000000000000000000000014#160, 0x8000000000000000000000000000000000000020#160].map
      (fun w => (verdict w fresh, verdict w pr1, verdict w dead)) =
    List.replicate 15 (some (.faulted, 0x01#8), some (.faulted, 0x01#8), some (.faulted, 0x02#8)) := by decide +kernel

/-- StepRunsDecodedCommand: a waiting response that the host takes in the same cycle; a legal word and an illegal one. -/
theorem witness_stepRuns :
    (let s := { pr1 with rsp := some fOne, inputs := [commandCycle 0x02#160] }
     s.inputs = commandCycle 0x02#160 :: [] ∧ (commandCycle 0x02#160).rstN = true ∧
      (commandCycle 0x02#160).cmdValid = true ∧ (commandCycle 0x02#160).rspReady = true ∧
      decode (commandCycle 0x02#160).cmdData = .ok .reset) ∧
    (commandCycle 0x03#160).cmdValid = true ∧ decode (commandCycle 0x03#160).cmdData = .error .reservedOpcode := by decide

/-- A cycle in which the host presents `RESET` and does not take the response. -/
def stalled : PortCycle := { commandCycle 0x02#160 with rspReady := false }

/-- WaitingResponseBlocksCommands, NoCommandNoChange (with a response that is taken and one that is not),
HardwareResetReturnsToPowerOn. -/
theorem witness_portCycles :
    (let s := { pr1 with rsp := some fOne, inputs := [stalled] }
     s.inputs = stalled :: [] ∧ stalled.rstN = true ∧ s.rsp = some fOne ∧ stalled.rspReady = false) ∧
    (let p := { stalled with cmdValid := false }
     ({ pr1 with inputs := [p] } : State).inputs = p :: [] ∧ p.rstN = true ∧ p.cmdValid = false) ∧
    (let p := { stalled with cmdValid := false, rspReady := true }
     ({ pr1 with rsp := some fOne, inputs := [p] } : State).inputs = p :: [] ∧ p.rstN = true ∧ p.cmdValid = false) ∧
    (let p := { stalled with rstN := false }
     ({ dead with inputs := [p] } : State).inputs = p :: [] ∧ p.rstN = false) := by decide

/-- OnlyProcessSampleResponds: a completed sample with a response, and a violation without. -/
theorem witness_responds :
    (after (runCommand 0x20#160 pr1)).map (fun t => (t.rsp.isSome, t.engine)) = some (true, .prepared) ∧
    (after (runCommand 0x20#160 fresh)).map (fun t => (t.rsp.isSome, t.engine)) = some (false, .faulted) := by
  decide +kernel

/-- ViolationsArePrecise, FirstViolationIsRecorded, OperandChecks: each cause, at the edge of its condition. -/
theorem witness_violations :
    firstViolation 0x03#160 pr1 = some .illegalCommand ∧
    firstViolation 0x02#160 fresh = some .notPrepared ∧
    firstViolation 0x0000000000000000000000000000000200000020#160 pr1 = some .badChannel ∧
    firstViolation 0x000000000000000000000000FFFFFFFF00000020#160 pr1 = some .badChannel ∧
    firstViolation 0x0000000000000000000000000000000100000020#160 pr1 = none ∧
    firstViolation 0x3FF0000000000000000000040000000100000001#160 pr1 = some .badConfig ∧
    firstViolation 0x4110000000000000000000040000000100000001#160 pr1 = none ∧
    firstViolation 0x4020000000000000000000040000000300000001#160 pr1 = some .badConfig ∧
    firstViolation 0x00000000000000007F8000010000000000000011#160 pr1 = some .badValue ∧
    firstViolation 0x0000000000000000FF8000000000000000000011#160 pr1 = none ∧
    firstViolation 0x0000000000000000BF8000010000000000000020#160 pr1 = some .badInput ∧
    firstViolation 0x0000000000000000BF8000000000000000000020#160 pr1 = none := by decide +kernel

theorem witness_violationsArePrecise :
    (after (runCommand 0x03#160 pr1)).map (fun t => decide (t = { pr1 with engine := .faulted, faultCause := 0x01#8 })) =
      some true := by decide +kernel

/-- NotPreparedCommandsRaise. -/
theorem witness_notPrepared : fresh.engine = .unprepared ∧ ∀ sr block ch, Instr.reset ≠ .prepare sr block ch :=
  ⟨rfl, by simp⟩

/-- FaultedIgnoresEveryCommand. -/
theorem witness_faulted :
    let s := { dead with inputs := [commandCycle 0x01#160] }
    s.engine = .faulted ∧ s.inputs = commandCycle 0x01#160 :: [] ∧ (commandCycle 0x01#160).rstN = true ∧
      (commandCycle 0x01#160).cmdValid = true ∧ s.rsp = none := by decide

/-- OnlyHardwareResetLeavesFaulted: a step that stays and one that leaves. -/
theorem witness_leavesFaulted :
    (after (step { dead with inputs := [commandCycle 0x01#160] })).map (fun t => t.engine) = some .faulted ∧
    (after (step { dead with inputs := [{ stalled with rstN := false }] })).map (fun t => t.engine) =
      some .unprepared := by decide +kernel

/-- EngineStateTransitions, FaultOutputsChangeOnlyOnViolation: a step that prepares and one that faults. -/
theorem witness_transitions :
    (after (step { fresh with inputs := [commandCycle 0x4020000000000000000000040000000100000001#160] })).map
      (fun t => t.engine) = some .prepared ∧
    (after (step { pr1 with inputs := [commandCycle 0#160] })).map
      (fun t => (t.engine, faultO t, faultCauseO t)) = some (.faulted, true, 0x01#8) := by decide +kernel

/-- PrepareResult, ResetAfterPrepareChangesNothing: the largest rate and channel count that pass, and each bound passed by
one. -/
theorem witness_prepare :
    toy.legal = true ∧ fresh.cfg = toy ∧ fresh.cs.length = toy.chMax ∧ Memory.wf fresh.ram = true ∧
    fresh.engine ≠ .faulted ∧ dead.engine = .faulted ∧
    (isFinite64 0x4110000000000000#64 = true ∧ dceil 0x4110000000000000#64 = toy.capMax ∧
      dceil 0x4000000000000000#64 = 2) ∧
    (isFinite64 0x7FF8000000000000#64 = false ∧ dceil 0x3FF0000000000000#64 = 1 ∧
      dceil 0x4110000200000000#64 = toy.capMax + 1) := by decide +kernel

theorem witness_resetAfterPrepare :
    (after (exec (.prepare 0x4020000000000000#64 4 2) fresh)).map (fun t => t.engine) = some .prepared := by
  decide +kernel

/-- ResetResult: its premises in each engine state. -/
theorem witness_reset :
    (pr1.cr.cap ≤ 2 ^ 24 ∧ pr1.cr.nch ≤ pr1.cs.length ∧ pr1.engine = .prepared) ∧
    (fresh.cr.cap ≤ 2 ^ 24 ∧ fresh.cr.nch ≤ fresh.cs.length ∧ fresh.engine = .unprepared) ∧
    (dead.cr.cap ≤ 2 ^ 24 ∧ dead.cr.nch ≤ dead.cs.length ∧ dead.engine = .faulted) := by decide

/-- The five statements of the SET commands: an operand for each clause, at its bound. -/
theorem witness_set :
    pr1.cfg.legal = true ∧ pr1.engine = .prepared ∧ fresh.engine = .unprepared ∧ dead.engine = .faulted ∧
    isNaN 0x7F800001#32 = true ∧ isNaN 0x7F800000#32 = false ∧
    (isNaN fNegZero = false ∧ value fNegZero ≤ 0) ∧ (isNaN fThousand = false ∧ value fThousand ≤ value fThousand) ∧
    (isNaN fTen = false ∧ value fTen ≤ value fTen) ∧ (isNaN fOne = false ∧ value fOne ≤ value fOne) := by decide +kernel

/-- RegistersWrittenOnlyByTheirCommand. -/
theorem witness_registers : (after (exec (.setMix fOne) pr1)).map (fun t => t.cr.mixT) = some fOne := by decide +kernel

/-- ProcessSampleResult: channel 1 of `pr1` and channel 0 of `ps2`, whose taps are the last word and the first. -/
theorem witness_processSample :
    ((1 : Nat) < pr1.cr.nch ∧ isFinite fOne = true ∧ value fNegOne ≤ value fOne ∧ value fOne ≤ value fOne ∧
      0 < pr1.cr.cap ∧ pr1.cs[1]? = some record ∧ ((7 : Nat) : Int) = f2i (ffloor record.rp) % (pr1.cr.cap : Int) ∧
      (0 : Nat) = (7 + 1) % pr1.cr.cap ∧ Memory.read pr1.ram (loc 1 7) = some fZero ∧
      Memory.read pr1.ram (loc 1 0) = some fZero) ∧
    (Memory.read ps2.ram (loc 0 6) = some fOne ∧ Memory.read ps2.ram (loc 0 7) = some fNegOne) := by decide +kernel

/-- ProcessSampleReadsOwnChannelOnly: two states that differ in channel 1. -/
theorem witness_ownChannel :
    Inv pr1 ∧ Inv { pr1 with ram := Memory.write zeros (loc 1 3) fOne } ∧ pr1.engine = .prepared ∧
      0 < pr1.cr.nch ∧ inputInRange fNegOne = true ∧
      ∀ i, i < pr1.cr.cap → Memory.read (Memory.write zeros (loc 1 3) fOne) (loc 0 i) = Memory.read pr1.ram (loc 0 i) := by
  refine ⟨inv_pr1, Laws.inv_of_check toy_sinErr (by decide +kernel), rfl, by decide, by decide +kernel, ?_⟩
  intro i hi
  have hi : i < 8 := hi
  rw [Memory.read_write, if_neg (by unfold loc; omega)]
  rfl

/-- SamplesOnTwoChannelsCommute, ResponsesBounded. -/
theorem witness_commute :
    Inv ps2 ∧ ps2.engine = .prepared ∧ 0 < ps2.cr.nch ∧ 1 < ps2.cr.nch ∧ inputInRange fOne = true ∧
      inputInRange fNegZero = true := ⟨inv_ps2, by decide +kernel⟩

/-- SilenceStaysSilent. -/
theorem witness_silence :
    Inv pr1 ∧ pr1.engine = .prepared ∧ 0 < pr1.cr.nch ∧
      (∀ i, i < pr1.cr.cap → ∃ v, Memory.read pr1.ram (loc 0 i) = some v ∧ isZero v = true) ∧
      ∀ x ∈ [fZero, fNegZero], isZero x = true := by
  refine ⟨inv_pr1, rfl, by decide, fun i hi => ?_, List.all_eq_true.1 (by decide +kernel)⟩
  obtain ⟨v, hv, -⟩ := (inv_pr1.live (by decide)).words 0 i (by decide) hi
  refine ⟨v, hv, ?_⟩
  have h : ∀ x ∈ zeros, isZero x.2 = true := by decide +kernel
  exact h _ (Memory.mem_of_read hv)

/-- ZeroDepthFixesLength: settled and moving. -/
theorem witness_zeroDepth :
    Inv ps2 ∧ ps2.engine = .prepared ∧ 0 < ps2.cr.nch ∧ isZero ps2.cr.depth = true ∧ inputInRange fOne = true ∧
      value (ramp 0x40880000#32 0x40880000#32 0).tgt =
        value (clamp ps2.cr.center fOne (i2f ((ps2.cr.cap : Int) - 1))) := ⟨inv_ps2, by decide +kernel⟩

/-- MixBoundaries: mix 0 and mix 1. -/
theorem witness_mix :
    (Inv pr1 ∧ Inv echo) ∧ record.mix.rem = 0 ∧ value record.mix.cur = 0 ∧
      bufReadInterpolated pr1.cr.cap pr1.ram 0 record.rp = some fZero ∧
      (echo.cs[0]?).map (fun r => (r.mix.rem, decide (value r.mix.cur = value fOne),
        bufReadInterpolated echo.cr.cap echo.ram 0 r.rp)) = some (0, true, some fZero) :=
  ⟨⟨inv_pr1, inv_echo⟩, by decide +kernel⟩

/-- IntegerDelayReplaysInput: the delay of program P1, `k = 4`. -/
theorem witness_integerDelay :
    (Inv echo ∧ echo.engine = .prepared ∧ 0 < echo.cr.nch ∧ echo.ram = zeros ∧ 4 < echo.cr.cap ∧
      isZero echo.cr.depth = true ∧ value echo.cr.center = value (i2f 4)) ∧
    ((echo.cs[0]?).elim false fun r =>
      decide (value r.len.cur = value (i2f 4)) && decide (r.len.rem = 0) && decide (r.fb.rem = 0) && isZero r.fb.cur &&
        decide (r.mix.rem = 0) && decide (value r.mix.cur = value fOne) &&
        decide (r.rp = readPosition echo.cr.cap r.w r.len.cur)) = true ∧
    [fOne, fZero, fHalf, fNegOne, fNegZero].all inputInRange = true := by
  refine ⟨⟨inv_echo, ?_, ?_, ?_, ?_, ?_, ?_⟩, ?_, ?_⟩ <;> decide +kernel

/-- FirstTapIsNotTheWriteIndex, ReadPositionTrailsWriteIndex: the read positions of `echo` trail. -/
theorem witness_positionsTrail : Inv echo ∧ PositionsTrail echo ∧ echo.engine = .prepared := by
  refine ⟨inv_echo, ?_, rfl⟩
  intro _ c r hc hr
  have hc : c < 2 := hc
  rcases (by omega : c = 0 ∨ c = 1) with rfl | rfl
  · have hr : some _ = some r := hr
    injection hr with hr; subst hr; decide +kernel
  · have hr : some _ = some r := hr
    injection hr with hr; subst hr; decide +kernel

/-- MemoryStaysCanonical, InvariantKeptByEveryStep, NoCommandStops: a sample time as a step of a state of the invariant. -/
theorem witness_invariant :
    Inv { ps2 with inputs := [commandCycle 0x20#160] } ∧ Memory.wf ps2.ram = true ∧
      (after (step { ps2 with inputs := [commandCycle 0x20#160] })).map (fun t => (t.engine, t.rsp.isSome)) =
        some (.prepared, true) :=
  ⟨Laws.inv_of_check toy_sinErr (by decide +kernel), by decide +kernel⟩

/-- ResetMeetsInvariant: `toy`, and the smallest `RATE_MIN_HZ` there is, where the quotient of two rates underflows. -/
theorem witness_reset_inv :
    toy.Admissible ∧ Config.Admissible { toy with rateMinHz := 0x00000001#32 } ∧
      fdiv 0x00000001#32 fTen = fZero := ⟨toy_admissible, ⟨by decide +kernel, Config.sinErr_of_two_le (le_refl _)⟩, by decide +kernel⟩

/-- RampSettlesAfterN, LinearRampIsMonotone: a ramp up, a ramp down. -/
theorem witness_ramp :
    (1 ≤ (ramp fZero fZero 0).N ∧ (ramp fZero fZero 0).N < 2 ^ 31 ∧ feq fOne (ramp fZero fZero 0).tgt = false ∧
      isFinite fZero = true ∧ isFinite fOne = true ∧ isFinite (fsub fOne fZero) = true ∧ value fZero ≤ value fOne) ∧
    (feq fZero (ramp fOne fOne 0).tgt = false ∧ isFinite (fsub fZero fOne) = true) := by decide +kernel

/-- MultiplicativeRampStaysPositive. -/
theorem witness_mul :
    isFinite fTen = true ∧ 0 < value 0x3C800000#32 ∧ 0 < value fTen ∧ 1 ≤ (ramp fTen fTen 0).N ∧
      feq fTen 0x3C800000#32 = false ∧ feq 0x3C800000#32 fTen = false ∧
      0 < value 0x00000001#32 ∧ feq 0x00000001#32 fTen = false := by decide +kernel

/-- PhaseWrapsIntoRange: the largest increment the block knows. -/
theorem witness_phase :
    isFinite fOne = true ∧ value fOne ≤ value fOne ∧ between fZero fTen fTen = true ∧
      between fZero 0x40C90FDA#32 twoPi = true ∧ value 0x40C90FDA#32 < value twoPi := by decide +kernel

/-- SinAndRootProperties: a number at 1, above it and below it. -/
theorem witness_root :
    isNaN fOne = false ∧ value fOne = value fOne ∧ 0 < value fHalf ∧ value fHalf < value fOne ∧
      value fOne < value 0x7F800000#32 := by decide +kernel

/-- ArithmeticCorrectlyRounded, FloorAndIntegerConversions, Binary64Conversions, ComparisonsAndClamp, BufferReadAfterWrite,
InterpolationBounded. -/
theorem witness_numbers :
    isFinite 0x7F7FFFFF#32 = true ∧ value 0x7F7FFFFF#32 ≠ 0 ∧ isFinite64 0x7FEFFFFFFFFFFFFF#64 = true ∧
      (isNaN fZero = false ∧ isNaN 0x7F800000#32 = false ∧ value fZero ≤ value 0x7F800000#32 ∧
        0 < value 0x7F800000#32) ∧
      |((2 : Int) ^ 24)| ≤ 2 ^ 24 ∧ (1 ≤ 2 ∧ 2 ≤ 2 ^ 24) ∧
      (0 ≤ value fHalf ∧ value fHalf < value fOne ∧ |value fNegOne| ≤ ((2 ^ 149 : Nat) : Int) ∧
        ((2 ^ 149 : Nat) : Int) ≤ 21 * ((2 ^ 149 : Nat) : Int)) := by decide +kernel

/-- RampNextResult: a ramp for each clause, at the ends of its range.  RG1, and a product guarded from below. -/
theorem witness_rampNext :
    (ramp fOne fOne 0).rem = 0 ∧ (ramp fZero fOne 1).rem = 1 ∧ 2 ≤ (ramp fZero fOne 2).rem ∧
    (rampNext .lin (ramp 0x3F7FFFFF#32 fOne 5 0x33CC0000#32)).cur = fOne ∧
    (rampNext .mul (ramp fOne fHalf 2 0x3E800000#32)).cur = fHalf := by decide +kernel

/-- LinearRampStepBounded: up and down; the mix ramp from 0 to 1 and back. -/
theorem witness_stepBounded :
    (isFinite (fadd fZero 0x3E800000#32) = true ∧ 2 ≤ (ramp fZero fOne 4).rem ∧ value fZero ≤ value fOne ∧
      0 ≤ value 0x3E800000#32) ∧
    (isFinite (fadd fOne 0xBE800000#32) = true ∧ isFinite 0xBE800000#32 = true ∧ value 0xBE800000#32 < 0) ∧
    (between fZero fZero fOne = true ∧ between fZero fOne fOne = true ∧ feq fOne (ramp fZero fZero 0).tgt = false ∧
      1 ≤ (ramp fZero fZero 0).N ∧ (ramp fZero fZero 0).N < 2 ^ 31) := by decide +kernel

/-- PrimitivesGetDefinedOperands: every command passes its checks in a state of the invariant; `PREPARE` in `Unprepared`
too. -/
theorem witness_operands :
    Inv ps2 ∧ ps2.engine ≠ .faulted ∧
    [.prepare 0x4020000000000000#64 4 2, .reset, .setDelayTimeMs 0x7F800000#32, .setMix fOne, .setFeedback fZero,
      .setLfoRateHz fTen, .setLfoDepthMs fTen, .processSample 1 fNegOne].all
        (fun i => decide (commandViolation ps2 i = none)) = true ∧
    Inv fresh ∧ commandViolation fresh (.prepare 0x4020000000000000#64 4 2) = none :=
  ⟨inv_ps2, by decide, by decide +kernel, Laws.inv_of_check toy_sinErr (by decide +kernel), by decide +kernel⟩

/-- LfoFollowsTheSine: a live channel of a `Prepared` engine and of a `Faulted` one. -/
theorem witness_lfo :
    (Inv echo ∧ 1 < echo.cr.nch ∧ (echo.cs[1]?).isSome = true) ∧
    (Inv ps2Faulted ∧ 0 < ps2Faulted.cr.nch ∧ (ps2Faulted.cs[0]?).isSome = true ∧ ps2Faulted.engine = .faulted) :=
  ⟨⟨inv_echo, by decide⟩, inv_ps2Faulted, by decide⟩

/-- ConfigurationNeverChanges: a step of a hardware reset. -/
theorem witness_configuration :
    (after (step { dead with inputs := [{ stalled with rstN := false }] })).map (fun t => decide (t.cfg = toy)) =
      some true := by decide +kernel

end Sys2Proof.Tests
end

section
/-! PROOFS. Correct rounding (spec/00_scope.md R2, R4, R5): `roundPack` is correctly rounded whatever exact fraction it is
given, so every primitive and conversion that ends in it is too. -/

namespace Sys2Proof.Proofs

open Sys2Proof.Machine Sys2Proof.Laws

/-! ### The one rounding -/

theorem abs_signed (neg : Bool) (n : Nat) : |signed neg n| = n := by
  cases neg <;> simp [signed]

theorem value_eq_signed (a : F32) : value a = signed (signBit a) (magOf (low31 a)) := value_eq a

/-- Below infinity nothing saturates. -/
theorem packMagnitude_eq_packRaw {neg : Bool} {n d : Nat} (h : isFinite (roundPack neg n d) = true) :
    packMagnitude n d = packRaw n d := by
  rw [isFinite_iff, low31_roundPack, packMagnitude_eq] at h
  rw [packMagnitude_eq]; omega

theorem isFinite_roundPack_eq_false_iff (neg : Bool) (n : Nat) {d : Nat} (hd : 0 < d) :
    isFinite (roundPack neg n d) = false ↔ (2 ^ 25 - 1) * 2 ^ 252 * d ≤ n := by
  rw [← packRaw_overflow_iff n hd, ← Bool.not_eq_true, isFinite_iff, low31_roundPack, packMagnitude_eq]
  omega

/-- Two magnitudes of one sign differ from a fraction of that sign as the magnitudes do. -/
theorem abs_signed_mul_sub (neg : Bool) (m n d : Nat) :
    |signed neg m * d - signed neg n| = |((m * d : Nat) : Int) - n| := by
  cases neg
  · simp [signed]
  · rw [← abs_neg]
    simp only [signed, if_true]; push_cast; ring_nf

/-- A magnitude of the other sign is farther from the fraction than a zero is. -/
theorem abs_signed_not_mul_sub (neg : Bool) (m n d : Nat) :
    |signed (!neg) m * d - signed neg n| = ((m * d : Nat) : Int) + n := by
  cases neg <;> simp only [signed, Bool.not_true, Bool.not_false, if_true, Bool.false_eq_true, if_false] <;> push_cast
  · rw [show -(m : Int) * d - n = -(m * d + n) by ring, abs_neg, abs_of_nonneg (by positivity)]
  · rw [sub_neg_eq_add, abs_of_nonneg (by positivity)]

/-- The competitor of `packRaw_nearest` that stands for a finite `y`: `y`'s own magnitude, or zero where `y` has the
other sign. -/
theorem exists_competitor (neg : Bool) (n : Nat) {d : Nat} (hd : 0 < d) (y : F32) :
    ∃ m, |((magOf m * d : Nat) : Int) - n| ≤ |value y * d - signed neg n| ∧
      (|((magOf m * d : Nat) : Int) - n| = |value y * d - signed neg n| → value y = signed neg (magOf m)) := by
  rw [value_eq_signed y]
  by_cases hs : signBit y = neg
  · exact ⟨low31 y, by rw [hs, abs_signed_mul_sub], fun _ => by rw [hs]⟩
  · have hs' : signBit y = !neg := by cases neg <;> simpa using hs
    have hzero : |((magOf 0 * d : Nat) : Int) - n| = n := by simp [magOf_zero]
    rw [hs', abs_signed_not_mul_sub]
    refine ⟨0, by omega, fun h => ?_⟩
    have h0 : magOf (low31 y) = 0 := (Nat.mul_eq_zero.1 (by omega)).resolve_right hd.ne'
    rw [h0]; cases neg <;> rfl

theorem nearestEven_roundPack {neg : Bool} {n d : Nat} (hd : 0 < d) (hf : isFinite (roundPack neg n d) = true) :
    NearestEven (roundPack neg n d) (signed neg n) d := by
  intro y _
  obtain ⟨m, hle, heq⟩ := exists_competitor neg n hd y
  obtain ⟨hnear, htie⟩ := packRaw_nearest n hd m
  have hr : value (roundPack neg n d) = signed neg (magOf (packRaw n d)) := by
    rw [value_roundPack, packMagnitude_eq_packRaw hf]
  rw [hr, abs_signed_mul_sub]
  refine ⟨hnear.trans hle, fun htied hne => ?_⟩
  have hm : |((magOf m * d : Nat) : Int) - n| = |value y * d - signed neg n| := le_antisymm hle (htied ▸ hnear)
  have hne' : m ≠ packRaw n d := fun h => hne (h ▸ heq hm)
  have heven := htie hne' (htied.trans hm.symm)
  rw [fracField_eq, low31_roundPack, packMagnitude_eq_packRaw hf]
  omega

/-- `roundPack` rounds the fraction it is given correctly. -/
theorem correctlyRounded_roundPack (neg : Bool) (n : Nat) {d : Nat} (hd : 0 < d) :
    CorrectlyRounded (roundPack neg n d) (signed neg n) d := by
  refine ⟨isNaN_roundPack neg n d, ?_, fun h => ?_, nearestEven_roundPack hd⟩
  · rw [isFinite_roundPack_eq_false_iff neg n hd, abs_signed]
    zify; norm_num
  · have hn := (isFinite_roundPack_eq_false_iff neg n hd).1 h
    have hpos : 0 < n := lt_of_lt_of_le (by positivity) hn
    rw [signBit_roundPack]
    cases neg <;> simp [signed]; omega

/-- An exact zero is rounded to a zero of either sign. -/
theorem correctlyRounded_zero {r : F32} (hf : isFinite r = true) (h0 : value r = 0) : CorrectlyRounded r 0 1 := by
  refine ⟨not_isNaN_of_isFinite hf, ?_, fun h => absurd hf (by simp [h]), fun _ y _ => ?_⟩
  · rw [hf]; norm_num
  · rw [h0]
    refine ⟨by simp, fun htie hne => absurd ?_ hne⟩
    simpa using htie.symm

/-! ### Arithmetic (R2) -/

theorem correctlyRounded_addFinite (a b : F32) : CorrectlyRounded (addFinite a b) (value a + value b) 1 := by
  by_cases h0 : value a + value b = 0
  · rw [h0]
    refine correctlyRounded_zero ?_ (value_addFinite_zero h0)
    rw [addFinite, if_pos h0]; split <;> simp
  · have h := correctlyRounded_roundPack (decide (value a + value b < 0)) (value a + value b).natAbs one_pos
    rwa [signed_natAbs, ← addFinite_eq a b h0] at h

theorem magnitude_ne_zero {b : F32} (h0 : value b ≠ 0) : magnitude b ≠ 0 := by
  intro h; exact h0 (by simp [value, h])

/-- The exact quotient, with the divisor's sign moved to the numerator. -/
theorem signed_quotient_ne {b : F32} (a : F32) (h0 : value b ≠ 0) :
    signed (signBit a != signBit b) (magnitude a * 2 ^ 149) =
      value a * ((2 ^ 149 : Nat) : Int) * (if value b < 0 then -1 else 1) := by
  have hm := magnitude_ne_zero h0
  have hneg : value b < 0 ↔ signBit b = true := by
    unfold value; cases signBit b <;> simp; omega
  have hsigned : ∀ k : Nat, signed (signBit a != signBit b) (magnitude a * k) =
      value a * (k : Int) * (if signBit b = true then -1 else 1) := by
    intro k
    unfold value signed
    cases signBit a <;> cases signBit b <;> simp
  simp only [hneg]
  exact hsigned (2 ^ 149)

theorem natAbs_value_eq_magnitude (b : F32) : (value b).natAbs = magnitude b := by
  unfold value; split <;> simp

/-- Settles O48: `fadd` and `fsub` round the exact sum of values, `fmul` and `fdiv` the exact signed fraction, each by the one
`roundPack`. -/
theorem arithmeticCorrectlyRounded : Obligations.ArithmeticCorrectlyRounded := by
  intro a b ha hb
  refine ⟨?_, ?_, ?_, fun h0 => ?_⟩
  · rw [fadd_eq ha hb]; exact correctlyRounded_addFinite a b
  · rw [fsub_eq ha hb, sub_eq_add_neg, ← value_fneg]; exact correctlyRounded_addFinite a (fneg b)
  · rw [fmul_eq ha hb, ← signed_product]; exact correctlyRounded_roundPack _ _ two_pow_149_pos
  · have hdiv : fdiv a b = roundPack (signBit a != signBit b) (magnitude a * 2 ^ 149) (magnitude b) := by
      simp [fdiv, ha, hb, isZero_eq_false h0]
    rw [hdiv, ← signed_quotient_ne a h0, natAbs_value_eq_magnitude]
    exact correctlyRounded_roundPack _ _ (Nat.pos_of_ne_zero (magnitude_ne_zero h0))

/-! ### Floor and integers (R4) -/

/-- A magnitude of `2^23` or more is a whole number. -/
theorem dvd_magOf_or_lt (m : Nat) : 2 ^ 149 ∣ magOf m ∨ magOf m < 2 ^ 24 * 2 ^ 148 := by
  rcases Nat.lt_or_ge m (2 ^ 23) with h | h
  · right; rw [magOf_small (by omega)]; omega
  · obtain ⟨e, t, rfl, h1, h2⟩ := exists_fields h
    rw [magOf_fields h1 h2.le]
    rcases Nat.lt_or_ge e 149 with he | he
    · right
      exact Nat.mul_lt_mul_of_lt_of_le h2 (Nat.pow_le_pow_right (by norm_num) (by omega)) (Nat.two_pow_pos _)
    · left; exact Dvd.dvd.mul_left (pow_dvd_pow 2 he) t

/-- The floor of a number that is not integral fits a significand. -/
theorem floorInt_natAbs_le {a : F32} (h : value a % ((2 ^ 149 : Nat) : Int) ≠ 0) : (floorInt a).natAbs ≤ 2 ^ 24 := by
  have hlt : (value a).natAbs < 2 ^ 24 * 2 ^ 148 := by
    rw [natAbs_value]
    refine (dvd_magOf_or_lt (low31 a)).resolve_left fun hdvd => h ?_
    rw [← natAbs_value] at hdvd
    exact Int.emod_eq_zero_of_dvd (Int.natCast_dvd.2 hdvd)
  unfold floorInt
  omega

/-- `ffloor` of a finite number is finite and is its greatest integer. -/
theorem ffloor_spec {a : F32} (ha : isFinite a = true) :
    isFinite (ffloor a) = true ∧ value (ffloor a) = floorInt a * ((2 ^ 149 : Nat) : Int) := by
  by_cases h : value a % ((2 ^ 149 : Nat) : Int) = 0
  · have e : ffloor a = a := by simp only [ffloor, ha, if_true, if_pos h]
    rw [e]
    exact ⟨ha, (Int.ediv_mul_cancel (Int.dvd_of_emod_eq_zero h)).symm⟩
  · have e : ffloor a = i2f (floorInt a) := by simp only [ffloor, ha, if_true, if_neg h]
    have hle := floorInt_natAbs_le h
    rw [e]
    exact ⟨isFinite_i2f hle, value_i2f hle⟩

theorem correctlyRounded_i2f (k : Int) : CorrectlyRounded (i2f k) (k * ((2 ^ 149 : Nat) : Int)) 1 := by
  have h := correctlyRounded_roundPack (decide (k < 0)) (k.natAbs * 2 ^ 149) one_pos
  rw [signed_i2f] at h
  exact_mod_cast h

/-- Settles O50: `ffloor_spec` is the floor, and `i2f` is one rounding of an integer, exact where a significand holds it. -/
theorem floorAndIntegerConversions : Obligations.FloorAndIntegerConversions := by
  refine ⟨fun a ha => ?_, fun k hk => ?_, correctlyRounded_i2f⟩
  · obtain ⟨hf, hv⟩ := ffloor_spec ha
    have hi : f2i (ffloor a) = floorInt a := by
      rw [f2i, if_pos hf, floorInt, hv, Int.mul_ediv_cancel _ (by positivity)]
    have hle := Int.ediv_mul_le (value a) (b := ((2 ^ 149 : Nat) : Int)) (by positivity)
    have hlt := Int.lt_ediv_add_one_mul_self (value a) (b := ((2 ^ 149 : Nat) : Int)) (by positivity)
    rw [add_mul, one_mul] at hlt
    exact ⟨hf, by rw [hv, hi], hv ▸ hle, hv ▸ hlt⟩
  · have hk' : k.natAbs ≤ 2 ^ 24 := by zify; exact_mod_cast hk
    exact ⟨isFinite_i2f hk', value_i2f hk'⟩

/-! ### Binary64 (R5) -/

/-- `dceil` is the integer division rounded up. -/
theorem dceil_spec (s : F64) :
    value64 s ≤ dceil s * ((2 ^ 1074 : Nat) : Int) ∧ (dceil s - 1) * ((2 ^ 1074 : Nat) : Int) < value64 s := by
  rw [← one64_eq]
  have hpos : (0 : Int) < (one64 : Int) := by rw [one64_eq]; positivity
  have hle := Int.ediv_mul_le (-value64 s) hpos.ne'
  have hlt := Int.lt_ediv_add_one_mul_self (-value64 s) hpos
  unfold dceil
  constructor <;> linarith

/-- Settles O51: `dceil_spec`, and `d2f` is one rounding. -/
theorem binary64Conversions : Obligations.Binary64Conversions := by
  intro s _
  obtain ⟨hle, hlt⟩ := dceil_spec s
  refine ⟨hle, hlt, ?_⟩
  rw [d2f]
  exact correctlyRounded_roundPack s.msb (magnitude64 s) (by positivity)

end Sys2Proof.Proofs
end

section
/-! PROOFS. `SIN`, `ROOT`, the comparisons and `clamp` (spec/00_scope.md R3, R7, R8). -/

namespace Sys2Proof.Proofs

open Sys2Proof.Machine Sys2Proof.Laws

/-! ### Ranges -/

section Range

variable {lo v hi : F32}

theorem between_of_bounds (hn : isNaN v = false) (h1 : value lo ≤ value v) (h2 : value v ≤ value hi) :
    between lo v hi = true := (between_iff _ _ _).2 ⟨hn, h1, h2⟩

theorem isNaN_of_between (h : between lo v hi = true) : isNaN v = false := ((between_iff _ _ _).1 h).1

theorem lower_of_between (h : between lo v hi = true) : value lo ≤ value v := ((between_iff _ _ _).1 h).2.1

theorem upper_of_between (h : between lo v hi = true) : value v ≤ value hi := ((between_iff _ _ _).1 h).2.2

theorem isFinite_of_between (hlo : isFinite lo = true) (hhi : isFinite hi = true) (h : between lo v hi = true) :
    isFinite v = true :=
  isFinite_of_bounds (isNaN_of_between h) hlo hhi (lower_of_between h) (upper_of_between h)

end Range

/-! ### `SIN` and `ROOT` (R7, R8) -/

/-- `SIN` answers a value in `[-1, 1]` at every pattern, `+0` where the configuration has none. -/
theorem between_SIN (cfg : Config) (p : F32) : between fNegOne (SIN cfg p) fOne = true := by
  have h0 : between fNegOne fZero fOne = true := by decide
  by_cases hp : p = fZero
  · rw [SIN, if_pos hp]; exact h0
  · simp only [SIN, if_neg hp]
    split
    · assumption
    · exact h0

theorem isFinite_SIN (cfg : Config) (p : F32) : isFinite (SIN cfg p) = true :=
  isFinite_of_between isFinite_fNegOne isFinite_fOne (between_SIN cfg p)

/-- What `ROOT` can answer: 1, a finite value at a quotient of which R8 states nothing, or an admissible root. -/
theorem ROOT_cases (cfg : Config) (q : F32) (n : Nat) :
    ROOT cfg q n = fOne ∨
    ((isNaN q = true ∨ value q ≤ 0) ∧ isFinite (ROOT cfg q n) = true) ∨
    (value q ≠ value fOne ∧ rootAdmissible q (ROOT cfg q n) = true) := by
  unfold ROOT
  dsimp only
  split
  · rename_i hq
    split
    · exact Or.inr (Or.inl ⟨by simpa using hq, ‹_›⟩)
    · exact Or.inl rfl
  · split
    · exact Or.inl rfl
    · split
      · exact Or.inr (Or.inr ⟨‹_›, ‹_›⟩)
      · exact Or.inl rfl

/-- `ROOT_POS` and `ROOT_BETWEEN` (R8), read from the check. -/
theorem rootAdmissible_iff (q y : F32) :
    rootAdmissible q y = true ↔ (isFinite y = true ∧ 0 < value y) ∧
      (value q < value fOne → value q ≤ value y ∧ value y ≤ value fOne) ∧
      (value fOne ≤ value q → value fOne ≤ value y ∧ value y ≤ value q) := by
  unfold rootAdmissible
  simp only [Bool.and_eq_true, decide_eq_true_eq]
  refine and_congr_right fun ⟨hf, _⟩ => ?_
  have hn := not_isNaN_of_isFinite hf
  split
  · rename_i h
    rw [between_iff]
    exact ⟨fun hb => ⟨fun _ => hb.2, fun h' => absurd h (not_lt.2 h')⟩, fun hb => ⟨hn, hb.1 h⟩⟩
  · rename_i h
    rw [between_iff]
    exact ⟨fun hb => ⟨fun h' => absurd h' h, fun _ => hb.2⟩, fun hb => ⟨hn, hb.2 (not_lt.1 h)⟩⟩

theorem isFinite_ROOT (cfg : Config) (q : F32) (n : Nat) : isFinite (ROOT cfg q n) = true := by
  rcases ROOT_cases cfg q n with h | ⟨-, h⟩ | ⟨-, h⟩
  · rw [h]; exact isFinite_fOne
  · exact h
  · obtain ⟨⟨hf, -⟩, -⟩ := (rootAdmissible_iff _ _).1 h
    exact hf

theorem ROOT_of_one (cfg : Config) {q : F32} (n : Nat) (hq : isNaN q = false) (h1 : value q = value fOne) :
    ROOT cfg q n = fOne := by
  rcases ROOT_cases cfg q n with h | ⟨h, -⟩ | ⟨h, -⟩
  · exact h
  · rw [hq, h1, value_fOne] at h; simp at h
  · exact absurd h1 h

/-- `ROOT_POS` and `ROOT_BETWEEN` (R8) at a positive quotient. -/
theorem ROOT_of_pos (cfg : Config) {q : F32} (n : Nat) (hq : isNaN q = false) (hpos : 0 < value q) :
    0 < value (ROOT cfg q n) ∧
    (value fOne < value q → value fOne ≤ value (ROOT cfg q n) ∧ value (ROOT cfg q n) ≤ value q) ∧
    (value q < value fOne → value q ≤ value (ROOT cfg q n) ∧ value (ROOT cfg q n) ≤ value fOne) := by
  rcases ROOT_cases cfg q n with h | ⟨h, -⟩ | ⟨-, h⟩
  · rw [h]
    exact ⟨by simp, fun h1 => ⟨le_rfl, h1.le⟩, fun h1 => ⟨h1.le, le_rfl⟩⟩
  · rw [hq] at h
    exact absurd hpos (not_lt.2 (h.resolve_left (by simp)))
  · obtain ⟨⟨-, hy⟩, hlt, hge⟩ := (rootAdmissible_iff _ _).1 h
    exact ⟨hy, fun h1 => hge h1.le, hlt⟩

/-- Settles O47, by what `SIN` and `ROOT` can answer. -/
theorem sinAndRootProperties : Obligations.SinAndRootProperties := by
  intro cfg
  refine ⟨if_pos rfl, fun p => (between_iff _ _ _).1 (between_SIN cfg p), fun n q => isFinite_ROOT cfg q n,
    fun n q hq h1 => ROOT_of_one cfg n hq h1, fun n q hq hpos => ⟨isFinite_ROOT cfg q n, ROOT_of_pos cfg n hq hpos⟩⟩

/-! ### Comparisons and `clamp` (R3) -/

theorem fmin_eq {a b : F32} (ha : isNaN a = false) (hb : isNaN b = false) :
    fmin a b = if value a < value b then a else b := by
  simp only [fmin, flt_iff ha hb]

theorem fmax_eq {a b : F32} (ha : isNaN a = false) (hb : isNaN b = false) :
    fmax a b = if value b < value a then a else b := by
  simp only [fmax, flt_iff hb ha]

/-- `clamp` answers one of its arguments. -/
theorem clamp_cases (v lo hi : F32) : clamp v lo hi = v ∨ clamp v lo hi = lo ∨ clamp v lo hi = hi := by
  unfold clamp
  rcases fmin_cases (fmax v lo) hi with h | h
  · rw [h]; exact (fmax_cases v lo).imp_right Or.inl
  · exact Or.inr (Or.inr h)

/-- A value strictly inside the range is left as it is. -/
theorem clamp_of_inside {v lo hi : F32} (hv : isNaN v = false) (hlo : isNaN lo = false) (hhi : isNaN hi = false)
    (h1 : value lo < value v) (h2 : value v < value hi) : clamp v lo hi = v := by
  rw [clamp, fmax_eq hv hlo, if_pos h1, fmin_eq hv hhi, if_pos h2]

/-- `fmax` answers its second argument where the two are equal, so the clamped `-0` is the lower bound. -/
theorem clamp_negZero {hi : F32} (hhi : isNaN hi = false) (h : 0 < value hi) : clamp fNegZero fZero hi = fZero := by
  rw [clamp, fmax_eq (by decide) (by decide), if_neg (by simp), fmin_eq (by decide) hhi, if_pos (by simpa using h)]

theorem value_inf : value 0x7F800000#32 = magOf 0x7F800000 ∧ value 0xFF800000#32 = -(magOf 0x7F800000 : Int) := by
  decide +kernel

/-- Settles O49: comparisons are those of `value`, which puts the infinities past every finite number, and `fmin`, `fmax` and
`clamp` choose by comparison. -/
theorem comparisonsAndClamp : Obligations.ComparisonsAndClamp := by
  refine ⟨fun a b ha hb => ⟨flt_iff ha hb, fle_iff ha hb, feq_iff ha hb, fmin_eq ha hb, fmax_eq ha hb⟩, ?_, ?_, ?_,
    fun hi hhi h => clamp_negZero hhi h⟩
  · exact (feq_iff (by decide) (by decide)).2 (by simp)
  · intro a ha
    obtain ⟨-, hlt⟩ := (isFinite_iff_value a).1 ha
    obtain ⟨hp, hm⟩ := value_inf
    rw [hp, hm]; omega
  · intro v lo hi hv hlo hhi hle
    have hin := between_clamp hv hlo hhi hle
    exact ⟨clamp_cases v lo hi, lower_of_between hin, upper_of_between hin, clamp_of_inside hv hlo hhi⟩

/-! ### The LFO (R7, R104) -/

/-- The record of a live channel is as `PREPARE` made it (R31 to R35, R39). -/
theorem channelOk_of_inv {s : State} {c : Nat} {r : Channel} (h : Inv s) (hc : c < s.cr.nch) (hr : s.cs[c]? = some r) :
    ChannelOk s.cfg s.cr r := by
  obtain ⟨r', hr', hok⟩ := (h.live (by omega)).channels c hc
  rw [hr, Option.some.injEq] at hr'
  exact hr' ▸ hok

/-- Settles O57: the phase of a live channel lies in `[0, TWO_PI)`, where the admissible configuration has `SIN_ERR`. -/
theorem lfoFollowsTheSine : Obligations.LfoFollowsTheSine := by
  intro s c r h hc hr
  have hok := channelOk_of_inv h hc hr
  have hsin := between_SIN s.cfg r.phase
  have hphase := lower_of_between hok.phase
  rw [value_fZero] at hphase
  exact ⟨isFinite_SIN s.cfg r.phase, lower_of_between hsin, upper_of_between hsin,
    h.cfg.sinErr r.phase (isFinite_of_between isFinite_fZero isFinite_twoPi hok.phase) hphase hok.phase_lt⟩

end Sys2Proof.Proofs
end

section
/-! PROOFS. Operands (spec/00_scope.md R12).  Each primitive keeps a range whose ends are binary32 numbers, by the rounding
rules of Laws/FloatValue; a finite range makes its result a good operand of the next primitive. -/

namespace Sys2Proof.Proofs

open Sys2Proof.Machine Sys2Proof.Laws

/-! ### Ranges -/

/-- A range round zero, `[-c, c]`. -/
theorem between_fneg_iff (v c : F32) :
    between (fneg c) v c = true ↔ (isNaN v = false ∧ |value v| ≤ value c) := by
  rw [between_iff, value_fneg, abs_le]

theorem between_mono {lo lo' v hi hi' : F32} (h : between lo v hi = true) (h1 : value lo' ≤ value lo)
    (h2 : value hi ≤ value hi') : between lo' v hi' = true := by
  obtain ⟨hn, hl, hu⟩ := (between_iff _ _ _).1 h
  exact between_of_bounds hn (h1.trans hl) (hu.trans h2)

section Primitives

variable {a b lo hi : F32} (ha : isFinite a = true) (hb : isFinite b = true) (hlo : isFinite lo = true)
  (hhi : isFinite hi = true)

include ha hb hlo hhi

theorem between_fadd (h1 : value lo ≤ value a + value b) (h2 : value a + value b ≤ value hi) :
    between lo (fadd a b) hi = true :=
  between_of_bounds (isNaN_fadd ha hb) (le_fadd ha hb (not_isNaN_of_isFinite hlo) h1)
    (fadd_le ha hb (not_isNaN_of_isFinite hhi) h2)

theorem between_fsub (h1 : value lo ≤ value a - value b) (h2 : value a - value b ≤ value hi) :
    between lo (fsub a b) hi = true :=
  between_of_bounds (isNaN_fsub ha hb) (le_fsub ha hb (not_isNaN_of_isFinite hlo) h1)
    (fsub_le ha hb (not_isNaN_of_isFinite hhi) h2)

theorem between_fmul (h1 : value lo * 2 ^ 149 ≤ value a * value b) (h2 : value a * value b ≤ value hi * 2 ^ 149) :
    between lo (fmul a b) hi = true :=
  between_of_bounds (isNaN_fmul ha hb) (le_fmul ha hb (not_isNaN_of_isFinite hlo) h1)
    (fmul_le ha hb (not_isNaN_of_isFinite hhi) h2)

theorem between_fdiv (h0 : 0 < value b) (h1 : value lo * value b ≤ value a * 2 ^ 149)
    (h2 : value a * 2 ^ 149 ≤ value hi * value b) : between lo (fdiv a b) hi = true :=
  between_of_bounds (isNaN_fdiv ha hb h0) (le_fdiv ha hb h0 (not_isNaN_of_isFinite hlo) h1)
    (fdiv_le ha hb h0 (not_isNaN_of_isFinite hhi) h2)

end Primitives

/-- A factor of magnitude at most one keeps a range round zero. -/
theorem between_unit_fmul {u a c : F32} (hu : isFinite u = true) (hu1 : |value u| ≤ value fOne) (hc : isFinite c = true)
    (ha : between (fneg c) a c = true) : between (fneg c) (fmul u a) c = true := by
  have hc' : isFinite (fneg c) = true := (isFinite_fneg _).trans hc
  have haf := isFinite_of_between hc' hc ha
  obtain ⟨-, hav⟩ := (between_fneg_iff _ _).1 ha
  have hmul : |value u * value a| ≤ value c * 2 ^ 149 := by
    rw [abs_mul, mul_comm]
    exact mul_le_mul hav (by simpa using hu1) (abs_nonneg _) ((abs_nonneg _).trans hav)
  obtain ⟨h1, h2⟩ := abs_le.1 hmul
  exact between_fmul hu haf hc' hc (by rw [value_fneg]; linarith) h2

theorem fmul_comm {a b : F32} (ha : isFinite a = true) (hb : isFinite b = true) : fmul a b = fmul b a := by
  rw [fmul_eq ha hb, fmul_eq hb ha, Nat.mul_comm, bne_comm]

/-- A divisor of at least one keeps a range that contains zero. -/
theorem between_fdiv_of_one_le {a b lo hi : F32} (hlo : isFinite lo = true) (hhi : isFinite hi = true)
    (h0 : value lo ≤ 0) (h0' : 0 ≤ value hi) (ha : between lo a hi = true) (hb : isFinite b = true)
    (h1 : value fOne ≤ value b) : between lo (fdiv a b) hi = true := by
  obtain ⟨-, hl, hu⟩ := (between_iff _ _ _).1 ha
  rw [value_fOne] at h1
  refine between_fdiv (isFinite_of_between hlo hhi ha) hb hlo hhi (by omega) ?_ ?_ <;> nlinarith

/-- A correctly rounded result is finite exactly below the midpoint past the largest finite number. -/
theorem isFinite_iff_of_correctlyRounded {r : F32} {num : Int} {den : Nat} (h : CorrectlyRounded r num den) :
    isFinite r = true ↔ |num| < (2 ^ 25 - 1) * 2 ^ 252 * (den : Int) := by
  obtain ⟨-, hinf, -⟩ := h
  rw [← not_le, ← hinf, Bool.not_eq_false]

theorem isFinite_fmul_iff {a b : F32} (ha : isFinite a = true) (hb : isFinite b = true) :
    isFinite (fmul a b) = true ↔ |value a * value b| < (2 ^ 25 - 1) * 2 ^ 252 * ((2 ^ 149 : Nat) : Int) :=
  have ⟨_, _, hmul, _⟩ := arithmeticCorrectlyRounded a b ha hb
  isFinite_iff_of_correctlyRounded hmul

/-- A product of smaller factors is finite too. -/
theorem isFinite_fmul_of_le {a b c : F32} (ha : isFinite a = true) (hb : isFinite b = true) (hc : isFinite c = true)
    (h : |value b| ≤ |value c|) (hac : isFinite (fmul a c) = true) : isFinite (fmul a b) = true := by
  rw [isFinite_fmul_iff ha hc] at hac
  rw [isFinite_fmul_iff ha hb]
  refine lt_of_le_of_lt ?_ hac
  rw [abs_mul, abs_mul]
  exact mul_le_mul_of_nonneg_left h (abs_nonneg _)

/-! ### Integers as binary32 numbers -/

theorem value_natCast_i2f {n : Nat} (h : n ≤ 2 ^ 24) : value (i2f n) = n * 2 ^ 149 := value_i2f (by omega)

theorem isFinite_natCast_i2f {n : Nat} (h : n ≤ 2 ^ 24) : isFinite (i2f n) = true := isFinite_i2f (by omega)

/-- A ramp length is a finite divisor of at least one, rounded or not. -/
theorem rampLength_i2f {n : Nat} (h0 : 0 < n) (h : n < 2 ^ 31) :
    isFinite (i2f n) = true ∧ value fOne ≤ value (i2f n) := by
  constructor
  · rw [isFinite_iff_of_correctlyRounded (correctlyRounded_i2f n), abs_of_nonneg (by positivity)]
    push_cast; omega
  · refine le_value_roundPack one_pos (not_isNaN_of_isFinite isFinite_fOne) ?_
    rw [signed_i2f, value_fOne]; push_cast; omega

/-! ### Configuration -/

theorem legal_iff (cfg : Config) : cfg.legal = true ↔
    (2 ≤ cfg.capMax ∧ cfg.capMax ≤ 2 ^ 24) ∧ (1 ≤ cfg.chMax ∧ cfg.chMax ≤ 2 ^ 31 - 1) ∧
    (legalRampTime cfg.capMax cfg.rampTimeFb = true ∧ legalRampTime cfg.capMax cfg.rampTimeMix = true ∧
      legalRampTime cfg.capMax cfg.rampTimeRate = true ∧ legalRampTime cfg.capMax cfg.rampTimeLen = true) ∧
    isFinite cfg.rateMinHz = true ∧ 0 < value cfg.rateMinHz ∧ value cfg.rateMinHz ≤ value fTen := by
  simp only [Config.legal, Bool.and_eq_true, decide_eq_true_eq, and_assoc]

theorem capMax_le {cfg : Config} (h : cfg.legal = true) : cfg.capMax ≤ 2 ^ 24 := by
  obtain ⟨⟨-, hmax⟩, -⟩ := (legal_iff cfg).1 h
  exact hmax

/-- The registers of a prepared block: a capacity of 2 to `2^24` words and a sample rate of 1 to that many hertz. -/
structure RatesOk (sr32 : F32) (cap : Nat) : Prop where
  cap_ge : 2 ≤ cap
  cap_le : cap ≤ 2 ^ 24
  sr32 : between fOne sr32 (i2f cap) = true

namespace RatesOk

variable {sr : F32} {cap : Nat} (h : RatesOk sr cap)

include h

theorem value_cap : value (i2f cap) = cap * 2 ^ 149 := value_natCast_i2f h.cap_le

theorem isFinite_cap : isFinite (i2f cap) = true := isFinite_natCast_i2f h.cap_le

theorem value_last : value (i2f ((cap : Int) - 1)) = ((cap : Int) - 1) * 2 ^ 149 :=
  value_i2f (by have := h.cap_ge; have := h.cap_le; omega)

theorem isFinite_last : isFinite (i2f ((cap : Int) - 1)) = true :=
  isFinite_i2f (by have := h.cap_ge; have := h.cap_le; omega)

theorem one_le_last : value fOne ≤ value (i2f ((cap : Int) - 1)) := by
  have := h.cap_ge
  rw [h.value_last, value_fOne]; omega

theorem isFinite_sr : isFinite sr = true := isFinite_of_between isFinite_fOne h.isFinite_cap h.sr32

theorem one_le_sr : value fOne ≤ value sr := (lower_of_between h.sr32)

theorem sr_le : value sr ≤ cap * 2 ^ 149 := h.value_cap ▸ (upper_of_between h.sr32)

end RatesOk

/-- What `PREPARE` establishes contains a legal rate and capacity. -/
theorem ratesOk_of_prepared {s : State} (hs : Inv s) (hp : PreparedOk s) : RatesOk s.cr.sr32 s.cr.cap :=
  ⟨hp.cap.1, hp.cap.2.trans (capMax_le hs.cfg.legal), hp.sr32⟩

/-- A sample rate that `PREPARE` accepts gives a legal rate and capacity: `sr` lies between 1 and `dceil sr` (R120). -/
theorem ratesOk_of_dceil {sr : F64} (h2 : 2 ≤ dceil sr) (hle : dceil sr ≤ 2 ^ 24) :
    RatesOk (d2f sr) (dceil sr).toNat := by
  obtain ⟨hu, hl⟩ := dceil_spec sr
  have hcap : ((dceil sr).toNat : Int) = dceil sr := by omega
  have h925 : ((2 ^ 149 : Int)) * ((2 ^ 925 : Nat) : Int) = ((2 ^ 1074 : Nat) : Int) := by
    rw [Nat.cast_pow, Nat.cast_pow, Nat.cast_two, ← pow_add]
  have hpos : (0 : Int) < ((2 ^ 1074 : Nat) : Int) := by positivity
  refine ⟨by omega, by omega, between_of_bounds (isNaN_roundPack _ _ _) ?_ ?_⟩
  · refine le_value_roundPack (by positivity) (not_isNaN_of_isFinite isFinite_fOne) ?_
    rw [value_fOne, h925]
    change _ ≤ value64 sr
    nlinarith
  · refine value_roundPack_le (by positivity) (isNaN_i2f _) ?_
    rw [value_natCast_i2f (by omega), hcap, mul_assoc, h925]
    exact hu

/-! ### Registers and the start of a channel (R122, R128) -/

/-- A product of milliseconds up to 1000 and a sample rate does not overflow (R128). -/
theorem convertOperands {ms sr : F32} {cap : Nat} (hr : RatesOk sr cap) (hms : between fZero ms fThousand = true) :
    ConvertOperands ms sr := by
  have hf := isFinite_of_between isFinite_fZero isFinite_fThousand hms
  obtain ⟨-, h0, h1⟩ := (between_iff _ _ _).1 hms
  have hsr1 := hr.one_le_sr
  have hsr2 := hr.sr_le
  have hcap := hr.cap_le
  rw [value_fZero] at h0; rw [value_fThousand] at h1; rw [value_fOne] at hsr1
  refine ⟨⟨hf, hr.isFinite_sr⟩, (isFinite_fmul_iff hf hr.isFinite_sr).2 ?_, isFinite_fThousand,
    isZero_eq_false (by simp)⟩
  have hsr3 : value sr ≤ 2 ^ 24 * 2 ^ 149 := by omega
  have hprod : value ms * value sr ≤ (1000 * 2 ^ 149) * (2 ^ 24 * 2 ^ 149) :=
    mul_le_mul h1 hsr3 (by omega) (by norm_num)
  rw [abs_of_nonneg (mul_nonneg h0 (by omega))]
  exact lt_of_le_of_lt hprod (by norm_num)

theorem isNaN_msToSamples {ms sr : F32} (h : ConvertOperands ms sr) : isNaN (fdiv (fmul ms sr) fThousand) = false := by
  obtain ⟨-, hf, hk, -⟩ := h
  exact isNaN_fdiv hf hk (by simp)

theorem centerOperands {cr : Regs} (hr : RatesOk cr.sr32 cr.cap) (hms : between fZero cr.delayMs fThousand = true) :
    CenterOperands cr :=
  have h := convertOperands hr hms
  ⟨h, isNaN_msToSamples h, isNaN_i2f _⟩

/-- A depth in milliseconds is a delay time in milliseconds. -/
theorem between_fThousand_of_fTen {v : F32} (h : between fZero v fTen = true) : between fZero v fThousand = true :=
  between_mono h le_rfl (by rw [value_fTen, value_fThousand]; omega)

/-- A legal ramp time is finite, and its length is at every rate up to `CAP_MAX` (R91). -/
theorem startRampOperands {capMax cap : Nat} {t sr : F32} (ht : legalRampTime capMax t = true) (hr : RatesOk sr cap)
    (hle : cap ≤ capMax) (hmax : capMax ≤ 2 ^ 24) : StartRampOperands t sr := by
  simp only [legalRampTime, Bool.and_eq_true, decide_eq_true_eq] at ht
  obtain ⟨⟨⟨hf, -⟩, hprod⟩, -⟩ := ht
  refine ⟨⟨hf, hr.isFinite_sr⟩, isFinite_fmul_of_le hf hr.isFinite_sr (isFinite_natCast_i2f hmax) ?_ hprod⟩
  have h1 := hr.one_le_sr
  have h2 := hr.sr_le
  rw [value_fOne] at h1
  have h3 := value_natCast_i2f hmax
  rw [abs_of_nonneg (by omega), abs_of_nonneg (by omega)]
  omega

theorem startOperands {cfg : Config} {cr : Regs} (hcfg : cfg.legal = true) (hr : RatesOk cr.sr32 cr.cap)
    (hle : cr.cap ≤ cfg.capMax) (hc : isNaN cr.center = false) : StartOperands cfg cr := by
  obtain ⟨⟨-, hmax⟩, -, ⟨hfb, hmix, hrate, hlen⟩, -⟩ := (legal_iff _).1 hcfg
  have hstart := between_clamp hc (not_isNaN_of_isFinite isFinite_fOne) (isNaN_i2f _) hr.one_le_last
  exact ⟨startRampOperands hfb hr hle hmax, startRampOperands hmix hr hle hmax, startRampOperands hrate hr hle hmax,
    startRampOperands hlen hr hle hmax, ⟨hc, isNaN_i2f _⟩, hr.isFinite_cap,
    isFinite_of_between isFinite_fOne hr.isFinite_last hstart⟩

/-! ### Ramps (R92, R93) -/

section Ramp

variable {lo hi : F32} {r : Ramp} (hlo : isFinite lo = true) (h0 : 0 ≤ value lo) (hhi : isFinite hi = true)
  (h : RampOk lo hi r)

include h

/-- A move away from the lower end, guarded by the target, stays in range. -/
theorem between_fmin_tgt {m : F32} (hm : isNaN m = false) (hge : value r.cur ≤ value m) :
    between lo (fmin m r.tgt) hi = true := by
  obtain ⟨-, hc, -⟩ := (between_iff _ _ _).1 h.cur
  obtain ⟨htn, ht1, ht2⟩ := (between_iff _ _ _).1 h.tgt
  refine between_of_bounds (isNaN_fmin hm htn) ?_ ?_ <;> rw [value_fmin hm htn] <;> omega

/-- A move away from the upper end, guarded by the target, stays in range. -/
theorem between_fmax_tgt {m : F32} (hm : isNaN m = false) (hle : value m ≤ value r.cur) :
    between lo (fmax m r.tgt) hi = true := by
  obtain ⟨-, -, hc⟩ := (between_iff _ _ _).1 h.cur
  obtain ⟨htn, ht1, ht2⟩ := (between_iff _ _ _).1 h.tgt
  refine between_of_bounds (isNaN_fmax hm htn) ?_ ?_ <;> rw [value_fmax hm htn] <;> omega

include hlo hhi

theorem advanceOperands (mode : RampMode) : AdvanceOperands mode r := by
  intro hrem
  have hcur := isFinite_of_between hlo hhi h.cur
  have hstep := h.step (by omega)
  refine ⟨⟨hcur, hstep⟩, ?_, (isNaN_of_between h.tgt)⟩
  cases mode
  · exact isNaN_fadd hcur hstep
  · exact isNaN_fmul hcur hstep

include h0

/-- The sense of the guard is that of the step, so a guarded move stays in range whichever way it goes (R93). -/
theorem between_rampMove (mode : RampMode) (hrem : 0 < r.rem) : between lo (rampMove mode r) hi = true := by
  have hcur := isFinite_of_between hlo hhi h.cur
  have hcn := not_isNaN_of_isFinite hcur
  have hstep := h.step hrem
  have hsn := not_isNaN_of_isFinite hstep
  have hpos : 0 ≤ value r.cur := h0.trans (lower_of_between h.cur)
  cases mode <;> simp only [rampMove] <;> split
  · rename_i hup
    rw [fle_iff (by decide) hsn, value_fZero] at hup
    exact between_fmin_tgt h (isNaN_fadd hcur hstep) (le_fadd hcur hstep hcn (by omega))
  · rename_i hdown
    rw [fle_iff (by decide) hsn, value_fZero] at hdown
    exact between_fmax_tgt h (isNaN_fadd hcur hstep) (fadd_le hcur hstep hcn (by omega))
  · rename_i hup
    rw [fle_iff (by decide) hsn, value_fOne] at hup
    exact between_fmin_tgt h (isNaN_fmul hcur hstep) (le_fmul hcur hstep hcn (mul_le_mul_of_nonneg_left hup hpos))
  · rename_i hdown
    rw [fle_iff (by decide) hsn, value_fOne] at hdown
    exact between_fmax_tgt h (isNaN_fmul hcur hstep)
      (fmul_le hcur hstep hcn (mul_le_mul_of_nonneg_left (by omega) hpos))

/-- `ramp_next` keeps the current value in range. -/
theorem between_rampNext (mode : RampMode) : between lo (rampNext mode r).cur hi = true := by
  rcases rampNext_cases mode r with ⟨-, e⟩ | ⟨-, e⟩ | ⟨hrem, e⟩ <;> rw [e]
  · exact h.cur
  · exact h.tgt
  · exact between_rampMove hlo h0 hhi h mode (by omega)

variable {v : F32} (hv : between lo v hi = true)

include hv

/-- The way a linear ramp has to go is at most the upper end of its range. -/
theorem between_way : between (fneg hi) (fsub v r.cur) hi = true := by
  obtain ⟨-, hv1, hv2⟩ := (between_iff _ _ _).1 hv
  obtain ⟨-, hc1, hc2⟩ := (between_iff _ _ _).1 h.cur
  exact between_fsub (isFinite_of_between hlo hhi hv) (isFinite_of_between hlo hhi h.cur)
    ((isFinite_fneg _).trans hhi) hhi (by rw [value_fneg]; omega) (by omega)

theorem retargetOperands_lin : RetargetOperands .lin r v := by
  refine ⟨⟨(isNaN_of_between hv), (isNaN_of_between h.tgt)⟩, fun _ hN => ?_⟩
  obtain ⟨hNf, hN1⟩ := rampLength_i2f hN h.width
  rw [value_fOne] at hN1
  exact ⟨⟨isFinite_of_between hlo hhi hv, isFinite_of_between hlo hhi h.cur⟩,
    isFinite_of_between ((isFinite_fneg _).trans hhi) hhi (between_way hlo h0 hhi h hv), hNf, isZero_eq_false (by omega)⟩

/-- A linear ramp retargeted inside its range is a ramp of that range. -/
theorem rampOk_setTarget_lin (cfg : Config) : RampOk lo hi (rampSetTarget cfg .lin r v) := by
  rcases rampSetTarget_cases cfg .lin r v with ⟨-, e⟩ | ⟨-, hN, e⟩ | ⟨-, hN, e⟩ <;> rw [e]
  · exact h
  · exact ⟨hv, hv, Nat.zero_le _, h.width, fun _ => rfl, fun h' => absurd h' (lt_irrefl 0)⟩
  · have hhi0 : 0 ≤ value hi := h0.trans ((lower_of_between hv).trans (upper_of_between hv))
    have hfneg := (isFinite_fneg hi).trans hhi
    obtain ⟨hNf, hN1⟩ := rampLength_i2f hN h.width
    refine ⟨h.cur, hv, le_rfl, h.width, fun h' => absurd h' hN.ne', fun _ => ?_⟩
    exact isFinite_of_between hfneg hhi (between_fdiv_of_one_le hfneg hhi (by rw [value_fneg]; omega) hhi0
      (between_way hlo h0 hhi h hv) hNf hN1)

omit h0 in
theorem retargetOperands_mul (hpos : 0 < value lo) : RetargetOperands .mul r v := by
  have hvf := isFinite_of_between hlo hhi hv
  have hcf := isFinite_of_between hlo hhi h.cur
  obtain ⟨hvn, hv1, -⟩ := (between_iff _ _ _).1 hv
  obtain ⟨-, hc1, -⟩ := (between_iff _ _ _).1 h.cur
  have hc0 : 0 < value r.cur := by omega
  refine ⟨⟨hvn, (isNaN_of_between h.tgt)⟩, fun _ _ => ⟨⟨hvf, hcf, isZero_eq_false hc0.ne'⟩,
    isNaN_fdiv hvf hcf hc0, ?_⟩⟩
  have hq := le_fdiv (c := fZero) hvf hcf hc0 (by decide) (by rw [value_fZero]; omega)
  rwa [value_fZero] at hq

end Ramp

end Sys2Proof.Proofs
end

section
/-! PROOFS. Operands of one sample time and of every command (spec/00_scope.md R12, spec/44_process_sample.md R140 to R149). -/

namespace Sys2Proof.Proofs

open Sys2Proof.Machine Sys2Proof.Laws

/-! ### Whole numbers that bound intermediate results -/

theorem value_i2f_21 : value (i2f 21) = 21 * 2 ^ 149 := value_i2f (by norm_num)
theorem value_i2f_42 : value (i2f 42) = 42 * 2 ^ 149 := value_i2f (by norm_num)
theorem value_i2f_63 : value (i2f 63) = 63 * 2 ^ 149 := value_i2f (by norm_num)
theorem value_i2f_70 : value (i2f 70) = 70 * 2 ^ 149 := value_i2f (by norm_num)

theorem isFinite_i2f_21 : isFinite (i2f 21) = true := isFinite_i2f (by norm_num)
theorem isFinite_i2f_42 : isFinite (i2f 42) = true := isFinite_i2f (by norm_num)
theorem isFinite_i2f_63 : isFinite (i2f 63) = true := isFinite_i2f (by norm_num)
theorem isFinite_i2f_70 : isFinite (i2f 70) = true := isFinite_i2f (by norm_num)

/-- A number of a finite range round zero is finite. -/
theorem isFinite_of_between_fneg {v c : F32} (hc : isFinite c = true) (h : between (fneg c) v c = true) :
    isFinite v = true := isFinite_of_between ((isFinite_fneg _).trans hc) hc h

/-- A number of `[0, 1]` is a factor of magnitude at most one. -/
theorem abs_le_one_of_between {u : F32} (h : between fZero u fOne = true) : |value u| ≤ value fOne := by
  obtain ⟨-, h0, h1⟩ := (between_iff _ _ _).1 h
  rw [value_fZero] at h0
  rwa [abs_of_nonneg h0]

/-! ### The interpolated read (R113) -/

/-- The fraction of a read position. -/
theorem between_fraction {p : F32} (hp : isFinite p = true) : between fZero (fsub p (ffloor p)) fOne = true := by
  obtain ⟨hf, hv⟩ := ffloor_spec hp
  have hle := Int.ediv_mul_le (value p) (b := ((2 ^ 149 : Nat) : Int)) (by positivity)
  have hlt := Int.lt_ediv_add_one_mul_self (value p) (b := ((2 ^ 149 : Nat) : Int)) (by positivity)
  rw [add_mul, one_mul] at hlt
  change floorInt p * _ ≤ _ at hle
  change _ < floorInt p * _ + _ at hlt
  rw [← hv] at hle hlt
  push_cast at hlt
  exact between_fsub hp hf isFinite_fZero isFinite_fOne (by rw [value_fZero]; omega) (by rw [value_fOne]; omega)

/-- A word of the addressed RAM lies between -21 and 21 (R39). -/
theorem between_of_wordOk {v : F32} (h : wordOk v = true) : between (fneg (i2f 21)) v (i2f 21) = true := by
  simp only [wordOk, Bool.and_eq_true, decide_eq_true_eq] at h
  obtain ⟨hf, hv⟩ := h
  rw [between_fneg_iff, value_i2f_21]
  exact ⟨not_isNaN_of_isFinite hf, by exact_mod_cast hv.le⟩

section Interpolate

variable {p a b : F32} (hp : isFinite p = true) (ha : between (fneg (i2f 21)) a (i2f 21) = true)
  (hb : between (fneg (i2f 21)) b (i2f 21) = true)

include ha hb

/-- Two words differ by at most 42. -/
theorem between_tapDifference : between (fneg (i2f 42)) (fsub b a) (i2f 42) = true := by
  obtain ⟨-, ha'⟩ := (between_fneg_iff _ _).1 ha
  obtain ⟨-, hb'⟩ := (between_fneg_iff _ _).1 hb
  rw [value_i2f_21, abs_le] at ha' hb'
  refine between_fsub (isFinite_of_between_fneg isFinite_i2f_21 hb) (isFinite_of_between_fneg isFinite_i2f_21 ha)
    ((isFinite_fneg _).trans isFinite_i2f_42) isFinite_i2f_42 ?_ ?_
  · rw [value_fneg, value_i2f_42]; omega
  · rw [value_i2f_42]; omega

include hp

/-- The part of the difference that the fraction takes. -/
theorem between_tapShare : between (fneg (i2f 42)) (fmul (fsub p (ffloor p)) (fsub b a)) (i2f 42) = true :=
  have hfrac := between_fraction hp
  between_unit_fmul (isFinite_of_between isFinite_fZero isFinite_fOne hfrac) (abs_le_one_of_between hfrac)
    isFinite_i2f_42 (between_tapDifference ha hb)

theorem interpolateOperands : InterpolateOperands p a b :=
  have haf := isFinite_of_between_fneg isFinite_i2f_21 ha
  ⟨⟨hp, (ffloor_spec hp).1⟩, ⟨isFinite_of_between_fneg isFinite_i2f_21 hb, haf⟩,
    ⟨isFinite_of_between isFinite_fZero isFinite_fOne (between_fraction hp),
      isFinite_of_between_fneg isFinite_i2f_42 (between_tapDifference ha hb)⟩,
    haf, isFinite_of_between_fneg isFinite_i2f_42 (between_tapShare hp ha hb)⟩

/-- A crude bound of the delayed sample, enough for it to be finite. -/
theorem between_interpolate :
    between (fneg (i2f 63)) (interpolate (fsub p (ffloor p)) a b) (i2f 63) = true := by
  have hs := between_tapShare hp ha hb
  obtain ⟨-, ha'⟩ := (between_fneg_iff _ _).1 ha
  obtain ⟨-, hs'⟩ := (between_fneg_iff _ _).1 hs
  rw [value_i2f_21, abs_le] at ha'
  rw [value_i2f_42, abs_le] at hs'
  refine between_fadd (isFinite_of_between_fneg isFinite_i2f_21 ha) (isFinite_of_between_fneg isFinite_i2f_42 hs)
    ((isFinite_fneg _).trans isFinite_i2f_63) isFinite_i2f_63 ?_ ?_
  · rw [value_fneg, value_i2f_63]; omega
  · rw [value_i2f_63]; omega

end Interpolate

/-! ### The oscillator (R103) -/

/-- Every turn of the wrap loop that is reached starts from a finite phase that is not negative. -/
theorem isFinite_subtractTurns (k : Nat) {ph : F32} (h : between fZero ph (i2f 70) = true)
    (hturn : ∀ j, j < k → fle twoPi (subtractTurns j ph) = true) : isFinite (subtractTurns k ph) = true := by
  induction k generalizing ph with
  | zero => exact isFinite_of_between isFinite_fZero isFinite_i2f_70 h
  | succ k ih =>
    have hf := isFinite_of_between isFinite_fZero isFinite_i2f_70 h
    obtain ⟨hn, -, hu⟩ := (between_iff _ _ _).1 h
    have h2 : value twoPi ≤ value ph := (fle_iff (by decide) hn).1 (hturn 0 (by omega))
    have hpi : 0 ≤ value twoPi := by rw [value_twoPi]; norm_num
    refine ih (ph := fsub ph twoPi) ?_ fun j hj => hturn (j + 1) (by omega)
    exact between_fsub hf isFinite_twoPi isFinite_fZero isFinite_i2f_70 (by rw [value_fZero]; omega) (by omega)

theorem oscillatorOperands {sr hz phase : F32} {cap : Nat} (hr : RatesOk sr cap) (hhz : between fZero hz fTen = true)
    (hph : between fZero phase twoPi = true) : OscillatorOperands sr hz phase := by
  have hhzf := isFinite_of_between isFinite_fZero isFinite_fTen hhz
  have hphf := isFinite_of_between isFinite_fZero isFinite_twoPi hph
  obtain ⟨-, hz0, hz1⟩ := (between_iff _ _ _).1 hhz
  obtain ⟨-, ph0, ph1⟩ := (between_iff _ _ _).1 hph
  rw [value_fZero] at hz0 ph0; rw [value_fTen] at hz1; rw [value_twoPi] at ph1
  have hmul : between fZero (fmul twoPi hz) (i2f 63) = true :=
    between_fmul isFinite_twoPi hhzf isFinite_fZero isFinite_i2f_63 (by rw [value_fZero, value_twoPi]; omega)
      (by rw [value_i2f_63, value_twoPi]; omega)
  have hsr := hr.one_le_sr
  have hinc := between_fdiv_of_one_le isFinite_fZero isFinite_i2f_63 (by rw [value_fZero])
    (by rw [value_i2f_63]; norm_num) hmul hr.isFinite_sr hsr
  have hincf := isFinite_of_between isFinite_fZero isFinite_i2f_63 hinc
  obtain ⟨-, inc0, inc1⟩ := (between_iff _ _ _).1 hinc
  rw [value_fZero] at inc0; rw [value_i2f_63] at inc1
  rw [value_fOne] at hsr
  exact ⟨⟨isFinite_twoPi, hhzf⟩,
    ⟨isFinite_of_between isFinite_fZero isFinite_i2f_63 hmul, hr.isFinite_sr, isZero_eq_false (by omega)⟩,
    ⟨hphf, hincf⟩,
    fun k => isFinite_subtractTurns k (between_fadd hphf hincf isFinite_fZero isFinite_i2f_70
      (by rw [value_fZero]; omega) (by rw [value_i2f_70]; omega))⟩

/-! ### The target length and the read position (R144, R145, R147) -/

/-- A modulation of the delay is at most the depth. -/
theorem isFinite_modulation (cfg : Config) (phase : F32) {depth : F32} (h : isFinite depth = true ∧ 0 ≤ value depth) :
    isFinite (fmul (SIN cfg phase) depth) = true := by
  obtain ⟨hf, h0⟩ := h
  obtain ⟨-, hl, hu⟩ := (between_iff _ _ _).1 (between_SIN cfg phase)
  refine isFinite_of_between_fneg hf (between_unit_fmul (isFinite_SIN cfg phase) ?_ hf ?_)
  · rw [value_fNegOne] at hl; rw [value_fOne] at hu ⊢
    exact abs_le.2 ⟨hl, hu⟩
  · rw [between_fneg_iff, abs_of_nonneg h0]
    exact ⟨not_isNaN_of_isFinite hf, le_rfl⟩

section Length

variable {cfg : Config} {cr : Regs} (hr : RatesOk cr.sr32 cr.cap) (hc : ControlOk cfg cr)

include hc

theorem targetOperands (phase : F32) : TargetOperands cfg cr phase :=
  have hmod := isFinite_modulation cfg phase hc.depth
  ⟨⟨isFinite_SIN cfg phase, hc.depth.1⟩, ⟨hc.center.1, hmod⟩, isNaN_fadd hc.center.1 hmod, isNaN_i2f _⟩

include hr

/-- The target length lies in the range of the length ramp, however far the modulation reaches. -/
theorem between_targetLength (r : Channel) :
    between fOne (targetLength cfg cr r) (i2f ((cr.cap : Int) - 1)) = true :=
  have ⟨_, _, hsum, _⟩ := targetOperands hc r.phase
  between_clamp hsum (not_isNaN_of_isFinite isFinite_fOne) (isNaN_i2f _) hr.one_le_last

end Length

theorem positionOperands {sr len : F32} {cap w : Nat} (hr : RatesOk sr cap) (hw : w < cap)
    (hlen : between fOne len (i2f ((cap : Int) - 1)) = true) : PositionOperands cap w len := by
  have hcap := hr.cap_le
  have hwf := isFinite_natCast_i2f (n := w) (by omega)
  have hlenf := isFinite_of_between isFinite_fOne hr.isFinite_last hlen
  obtain ⟨-, l0, l1⟩ := (between_iff _ _ _).1 hlen
  have hwv := value_natCast_i2f (n := w) (by omega)
  have hcv := hr.value_cap
  rw [hr.value_last] at l1; rw [value_fOne] at l0
  exact ⟨⟨hwf, hlenf⟩, isFinite_of_between_fneg hr.isFinite_cap (between_fsub hwf hlenf
    ((isFinite_fneg _).trans hr.isFinite_cap) hr.isFinite_cap (by rw [value_fneg]; omega) (by omega)),
    hr.isFinite_cap⟩

/-! ### The mix (R148) -/

/-- Half of a number of `[0, 1]` at most, doubled: the gain of R148. -/
theorem between_gain {y : F32} (h : between fZero y fOne = true) :
    isFinite (fmin fHalf y) = true ∧ between fZero (fmul fTwo (fmin fHalf y)) fOne = true := by
  obtain ⟨hn, h0, -⟩ := (between_iff _ _ _).1 h
  rw [value_fZero] at h0
  have hv : value (fmin fHalf y) = min (2 ^ 148) (value y) := by rw [value_fmin (by decide) hn, value_fHalf]
  have hf : isFinite (fmin fHalf y) = true :=
    isFinite_of_between isFinite_fZero isFinite_fHalf (between_of_bounds (isNaN_fmin (by decide) hn)
      (by rw [value_fZero, hv]; omega) (by rw [value_fHalf, hv]; omega))
  exact ⟨hf, between_fmul isFinite_fTwo hf isFinite_fZero isFinite_fOne (by rw [value_fZero, value_fTwo, hv]; omega)
    (by rw [value_fOne, value_fTwo, hv]; omega)⟩

theorem mixOperands {m x d : F32} (hm : between fZero m fOne = true) (hx : between (fneg fOne) x fOne = true)
    (hd : between (fneg (i2f 63)) d (i2f 63) = true) : MixOperands m x d := by
  have hmf := isFinite_of_between isFinite_fZero isFinite_fOne hm
  obtain ⟨-, m0, m1⟩ := (between_iff _ _ _).1 hm
  rw [value_fZero] at m0
  have hrest : between fZero (fsub fOne m) fOne = true :=
    between_fsub isFinite_fOne hmf isFinite_fZero isFinite_fOne (by rw [value_fZero]; omega) (by omega)
  obtain ⟨hdryf, hdry⟩ := between_gain hrest
  obtain ⟨hwetf, hwet⟩ := between_gain hm
  have hgain {g : F32} (hg : between fZero g fOne = true) := isFinite_of_between isFinite_fZero isFinite_fOne hg
  have hdx := isFinite_of_between_fneg isFinite_fOne
    (between_unit_fmul (hgain hdry) (abs_le_one_of_between hdry) isFinite_fOne hx)
  have hwd := isFinite_of_between_fneg isFinite_i2f_63
    (between_unit_fmul (hgain hwet) (abs_le_one_of_between hwet) isFinite_i2f_63 hd)
  exact ⟨⟨isFinite_fOne, hmf⟩, ⟨isFinite_fTwo, hdryf⟩, ⟨isFinite_fTwo, hwetf⟩,
    ⟨hgain hdry, isFinite_of_between_fneg isFinite_fOne hx⟩, ⟨hgain hwet, isFinite_of_between_fneg isFinite_i2f_63 hd⟩,
    ⟨hdx, hwd⟩, isNaN_fadd hdx hwd⟩

/-! ### One sample time -/

/-- The feedback product (R142): the delayed sample times a gain below one. -/
theorem isFinite_feedback {d g : F32} (hd : between (fneg (i2f 63)) d (i2f 63) = true)
    (hg : between fZero g fbMax = true) : isFinite g = true ∧ isFinite (fmul d g) = true := by
  have hgf := isFinite_of_between isFinite_fZero isFinite_fbMax hg
  have h1 := abs_le_one_of_between (between_mono hg le_rfl (by rw [value_fbMax, value_fOne]; norm_num))
  have hdf := isFinite_of_between_fneg isFinite_i2f_63 hd
  rw [fmul_comm hdf hgf]
  exact ⟨hgf, isFinite_of_between_fneg isFinite_i2f_63 (between_unit_fmul hgf h1 isFinite_i2f_63 hd)⟩

theorem sampleOperands {cfg : Config} {cr : Regs} {r : Channel} {x a b : F32} (hcfg : cfg.legal = true)
    (hr : RatesOk cr.sr32 cr.cap) (hc : ControlOk cfg cr) (hok : ChannelOk cfg cr r)
    (hx : between (fneg fOne) x fOne = true) (ha : wordOk a = true) (hb : wordOk b = true) :
    SampleOperands cfg cr r x a b := by
  obtain ⟨-, -, -, hminf, hmin, -⟩ := (legal_iff _).1 hcfg
  have hzero : 0 ≤ value fZero := by rw [value_fZero]
  have hone : 0 ≤ value fOne := by rw [value_fOne]; norm_num
  have ha := between_of_wordOk ha
  have hb := between_of_wordOk hb
  have hp := isFinite_of_between isFinite_fZero hr.isFinite_cap hok.rp
  have hd := between_interpolate hp ha hb
  obtain ⟨hfbf, hprod⟩ := isFinite_feedback hd (between_rampNext isFinite_fZero hzero isFinite_fbMax hok.fb .lin)
  have hhz := between_rampNext hminf hmin.le isFinite_fTen hok.rate .mul
  have htl := between_targetLength hr hc r
  have hlen := rampOk_setTarget_lin isFinite_fOne hone hr.isFinite_last hok.len htl cfg
  exact ⟨interpolateOperands hp ha hb,
    advanceOperands isFinite_fZero isFinite_fbMax hok.fb .lin,
    ⟨isFinite_of_between_fneg isFinite_i2f_63 hd, hfbf⟩,
    ⟨isFinite_of_between_fneg isFinite_fOne hx, hprod⟩,
    advanceOperands hminf isFinite_fTen hok.rate .mul,
    oscillatorOperands hr (between_mono hhz (by rw [value_fZero]; exact hmin.le) le_rfl) hok.phase,
    targetOperands hc r.phase,
    retargetOperands_lin isFinite_fOne hone hr.isFinite_last hok.len htl,
    advanceOperands isFinite_fOne hr.isFinite_last hlen .lin,
    positionOperands hr (Nat.mod_lt _ (by have := hr.cap_ge; omega))
      (between_rampNext isFinite_fOne hone hr.isFinite_last hlen .lin),
    advanceOperands isFinite_fZero isFinite_fOne hok.mix .lin,
    mixOperands (between_rampNext isFinite_fZero hzero isFinite_fOne hok.mix .lin) hx hd⟩

/-! ### The commands -/

/-- A command other than `PREPARE` that passes its checks runs in a prepared engine (R129). -/
theorem prepared_of_no_violation {s : State} {i : Instr} (hs : s.engine ≠ .faulted)
    (h : (if s.engine = .unprepared then some Cause.notPrepared else operandViolation s i) = none) :
    s.engine = .prepared ∧ operandViolation s i = none := by
  split at h
  · simp at h
  · exact ⟨by cases he : s.engine <;> simp_all, h⟩

/-- A value that passes `check_value` is no NaN (R130). -/
theorem not_isNaN_of_no_violation {v : F32} (h : (if isNaN v then some Cause.badValue else none) = none) :
    isNaN v = false := by
  by_contra hn
  simp [hn] at h

/-- The operands of `PREPARE` that pass its checks (R163). -/
theorem prepareViolation_eq_none {cfg : Config} {sr : F64} {ch : Int} (h : prepareViolation cfg sr ch = none) :
    2 ≤ dceil sr ∧ dceil sr ≤ cfg.capMax := by
  unfold prepareViolation at h
  split_ifs at h
  omega

/-- The operands of `PROCESS_SAMPLE` that pass its checks (R164, R165). -/
theorem processSample_operands {s : State} {ch : Int} {x : F32} (h : operandViolation s (.processSample ch x) = none) :
    (0 ≤ ch ∧ ch < s.cr.nch) ∧ between (fneg fOne) x fOne = true := by
  simp only [operandViolation] at h
  split_ifs at h with hch hx
  rw [not_or, not_or, not_lt, not_lt] at hx
  obtain ⟨hf, hl, hu⟩ := hx
  rw [value_fNegOne, ← value_fOne, ← value_fneg] at hl
  exact ⟨by omega, between_of_bounds (not_isNaN_of_isFinite (by simpa using hf)) hl hu⟩

/-- Every word a live channel reads is a word of the addressed RAM. -/
theorem wordOk_of_bufRead {s : State} (hp : PreparedOk s) {c : Nat} (hc : c < s.cr.nch) {k : Int} {v : F32}
    (h : bufRead s.cr.cap s.ram c k = some v) : wordOk v = true := by
  obtain ⟨u, hu, hok⟩ := hp.words c (wrapIndex s.cr.cap k) hc (wrapIndex_lt (by have := hp.cap.1; omega) k)
  rw [bufRead, hu, Option.some.injEq] at h
  exact h ▸ hok

/-- A clamped operand lies in the range of its register. -/
theorem between_clamp_operand {v lo hi : F32} (hv : isNaN v = false) (hlo : isFinite lo = true)
    (hhi : isFinite hi = true) (h : value lo ≤ value hi) : between lo (clamp v lo hi) hi = true :=
  between_clamp hv (not_isNaN_of_isFinite hlo) (not_isNaN_of_isFinite hhi) h

/-- `PREPARE` computes with the new rate and capacity and the registers as they stand (R120). -/
theorem prepare_operands {s : State} (hs : Inv s) {sr : F64} {block ch : Int}
    (h : prepareViolation s.cfg sr ch = none) : CommandOperands s (.prepare sr block ch) := by
  obtain ⟨h2, hle⟩ := prepareViolation_eq_none h
  have hmax := capMax_le hs.cfg.legal
  have hr := ratesOk_of_dceil h2 (by omega)
  obtain ⟨hconv, hdelay, hcap⟩ :=
    centerOperands (cr := { s.cr with sr32 := d2f sr, cap := (dceil sr).toNat }) hr hs.control.delayMs
  exact ⟨⟨hconv, hdelay, hcap⟩, convertOperands hr (between_fThousand_of_fTen hs.control.depthMs),
    startOperands hs.cfg.legal hr (by dsimp only; omega) (isNaN_fmin hdelay hcap)⟩

/-- A command on a prepared engine with operands in range. -/
theorem prepared_operands {s : State} (hs : Inv s) (he : s.engine = .prepared) {i : Instr}
    (hi : ∀ sr block ch, i ≠ .prepare sr block ch) (h : operandViolation s i = none) : CommandOperands s i := by
  have hp := hs.live (hs.prepared he)
  have hr := ratesOk_of_prepared hs hp
  obtain ⟨-, -, -, hminf, hmin, hmin10⟩ := (legal_iff _).1 hs.cfg.legal
  have hzero : 0 ≤ value fZero := by rw [value_fZero]
  have hone : value fZero ≤ value fOne := by rw [value_fZero, value_fOne]; norm_num
  cases i with
  | prepare sr block ch => exact absurd rfl (hi sr block ch)
  | reset => exact startOperands hs.cfg.legal hr hp.cap.2 (isNaN_of_between hp.center)
  | setDelayTimeMs v =>
    have hv := not_isNaN_of_no_violation h
    exact centerOperands (cr := { s.cr with delayMs := _ }) hr
      (between_clamp_operand hv isFinite_fZero isFinite_fThousand (by rw [value_fZero, value_fThousand]; norm_num))
  | setMix v =>
    have hv := between_clamp_operand (not_isNaN_of_no_violation h) isFinite_fZero isFinite_fOne hone
    exact fun c r hc hcs =>
      retargetOperands_lin isFinite_fZero hzero isFinite_fOne (channelOk_of_inv hs hc hcs).mix hv
  | setFeedback v =>
    have hv := between_clamp_operand (not_isNaN_of_no_violation h) isFinite_fZero isFinite_fbMax
      (by rw [value_fZero, value_fbMax]; norm_num)
    exact fun c r hc hcs =>
      retargetOperands_lin isFinite_fZero hzero isFinite_fbMax (channelOk_of_inv hs hc hcs).fb hv
  | setLfoRateHz v =>
    have hv := between_clamp_operand (not_isNaN_of_no_violation h) hminf isFinite_fTen hmin10
    exact fun c r hc hcs => retargetOperands_mul hminf isFinite_fTen (channelOk_of_inv hs hc hcs).rate hv hmin
  | setLfoDepthMs v =>
    have hv := between_clamp_operand (not_isNaN_of_no_violation h) isFinite_fZero isFinite_fTen
      (by rw [value_fZero, value_fTen]; norm_num)
    exact convertOperands hr (between_fThousand_of_fTen hv)
  | processSample ch x =>
    obtain ⟨⟨hch0, hch⟩, hx⟩ := processSample_operands h
    have hc : ch.toNat < s.cr.nch := by omega
    exact fun r a b hcs ha hb => sampleOperands hs.cfg.legal hr hs.control (channelOk_of_inv hs hc hcs) hx
      (wordOk_of_bufRead hp hc ha) (wordOk_of_bufRead hp hc hb)

/-- The checks of a command other than `PREPARE`, in the order of R167. -/
theorem commandViolation_of_ne_prepare (s : State) {i : Instr} (hi : ∀ sr block ch, i ≠ .prepare sr block ch) :
    commandViolation s i = if s.engine = .unprepared then some .notPrepared else operandViolation s i := by
  cases i with
  | prepare sr block ch => exact absurd rfl (hi sr block ch)
  | _ => rfl

/-- Settles O56: `PREPARE` by its own checks, every other command in a prepared engine. -/
theorem primitivesGetDefinedOperands : Obligations.PrimitivesGetDefinedOperands := by
  intro s i hs hf h
  by_cases hi : ∃ sr block ch, i = .prepare sr block ch
  · obtain ⟨sr, block, ch, rfl⟩ := hi
    exact prepare_operands hs h
  · have hne : ∀ sr block ch, i ≠ .prepare sr block ch := fun sr block ch he => hi ⟨sr, block, ch, he⟩
    rw [commandViolation_of_ne_prepare s hne] at h
    obtain ⟨he, hop⟩ := prepared_of_no_violation hf h
    exact prepared_operands hs he hne hop

end Sys2Proof.Proofs
end

section
/-! PROOFS. What a command and a step can do.  A command is ignored, raises its first violation, or completes with one of the
eight writes of `Completed`; a step adds hardware reset and the ports.  What every one of these keeps, every step keeps. -/

namespace Sys2Proof.Proofs

open Sys2Proof.Machine Sys2Proof.Laws

/-! ### Completion -/

/-- The state write of each command that passes its checks (R120 to R127, R140). -/
inductive Completed : Instr → State → State → Prop
  | prepare {sr : F64} {block ch : Int} {s : State} {sr32 : F32} {cap nch : Nat}
      (ok : prepareOperandsOk s.cfg sr ch = true) (hsr : sr32 = d2f sr) (hcap : cap = (dceil sr).toNat)
      (hnch : nch = ch.toNat) : Completed (.prepare sr block ch) s (s.configure sr32 cap nch)
  | reset {s : State} (he : s.engine = .prepared) : Completed .reset s s.restart
  | setDelayTimeMs {v : F32} {s : State} (he : s.engine = .prepared) (hv : isNaN v = false) :
      Completed (.setDelayTimeMs v) s (s.withRegs (deriveCenter { s.cr with delayMs := clamp v fZero fThousand }))
  | setMix {v : F32} {s : State} (he : s.engine = .prepared) (hv : isNaN v = false) :
      Completed (.setMix v) s ((s.withRegs { s.cr with mixT := clamp v fZero fOne }).mapLive fun r =>
        { r with mix := rampSetTarget s.cfg .lin r.mix (clamp v fZero fOne) })
  | setFeedback {v : F32} {s : State} (he : s.engine = .prepared) (hv : isNaN v = false) :
      Completed (.setFeedback v) s ((s.withRegs { s.cr with fbT := clamp v fZero fbMax }).mapLive fun r =>
        { r with fb := rampSetTarget s.cfg .lin r.fb (clamp v fZero fbMax) })
  | setLfoRateHz {v : F32} {s : State} (he : s.engine = .prepared) (hv : isNaN v = false) :
      Completed (.setLfoRateHz v) s ((s.withRegs { s.cr with rateT := clamp v s.cfg.rateMinHz fTen }).mapLive fun r =>
        { r with rate := rampSetTarget s.cfg .mul r.rate (clamp v s.cfg.rateMinHz fTen) })
  | setLfoDepthMs {v : F32} {s : State} (he : s.engine = .prepared) (hv : isNaN v = false) :
      Completed (.setLfoDepthMs v) s (s.withRegs (deriveDepth { s.cr with depthMs := clamp v fZero fTen }))
  | processSample {ch : Int} {x d : F32} {s : State} {r : Channel} (he : s.engine = .prepared)
      (hch : channelInRange s.cr.nch ch = true) (hx : inputInRange x = true) (hr : s.cs[ch.toNat]? = some r)
      (hd : bufReadInterpolated s.cr.cap s.ram ch.toNat r.rp = some d) :
      Completed (.processSample ch x) s (sampleTime ch.toNat x r d s)

/-- What a command that answers a next state has done: it is ignored in `Faulted`, raises its first violation, or
completes. -/
def Outcomes (violation : Option Cause) (i : Instr) (s t : State) : Prop :=
  (s.engine = .faulted ∧ t = s) ∨
  (s.engine ≠ .faulted ∧ ∃ cause, violation = some cause ∧ t = s.raise cause) ∨
  (s.engine ≠ .faulted ∧ violation = none ∧ Completed i s t)

/-- `require_prepared` and the check of a `SET_*` operand, as the violation they find (R129, R130). -/
theorem outcomes_of_set {v : F32} {i : Instr} {s t k : State}
    (h : requirePrepared s (.next (checkValue v s k)) = .next t)
    (hk : s.engine = .prepared → isNaN v = false → Completed i s k) :
    Outcomes (if s.engine = .unprepared then some .notPrepared else if isNaN v then some .badValue else none) i s t := by
  rcases setCommand_cases h with ⟨he, rfl⟩ | ⟨he, rfl⟩ | ⟨he, hv, rfl⟩ | ⟨he, hv, rfl⟩
  · exact Or.inl ⟨he, rfl⟩
  · exact Or.inr (Or.inl ⟨by simp [he], .notPrepared, by simp [he], rfl⟩)
  · exact Or.inr (Or.inl ⟨by simp [he], .badValue, by simp [he, hv], rfl⟩)
  · exact Or.inr (Or.inr ⟨by simp [he], by simp [he, hv], hk he hv⟩)

/-- The check of `PREPARE` finds its violation (R163). -/
theorem prepareViolation_eq (cfg : Config) (sr : F64) (ch : Int) :
    prepareViolation cfg sr ch = if prepareOperandsOk cfg sr ch then none else some .badConfig := by
  by_cases h : prepareOperandsOk cfg sr ch = true
  · obtain ⟨hf, hcap, hch⟩ := (prepareOperandsOk_iff _ _ _).1 h
    rw [if_pos h, prepareViolation, if_neg (by simp [hf]), if_neg (by omega), if_neg (by omega)]
  · rw [if_neg h]
    rw [prepareOperandsOk_iff] at h
    unfold prepareViolation
    split_ifs with h1 h2 h3
    · rfl
    · rfl
    · rfl
    · exact absurd ⟨by simpa using h1, by omega, by omega⟩ h

theorem outcomes_prepare {sr : F64} {block ch : Int} {s t : State} (h : execPrepare sr block ch s = .next t) :
    Outcomes (prepareViolation s.cfg sr ch) (.prepare sr block ch) s t := by
  rw [prepareViolation_eq]
  rcases execPrepare_cases h with ⟨he, rfl⟩ | ⟨he, ok, rfl⟩ | ⟨he, ok, rfl⟩
  · exact Or.inl ⟨he, rfl⟩
  · exact Or.inr (Or.inr ⟨he, if_pos ok, .prepare ok rfl rfl rfl⟩)
  · exact Or.inr (Or.inl ⟨he, .badConfig, if_neg (by simp [ok]), rfl⟩)

theorem outcomes_reset {s t : State} (h : execReset s = .next t) :
    Outcomes (commandViolation s .reset) .reset s t := by
  rcases requirePrepared_cases h with ⟨he, rfl⟩ | ⟨he, rfl⟩ | ⟨he, hk⟩
  · exact Or.inl ⟨he, rfl⟩
  · exact Or.inr (Or.inl ⟨by simp [he], .notPrepared, by simp [commandViolation, he], rfl⟩)
  · injection hk with hk
    exact Or.inr (Or.inr ⟨by simp [he], by simp [commandViolation, operandViolation, he], hk ▸ .reset he⟩)

/-- The checks of `PROCESS_SAMPLE` in a prepared engine find its violation (R164, R165). -/
theorem processSample_violation {s : State} (he : s.engine = .prepared) (ch : Int) (x : F32) :
    commandViolation s (.processSample ch x) =
      if channelInRange s.cr.nch ch then (if inputInRange x then none else some .badInput) else some .badChannel := by
  have hc : (ch < 0 ∨ (s.cr.nch : Int) ≤ ch) ↔ ¬ channelInRange s.cr.nch ch = true := by
    rw [channelInRange_iff]; omega
  have hi : (isFinite x = false ∨ value x < value fNegOne ∨ value fOne < value x) ↔ ¬ inputInRange x = true := by
    rw [inputInRange_iff, not_and_or, not_and_or, not_le, not_le, Bool.not_eq_true]
  simp only [commandViolation, operandViolation, he, reduceCtorEq, if_false, hc, hi]
  split_ifs <;> rfl

theorem outcomes_processSample {ch : Int} {x : F32} {s t : State} (h : execProcessSample ch x s = .next t) :
    Outcomes (commandViolation s (.processSample ch x)) (.processSample ch x) s t := by
  rcases execProcessSample_cases h with ⟨he, rfl⟩ | ⟨he, rfl⟩ | ⟨he, hch, rfl⟩ | ⟨he, hch, hx, rfl⟩ | ⟨he, hch, hx, hk⟩
  · exact Or.inl ⟨he, rfl⟩
  · exact Or.inr (Or.inl ⟨by simp [he], .notPrepared, by simp [commandViolation, he], rfl⟩)
  · exact Or.inr (Or.inl ⟨by simp [he], .badChannel, by simp [processSample_violation he, hch], rfl⟩)
  · exact Or.inr (Or.inl ⟨by simp [he], .badInput, by simp [processSample_violation he, hch, hx], rfl⟩)
  · obtain ⟨r, d, hr, hd, rfl⟩ := runSample_next_iff.1 hk
    exact Or.inr (Or.inr ⟨by simp [he], by simp [processSample_violation he, hch, hx], .processSample he hch hx hr hd⟩)

/-- What a command that answers a next state has done. -/
theorem exec_outcomes {i : Instr} {s t : State} (h : exec i s = .next t) :
    Outcomes (commandViolation s i) i s t := by
  cases i with
  | prepare sr block ch => exact outcomes_prepare h
  | reset => exact outcomes_reset h
  | setDelayTimeMs v => exact outcomes_of_set h .setDelayTimeMs
  | setMix v => exact outcomes_of_set h .setMix
  | setFeedback v => exact outcomes_of_set h .setFeedback
  | setLfoRateHz v => exact outcomes_of_set h .setLfoRateHz
  | setLfoDepthMs v => exact outcomes_of_set h .setLfoDepthMs
  | processSample ch x => exact outcomes_processSample h

/-- What a word that answers a next state has done: it is ignored in `Faulted`, raises its first violation, or its command
completes (R162, R167). -/
theorem runCommand_outcomes {w : CmdWord} {s t : State} (h : runCommand w s = .next t) :
    (s.engine = .faulted ∧ t = s) ∨
    (s.engine ≠ .faulted ∧ ∃ cause, firstViolation w s = some cause ∧ t = s.raise cause) ∨
    (s.engine ≠ .faulted ∧ ∃ i, decode w = .ok i ∧ commandViolation s i = none ∧ Completed i s t) := by
  cases hw : decode w with
  | error e =>
    rw [runCommand_of_error hw] at h
    injection h with h
    by_cases he : s.engine = .faulted
    · exact Or.inl ⟨he, by rw [← h, if_pos he]⟩
    · exact Or.inr (Or.inl ⟨he, .illegalCommand, by simp [firstViolation, hw], by rw [← h, if_neg he]⟩)
  | ok i =>
    rw [runCommand_of_ok hw] at h
    have hfirst : firstViolation w s = commandViolation s i := by simp [firstViolation, hw]
    rw [hfirst]
    exact (exec_outcomes h).imp_right (Or.imp_right fun ⟨he, hv, hc⟩ => ⟨he, i, rfl, hv, hc⟩)

/-- A completed command leaves the engine prepared, and the configuration, `FAULT_CAUSE` and the count of resets as they are. -/
theorem Completed.frame {i : Instr} {s t : State} (h : Completed i s t) :
    t.engine = .prepared ∧ t.cfg = s.cfg ∧ t.faultCause = s.faultCause ∧ t.freeCount = s.freeCount := by
  cases h with
  | prepare => exact ⟨rfl, rfl, rfl, rfl⟩
  | reset he | setDelayTimeMs he | setMix he | setFeedback he | setLfoRateHz he | setLfoDepthMs he
  | processSample he => exact ⟨he, rfl, rfl, rfl⟩

/-- Only `PREPARE` completes in an engine that is not prepared (R129). -/
theorem Completed.prepared_or_prepare {i : Instr} {s t : State} (h : Completed i s t) :
    s.engine = .prepared ∨ ∃ sr block ch, i = .prepare sr block ch := by
  cases h with
  | prepare => exact Or.inr ⟨_, _, _, rfl⟩
  | reset he | setDelayTimeMs he | setMix he | setFeedback he | setLfoRateHz he | setLfoDepthMs he
  | processSample he => exact Or.inl he

/-! ### Steps -/

/-- `P` is kept by everything that a step consists of, so by every step (`Kept.of_step`). -/
structure Kept (P : State → Prop) : Prop where
  ports : ∀ (s : State) inputs rsp taken, P s → P { s with inputs := inputs, rsp := rsp, taken := taken }
  hardwareReset : ∀ s : State, P s → P s.hardwareReset
  raise : ∀ (s : State) cause, P s → P (s.raise cause)
  completed : ∀ (i : Instr) (s t : State), s.engine ≠ .faulted → P s → Completed i s t → P t

theorem Kept.of_runCommand {P : State → Prop} (hP : Kept P) {w : CmdWord} {s t : State} (hs : P s)
    (h : runCommand w s = .next t) : P t := by
  rcases runCommand_outcomes h with ⟨-, rfl⟩ | ⟨-, cause, -, rfl⟩ | ⟨he, i, -, -, hc⟩
  · exact hs
  · exact hP.raise s cause hs
  · exact hP.completed i s t he hs hc

theorem Kept.of_step {P : State → Prop} (hP : Kept P) {s t : State} (hs : P s) (h : step s = .next t) : P t := by
  rcases step_cases s with ⟨-, e⟩ | ⟨p, rest, -, ⟨-, e⟩ | ⟨-, -, -, e⟩ | ⟨-, -, e⟩⟩ <;> rw [e] at h
  · injection h with h
    exact h ▸ hs
  · injection h with h
    exact h ▸ hP.hardwareReset _ (hP.ports s rest s.rsp s.taken hs)
  · injection h with h
    exact h ▸ hP.ports s rest s.rsp s.taken hs
  · have hu := hP.ports s rest none (s.taken ++ s.rsp.toList) hs
    dsimp only at h
    split at h
    · exact hP.of_runCommand hu h
    · injection h with h
      exact h ▸ hu

/-! ### Configuration, memory, registers, transitions (R22, R24 to R29, R36, R38) -/

/-- Settles O10: the power-on values are those of `State.resetWith` by definition. -/
theorem resetStateIsPowerOn : Obligations.ResetStateIsPowerOn :=
  ⟨fun _ => ⟨rfl, rfl, rfl, rfl, rfl, rfl, rfl, rfl, rfl, rfl, rfl, rfl⟩, rfl, Config.installed_admissible⟩

/-- Settles O58: no part of a step writes the configuration. -/
theorem configurationNeverChanges : Obligations.ConfigurationNeverChanges := by
  intro s t h
  have hkept : Kept fun u => u.cfg = s.cfg :=
    { ports := fun _ _ _ _ hu => hu
      hardwareReset := fun _ hu => hu
      raise := fun _ _ hu => hu
      completed := fun _ u t _ hu hc => by
        obtain ⟨-, hcfg, -⟩ := hc.frame
        exact hcfg.trans hu }
  exact hkept.of_step rfl h

theorem Completed.wf_ram {i : Instr} {s t : State} (h : Completed i s t) (hs : Memory.wf s.ram = true) :
    Memory.wf t.ram = true := by
  cases h with
  | prepare => exact Memory.wf_zeroFill _ _ hs
  | reset => exact Memory.wf_zeroFill _ _ hs
  | processSample => exact wf_bufWrite hs _ _ _ _
  | _ => exact hs

/-- Settles O39: a zero fill and a write keep the canonical form, and no other part of a step touches the RAM but hardware
reset, which empties it. -/
theorem memoryStaysCanonical : Obligations.MemoryStaysCanonical := by
  intro s t hs h
  have hkept : Kept fun u => Memory.wf u.ram = true :=
    { ports := fun _ _ _ _ hu => hu
      hardwareReset := fun _ _ => Memory.wf_nil
      raise := fun _ _ hu => hu
      completed := fun _ _ _ _ hu hc => hc.wf_ram hu }
  exact hkept.of_step hs h

/-- Settles O28: an ignored or violating command keeps `CR.*`, and each completion writes the registers of its own rule. -/
theorem registersWrittenOnlyByTheirCommand : Obligations.RegistersWrittenOnlyByTheirCommand := by
  intro i s t h
  rcases exec_outcomes h with ⟨-, rfl⟩ | ⟨-, cause, -, rfl⟩ | ⟨-, -, hc⟩
  · simp
  · simp
  · cases hc <;> simp [deriveCenter, deriveDepth]

/-- Settles O18: a step changes `STATE` by hardware reset, by the first violation of the presented word, or by the completion
of a command, which leaves the engine prepared and so was a `PREPARE` in an unprepared one. -/
theorem engineStateTransitions : Obligations.EngineStateTransitions := by
  refine ⟨⟨rfl, rfl, rfl⟩, fun s t h hne => ?_⟩
  rcases step_cases s with ⟨-, e⟩ | ⟨p, rest, hin, ⟨hrst, e⟩ | ⟨-, -, -, e⟩ | ⟨hrst, -, e⟩⟩ <;> rw [e] at h
  · injection h with h
    exact absurd (h ▸ rfl) hne
  · injection h with h
    exact ⟨p, rest, hin, Or.inl ⟨hrst, h ▸ rfl⟩⟩
  · injection h with h
    exact absurd (h ▸ rfl) hne
  · dsimp only at h
    split at h
    · rename_i hvalid
      refine ⟨p, rest, hin, Or.inr ?_⟩
      rcases runCommand_outcomes h with ⟨-, rfl⟩ | ⟨he, cause, hv, rfl⟩ | ⟨he, i, hi, hv, hc⟩
      · exact absurd rfl hne
      · exact Or.inr ⟨hrst, hvalid, he, rfl, cause, hv, rfl⟩
      · obtain ⟨hprep, -⟩ := hc.frame
        have hun : s.engine = .unprepared := by
          cases hs : s.engine with
          | unprepared => rfl
          | prepared => exact absurd (hprep.trans hs.symm) hne
          | faulted => exact absurd hs he
        obtain ⟨sr, block, ch, rfl⟩ := hc.prepared_or_prepare.resolve_left (by simp [hun])
        exact Or.inl ⟨hrst, hvalid, hun, hprep, sr, block, ch, hi, hv⟩
    · injection h with h
      exact absurd (h ▸ rfl) hne

end Sys2Proof.Proofs
end

section
/-! PROOFS. What the micro-operations keep: ramps, the oscillator's phase, the read position, the words of the RAM
(spec/10_state.md R31 to R36, R39). -/

namespace Sys2Proof.Proofs

open Sys2Proof.Machine Sys2Proof.Laws

/-! ### Ramps (R34, R35, R90 to R94) -/

section Ramp

variable {lo hi : F32} {r : Ramp}

theorem rampOk_rampInit {v sr t : F32} (hv : between lo v hi = true) (hlen : rampLength t sr < 2 ^ 31) :
    RampOk lo hi (rampInit sr v t r) :=
  ⟨hv, hv, Nat.zero_le _, hlen, fun _ => rfl, fun h => absurd h (lt_irrefl 0)⟩

/-- A multiplicative ramp retargeted inside its range is a ramp of that range: every `ROOT` is finite. -/
theorem rampOk_setTarget_mul (h : RampOk lo hi r) {v : F32} (hv : between lo v hi = true) (cfg : Config) :
    RampOk lo hi (rampSetTarget cfg .mul r v) := by
  rcases rampSetTarget_cases cfg .mul r v with ⟨-, e⟩ | ⟨-, -, e⟩ | ⟨-, hN, e⟩ <;> rw [e]
  · exact h
  · exact ⟨hv, hv, Nat.zero_le _, h.width, fun _ => rfl, fun h' => absurd h' (lt_irrefl 0)⟩
  · exact ⟨h.cur, hv, le_rfl, h.width, fun h' => absurd h' hN.ne', fun _ => isFinite_ROOT cfg _ _⟩

theorem rampOk_rampNext (hlo : isFinite lo = true) (h0 : 0 ≤ value lo) (hhi : isFinite hi = true) (h : RampOk lo hi r)
    (mode : RampMode) : RampOk lo hi (rampNext mode r) := by
  refine ⟨between_rampNext hlo h0 hhi h mode, ?_, ?_, ?_, ?_, ?_⟩
  · rw [rampNext_tgt]; exact h.tgt
  · rw [rampNext_rem, rampNext_N]; exact (Nat.sub_le _ _).trans h.rem
  · rw [rampNext_N]; exact h.width
  · rcases rampNext_cases mode r with ⟨hrem, e⟩ | ⟨-, e⟩ | ⟨hrem, e⟩ <;> rw [e]
    · exact h.settled
    · exact fun _ => rfl
    · exact fun h' => by dsimp only at h'; omega
  · rw [rampNext_rem, rampNext_step]
    exact fun h' => h.step (by omega)

/-- A retargeted ramp has the new target, or one of the same value that it had already (R92). -/
theorem value_tgt_rampSetTarget (cfg : Config) (mode : RampMode) {v : F32} (hv : between lo v hi = true)
    (h : RampOk lo hi r) : value (rampSetTarget cfg mode r v).tgt = value v := by
  rcases rampSetTarget_cases cfg mode r v with ⟨heq, e⟩ | ⟨-, -, e⟩ | ⟨-, -, e⟩ <;> rw [e]
  exact ((feq_iff (isNaN_of_between hv) (isNaN_of_between h.tgt)).1 heq).symm

theorem rampFinite_of_rampOk (hlo : isFinite lo = true) (hhi : isFinite hi = true) (h : RampOk lo hi r) :
    RampFinite r :=
  ⟨isFinite_of_between hlo hhi h.cur, isFinite_of_between hlo hhi h.tgt, h.step⟩

end Ramp

/-! ### The length of a ramp (R91) -/

theorem value_fmul_of_nonneg {a b : F32} (ha : isFinite a = true) (hb : isFinite b = true)
    (h : 0 ≤ value a * value b) :
    value (fmul a b) = magOf (packMagnitude (value a * value b).toNat (2 ^ 149)) := by
  rw [fmul_eq ha hb, value_roundPack]
  have hsigned := signed_product a b
  cases hs : signBit a != signBit b <;> rw [hs] at hsigned <;>
    simp only [signed, if_true, if_false, Bool.false_eq_true] at hsigned ⊢
  · rw [← hsigned, Int.toNat_natCast]
  · have hzero : magnitude a * magnitude b = 0 := by omega
    have hpack := packMagnitude_exact (Nat.zero_le _) two_pow_149_pos
    rw [magOf_zero, Nat.zero_mul] at hpack
    rw [← hsigned, hzero, Nat.cast_zero, neg_zero, Int.toNat_zero, hpack, magOf_zero, Nat.cast_zero, neg_zero]

/-- Products that are not negative are rounded in their order. -/
theorem value_fmul_le_fmul {a b c : F32} (ha : isFinite a = true) (hb : isFinite b = true) (hc : isFinite c = true)
    (ha0 : 0 ≤ value a) (hb0 : 0 ≤ value b) (hbc : value b ≤ value c) : value (fmul a b) ≤ value (fmul a c) := by
  have hle : value a * value b ≤ value a * value c := mul_le_mul_of_nonneg_left hbc ha0
  have h0 : 0 ≤ value a * value b := mul_nonneg ha0 hb0
  rw [value_fmul_of_nonneg ha hb h0, value_fmul_of_nonneg ha hc (h0.trans hle)]
  exact_mod_cast magOf_le_iff.2 (packMagnitude_mono two_pow_149_pos two_pow_149_pos
    (Nat.mul_le_mul_right _ (Int.toNat_le_toNat hle)))

theorem f2i_ffloor {a : F32} (ha : isFinite a = true) : f2i (ffloor a) = floorInt a := by
  obtain ⟨hf, hv⟩ := ffloor_spec ha
  rw [f2i, if_pos hf, floorInt, hv, Int.mul_ediv_cancel _ (by positivity)]

/-- A legal ramp time has a legal length at every rate up to `CAP_MAX`, since it has one at `CAP_MAX` itself. -/
theorem rampLength_lt {capMax cap : Nat} {t sr : F32} (ht : legalRampTime capMax t = true) (hr : RatesOk sr cap)
    (hle : cap ≤ capMax) (hmax : capMax ≤ 2 ^ 24) : rampLength t sr < 2 ^ 31 := by
  obtain ⟨⟨htf, hsrf⟩, hprod⟩ := startRampOperands ht hr hle hmax
  simp only [legalRampTime, Bool.and_eq_true, decide_eq_true_eq] at ht
  obtain ⟨⟨⟨-, ht0⟩, hprodMax⟩, hlen⟩ := ht
  have hsr : 0 ≤ value sr ∧ value sr ≤ value (i2f capMax) := by
    have h1 := hr.one_le_sr
    have h2 := hr.sr_le
    rw [value_fOne] at h1
    rw [value_natCast_i2f hmax]; omega
  have hmono := value_fmul_le_fmul htf hsrf (isFinite_natCast_i2f hmax) ht0 hsr.1 hsr.2
  have hfloor : floorInt (fmul t sr) ≤ floorInt (fmul t (i2f capMax)) := Int.ediv_le_ediv (by positivity) hmono
  rw [rampLength, f2i_ffloor hprodMax] at hlen
  rw [rampLength, f2i_ffloor hprod]
  omega

/-! ### The oscillator (R33, R103) -/

/-- The phase before it is wrapped is below 70. -/
theorem between_unwrappedPhase {sr hz phase : F32} {cap : Nat} (hr : RatesOk sr cap) (hhz : between fZero hz fTen = true)
    (hph : between fZero phase twoPi = true) : between fZero (fadd phase (phaseIncrement sr hz)) (i2f 70) = true := by
  obtain ⟨⟨-, hhzf⟩, -, ⟨hphf, hincf⟩, -⟩ := oscillatorOperands hr hhz hph
  obtain ⟨-, hz0, hz1⟩ := (between_iff _ _ _).1 hhz
  obtain ⟨-, ph0, ph1⟩ := (between_iff _ _ _).1 hph
  rw [value_fZero] at hz0 ph0; rw [value_fTen] at hz1; rw [value_twoPi] at ph1
  have hmul : between fZero (fmul twoPi hz) (i2f 63) = true :=
    between_fmul isFinite_twoPi hhzf isFinite_fZero isFinite_i2f_63 (by rw [value_fZero, value_twoPi]; omega)
      (by rw [value_i2f_63, value_twoPi]; omega)
  obtain ⟨-, inc0, inc1⟩ := (between_iff _ _ _).1 (between_fdiv_of_one_le isFinite_fZero isFinite_i2f_63
    value_fZero.le (by rw [value_i2f_63]; norm_num) hmul hr.isFinite_sr hr.one_le_sr)
  rw [value_fZero] at inc0; rw [value_i2f_63] at inc1
  exact between_fadd hphf hincf isFinite_fZero isFinite_i2f_70 (by rw [value_fZero, phaseIncrement]; omega)
    (by rw [value_i2f_70, phaseIncrement]; omega)

/-- One turn of the wrap loop lowers the phase and does not take it below zero: the rounding of a number below 70 is far
smaller than a turn. -/
theorem wrapTurn {ph : F32} (h : between fZero ph (i2f 70) = true) (hge : value twoPi ≤ value ph) :
    between fZero (fsub ph twoPi) (i2f 70) = true ∧ value (fsub ph twoPi) < value ph := by
  have hf := isFinite_of_between isFinite_fZero isFinite_i2f_70 h
  have hu := upper_of_between h
  have hpi := value_twoPi
  have hin : between fZero (fsub ph twoPi) (i2f 70) = true :=
    between_fsub hf isFinite_twoPi isFinite_fZero isFinite_i2f_70 (by rw [value_fZero]; omega) (by omega)
  refine ⟨hin, ?_⟩
  have hfin := isFinite_of_between isFinite_fZero isFinite_i2f_70 hin
  rw [fsub_eq hf isFinite_twoPi] at hfin ⊢
  have herr := addFinite_error hfin
  rw [value_fneg, ← sub_eq_add_neg, abs_of_nonneg (a := value ph - value twoPi) (by omega)] at herr
  have := le_abs_self (value (addFinite ph (fneg twoPi)) - (value ph - value twoPi))
  rw [value_i2f_70] at hu
  omega

/-- Patterns of numbers that are not negative are ordered as the numbers. -/
theorem low31_lt_of_value {a b : F32} (h0 : 0 ≤ value a) (h : value a < value b) : low31 a < low31 b := by
  rw [← magOf_lt_iff, ← natAbs_value, ← natAbs_value]
  omega

/-- Where the loop's condition fails the phase is in range. -/
theorem range_of_not_fle {ph : F32} (h : between fZero ph (i2f 70) = true) (hle : ¬ fle twoPi ph = true) :
    between fZero ph twoPi = true ∧ value ph < value twoPi := by
  rw [fle_iff (not_isNaN_of_isFinite isFinite_twoPi) (isNaN_of_between h), not_le] at hle
  exact ⟨between_of_bounds (isNaN_of_between h) (lower_of_between h) hle.le, hle⟩

/-- The wrap loop ends in `[0, TWO_PI)`: every turn lowers the pattern, so the fuel suffices (log 6). -/
theorem wrapPhase_range (fuel : Nat) {ph : F32} (h : between fZero ph (i2f 70) = true) (hfuel : low31 ph ≤ fuel) :
    between fZero (wrapPhase fuel ph) twoPi = true ∧ value (wrapPhase fuel ph) < value twoPi := by
  have hpi : isNaN twoPi = false := not_isNaN_of_isFinite isFinite_twoPi
  induction fuel generalizing ph with
  | zero =>
    have hzero := natAbs_value ph
    rw [Nat.le_zero.1 hfuel, magOf_zero] at hzero
    have hstop : ¬ fle twoPi ph = true := by
      rw [fle_iff hpi (isNaN_of_between h), value_twoPi]; omega
    rw [wrapPhase, if_neg hstop]
    exact range_of_not_fle h hstop
  | succ fuel ih =>
    by_cases hle : fle twoPi ph = true
    · obtain ⟨hin, hlt⟩ := wrapTurn h ((fle_iff hpi (isNaN_of_between h)).1 hle)
      have hne : fsub ph twoPi ≠ ph := fun e => by rw [e] at hlt; exact lt_irrefl _ hlt
      have hlow := low31_lt_of_value (value_fZero ▸ lower_of_between hin) hlt
      rw [wrapPhase, if_pos hle, if_neg hne]
      exact ih hin (by omega)
    · rw [wrapPhase, if_neg hle]
      exact range_of_not_fle h hle

theorem nextPhase_range {sr hz phase : F32} {cap : Nat} (hr : RatesOk sr cap) (hhz : between fZero hz fTen = true)
    (hph : between fZero phase twoPi = true) :
    between fZero (nextPhase sr hz phase) twoPi = true ∧ value (nextPhase sr hz phase) < value twoPi :=
  wrapPhase_range _ (between_unwrappedPhase hr hhz hph) (Nat.mod_le _ _)

/-! ### The read position (R32, R147) -/

/-- The read position lies in the addressed RAM, its upper end included. -/
theorem between_readPosition {sr len : F32} {cap w : Nat} (hr : RatesOk sr cap) (hw : w < cap)
    (hlen : between fOne len (i2f ((cap : Int) - 1)) = true) :
    between fZero (readPosition cap w len) (i2f cap) = true := by
  obtain ⟨⟨hwf, hlenf⟩, hpf, hcapf⟩ := positionOperands hr hw hlen
  obtain ⟨-, hlen1, hlen2⟩ := (between_iff _ _ _).1 hlen
  have hcapv := hr.value_cap
  have hwv := value_natCast_i2f (n := w) (hw.le.trans hr.cap_le)
  have hw' : (w : Int) * 2 ^ 149 ≤ ((cap : Int) - 1) * 2 ^ 149 := by omega
  rw [value_fOne] at hlen1; rw [hr.value_last] at hlen2
  have hp : between (fneg (i2f cap)) (fsub (i2f w) len) (i2f cap) = true :=
    between_fsub hwf hlenf ((isFinite_fneg _).trans hcapf) hcapf (by rw [value_fneg]; omega) (by omega)
  obtain ⟨hpn, hp1, hp2⟩ := (between_iff _ _ _).1 hp
  rw [value_fneg] at hp1
  unfold readPosition
  dsimp only
  split
  · rename_i hneg
    rw [flt_iff hpn (by decide), value_fZero] at hneg
    exact between_fadd hpf hcapf isFinite_fZero hcapf (by rw [value_fZero]; omega) (by omega)
  · rename_i hpos
    rw [flt_iff hpn (by decide), not_lt] at hpos
    exact between_of_bounds hpn hpos hp2

/-- A channel starts with its read position where a channel at write index 0 has it: `0 - len + cap` is exactly
`cap - len` (R122, R147). -/
theorem readPosition_zero {sr len : F32} {cap : Nat} (hr : RatesOk sr cap)
    (hlen : between fOne len (i2f ((cap : Int) - 1)) = true) : readPosition cap 0 len = fsub (i2f cap) len := by
  obtain ⟨⟨hwf, hlenf⟩, hpf, hcapf⟩ := positionOperands (w := 0) hr (by have := hr.cap_ge; omega) hlen
  obtain ⟨hlenn, hlen1, hlen2⟩ := (between_iff _ _ _).1 hlen
  have hcapv := hr.value_cap
  have hwv := value_natCast_i2f (n := 0) (by norm_num)
  rw [value_fOne] at hlen1; rw [hr.value_last] at hlen2
  have hp : value (fsub (i2f (0 : Nat)) len) = value (fneg len) :=
    fsub_exact hwf hlenf (not_isNaN_of_isFinite ((isFinite_fneg _).trans hlenf)) (by rw [value_fneg, hwv]; norm_num)
  have hneg : flt (fsub (i2f (0 : Nat)) len) fZero = true := by
    rw [flt_iff (isNaN_fsub hwf hlenf) (by decide), hp, value_fneg, value_fZero]; omega
  have hsum : value (i2f cap) + value (fneg len) ≠ 0 := by rw [value_fneg]; omega
  unfold readPosition
  dsimp only
  rw [if_pos hneg, fadd_eq hpf hcapf, fsub_eq hcapf hlenf, addFinite_eq _ _ hsum,
    addFinite_eq _ _ (by rw [hp, add_comm]; exact hsum), hp, add_comm]

/-! ### The words of the RAM (R36, R39, R142, R152) -/

section Symmetric

variable {a b A B C : F32} (hA : isFinite A = true) (hC : isFinite C = true) (ha : between (fneg A) a A = true)

include hA hC ha

theorem between_fneg_fadd (hB : isFinite B = true) (hb : between (fneg B) b B = true)
    (h : value A + value B ≤ value C) : between (fneg C) (fadd a b) C = true := by
  obtain ⟨-, ha'⟩ := (between_fneg_iff _ _).1 ha
  obtain ⟨-, hb'⟩ := (between_fneg_iff _ _).1 hb
  rw [abs_le] at ha' hb'
  exact between_fadd (isFinite_of_between_fneg hA ha) (isFinite_of_between_fneg hB hb) ((isFinite_fneg _).trans hC) hC
    (by rw [value_fneg]; omega) (by omega)

theorem between_fneg_fmul (hbf : isFinite b = true) (hb : |value b| ≤ value B)
    (h : value A * value B ≤ value C * 2 ^ 149) : between (fneg C) (fmul a b) C = true := by
  obtain ⟨-, ha'⟩ := (between_fneg_iff _ _).1 ha
  have hprod : |value a * value b| ≤ value C * 2 ^ 149 := by
    rw [abs_mul]
    exact (mul_le_mul ha' hb (abs_nonneg _) ((abs_nonneg _).trans ha')).trans h
  obtain ⟨h1, h2⟩ := abs_le.1 hprod
  exact between_fmul (isFinite_of_between_fneg hA ha) hbf ((isFinite_fneg _).trans hC) hC
    (by rw [value_fneg]; linarith) h2

end Symmetric

/-- A share of a number lies between zero and the number. -/
theorem between_share {u t : F32} (hu : between fZero u fOne = true) (ht : isFinite t = true) :
    min 0 (value t) ≤ value (fmul u t) ∧ value (fmul u t) ≤ max 0 (value t) := by
  have huf := isFinite_of_between isFinite_fZero isFinite_fOne hu
  obtain ⟨-, hu0, hu1⟩ := (between_iff _ _ _).1 hu
  rw [value_fZero] at hu0; rw [value_fOne] at hu1
  have htn := not_isNaN_of_isFinite ht
  have hzero := value_fZero
  rcases le_total 0 (value t) with h | h
  · have h1 := le_fmul (c := fZero) huf ht (by decide) (by rw [hzero]; nlinarith)
    have h2 := fmul_le (c := t) huf ht htn (by nlinarith)
    omega
  · have h1 := le_fmul (c := t) huf ht htn (by nlinarith)
    have h2 := fmul_le (c := fZero) huf ht (by decide) (by rw [hzero]; nlinarith)
    omega

/-- `21 + 2^-7`: a bound of the delayed sample (R152). -/
def sampleBound : F32 := 0x41A81000#32

/-- `20 - 2^-5`: a bound of the feedback product (R152). -/
def productBound : F32 := 0x419FC000#32

/-- `21 - 2^-5`: a bound of the word written (R152). -/
def wordBound : F32 := 0x41A7C000#32

theorem value_sampleBound : value sampleBound = 2689 * 2 ^ 142 := by decide +kernel
theorem value_productBound : value productBound = 639 * 2 ^ 144 := by decide +kernel
theorem value_wordBound : value wordBound = 671 * 2 ^ 144 := by decide +kernel

/-- The delayed sample leaves the range of the two words by at most the rounding of their difference: the share added to the
first word lies between zero and that difference. -/
theorem between_delayedSample {p a b : F32} (hp : isFinite p = true) (ha : wordOk a = true) (hb : wordOk b = true) :
    between (fneg sampleBound) (interpolate (fsub p (ffloor p)) a b) sampleBound = true := by
  have ha := between_of_wordOk ha
  have hb := between_of_wordOk hb
  obtain ⟨-, hbaf, ⟨-, hdf⟩, haf, hshare⟩ := interpolateOperands hp ha hb
  obtain ⟨-, ha'⟩ := (between_fneg_iff _ _).1 ha
  obtain ⟨-, hb'⟩ := (between_fneg_iff _ _).1 hb
  rw [value_i2f_21, abs_le] at ha' hb'
  have herr : 2 ^ 24 * |value (fsub b a) - (value b - value a)| ≤ |value b - value a| + 2 ^ 23 := by
    have hsub := fsub_eq hbaf.1 haf
    rw [hsub] at hdf ⊢
    have := addFinite_error hdf
    rwa [value_fneg, ← sub_eq_add_neg] at this
  have hway : |value b - value a| ≤ 42 * 2 ^ 149 := abs_le.2 ⟨by omega, by omega⟩
  obtain ⟨herr1, herr2⟩ := abs_le.1 (le_refl |value (fsub b a) - (value b - value a)|)
  obtain ⟨hs1, hs2⟩ := between_share (between_fraction hp) hdf
  have hC : isFinite sampleBound = true := by decide
  refine between_fadd haf hshare ((isFinite_fneg _).trans hC) hC ?_ ?_
  · rw [value_fneg, value_sampleBound]; omega
  · rw [value_sampleBound]; omega

/-- The word written is a word of the addressed RAM: `1 + 0.95 * 21 < 21`, with room for the roundings (R142, R152). -/
theorem wordOk_writeValue {x d g : F32} (hx : inputInRange x = true) (hd : between (fneg sampleBound) d sampleBound = true)
    (hg : between fZero g fbMax = true) : wordOk (writeValue x d g) = true := by
  obtain ⟨hxf, hx1, hx2⟩ := (inputInRange_iff x).1 hx
  rw [value_fNegOne, ← value_fOne, ← value_fneg] at hx1
  obtain ⟨-, hg0, hg1⟩ := (between_iff _ _ _).1 hg
  rw [value_fZero] at hg0
  have hprod : between (fneg productBound) (fmul d g) productBound = true :=
    between_fneg_fmul (B := fbMax) (by decide) (by decide) hd (isFinite_of_between isFinite_fZero isFinite_fbMax hg)
      (by rwa [abs_of_nonneg hg0]) (by rw [value_sampleBound, value_fbMax, value_productBound]; norm_num)
  have hsum : between (fneg wordBound) (fadd x (fmul d g)) wordBound = true :=
    between_fneg_fadd isFinite_fOne (by decide) (between_of_bounds (not_isNaN_of_isFinite hxf) hx1 hx2) (by decide) hprod
      (by rw [value_fOne, value_productBound, value_wordBound]; norm_num)
  obtain ⟨-, hlt⟩ := (between_fneg_iff _ _).1 hsum
  change wordOk (fadd x (fmul d g)) = true
  simp only [wordOk, Bool.and_eq_true, decide_eq_true_eq]
  refine ⟨isFinite_of_between_fneg (by decide) hsum, hlt.trans_lt ?_⟩
  rw [value_wordBound]; norm_num

end Sys2Proof.Proofs
end

section
/-! PROOFS. The invariant (spec/10_state.md R32, R34, R35, R39, R40; spec/00_scope.md R12): what each completed command leaves of
the registers, the channel records and the RAM, and from that what every step keeps. -/

namespace Sys2Proof.Proofs

open Sys2Proof.Machine Sys2Proof.Laws

/-! ### Registers (R24 to R29, R128) -/

/-- The registers of a block that was prepared: what `ControlOk` and `PreparedOk` say of `CR.*`. -/
structure PreparedRegs (cfg : Config) (cr : Regs) : Prop where
  control : ControlOk cfg cr
  cap : 2 ≤ cr.cap ∧ cr.cap ≤ cfg.capMax
  nch : 1 ≤ cr.nch ∧ cr.nch ≤ cfg.chMax
  sr32 : between fOne cr.sr32 (i2f cr.cap) = true
  center : between fZero cr.center (i2f cr.cap) = true

theorem PreparedRegs.rates {cfg : Config} {cr : Regs} (hcfg : cfg.legal = true) (h : PreparedRegs cfg cr) :
    RatesOk cr.sr32 cr.cap := ⟨h.cap.1, h.cap.2.trans (capMax_le hcfg), h.sr32⟩

/-- A conversion to samples answers a finite number that is not negative (R128). -/
theorem msToSamples_nonneg {ms sr : F32} {cap : Nat} (hr : RatesOk sr cap) (hms : between fZero ms fThousand = true) :
    isFinite (msToSamples ms sr) = true ∧ 0 ≤ value (msToSamples ms sr) := by
  obtain ⟨⟨hmsf, hsrf⟩, hprodf, hkf, -⟩ := convertOperands hr hms
  have hms0 := lower_of_between hms
  have hsr1 := hr.one_le_sr
  rw [value_fZero] at hms0; rw [value_fOne] at hsr1
  have hprod0 : value fZero ≤ value (fmul ms sr) :=
    le_fmul hmsf hsrf (by decide) (by rw [value_fZero, zero_mul]; exact mul_nonneg hms0 (by omega))
  have hprod : between fZero (fmul ms sr) (fmul ms sr) = true :=
    between_of_bounds (not_isNaN_of_isFinite hprodf) hprod0 le_rfl
  have hquot : between fZero (msToSamples ms sr) (fmul ms sr) = true :=
    between_fdiv_of_one_le isFinite_fZero hprodf value_fZero.le (value_fZero ▸ hprod0) hprod hkf
      (by rw [value_fOne, value_fThousand]; norm_num)
  exact ⟨isFinite_of_between isFinite_fZero hprodf hquot, value_fZero ▸ lower_of_between hquot⟩

/-- `derive_center` answers a delay the RAM can hold (R128). -/
theorem between_deriveCenter {cr : Regs} (hr : RatesOk cr.sr32 cr.cap) (hms : between fZero cr.delayMs fThousand = true) :
    between fZero (deriveCenter cr).center (i2f cr.cap) = true := by
  obtain ⟨hf, h0⟩ := msToSamples_nonneg hr hms
  have hn := not_isNaN_of_isFinite hf
  have hcap := hr.value_cap
  have hmin : value (deriveCenter cr).center = min (value (msToSamples cr.delayMs cr.sr32)) (value (i2f cr.cap)) :=
    value_fmin hn (isNaN_i2f _)
  refine between_of_bounds (isNaN_fmin hn (isNaN_i2f _)) ?_ ?_ <;> rw [hmin]
  · rw [value_fZero]; omega
  · omega

/-- A value of a finite range above zero is finite and not negative. -/
theorem nonneg_of_between {lo v hi : F32} (hlo : isFinite lo = true) (h0 : 0 ≤ value lo) (hhi : isFinite hi = true)
    (h : between lo v hi = true) : isFinite v = true ∧ 0 ≤ value v :=
  ⟨isFinite_of_between hlo hhi h, h0.trans (lower_of_between h)⟩

theorem preparedRegs_of_inv {s : State} (hs : Inv s) (he : s.engine = .prepared) : PreparedRegs s.cfg s.cr := by
  have hp := hs.live (hs.prepared he)
  exact ⟨hs.control, hp.cap, hp.nch, hp.sr32, hp.center⟩

/-- New milliseconds of delay leave legal registers (R123). -/
theorem PreparedRegs.setDelay {cfg : Config} {cr : Regs} (hcfg : cfg.legal = true) (h : PreparedRegs cfg cr) {ms : F32}
    (hms : between fZero ms fThousand = true) : PreparedRegs cfg (deriveCenter { cr with delayMs := ms }) :=
  have hr : RatesOk cr.sr32 cr.cap := h.rates hcfg
  have hcenter := between_deriveCenter (cr := { cr with delayMs := ms }) hr hms
  { h with
    control := { h.control with
      delayMs := hms
      center := nonneg_of_between isFinite_fZero value_fZero.ge hr.isFinite_cap hcenter }
    center := hcenter }

/-- New milliseconds of depth leave legal registers (R127). -/
theorem PreparedRegs.setDepth {cfg : Config} {cr : Regs} (hcfg : cfg.legal = true) (h : PreparedRegs cfg cr) {ms : F32}
    (hms : between fZero ms fTen = true) : PreparedRegs cfg (deriveDepth { cr with depthMs := ms }) :=
  have hdepth := msToSamples_nonneg (h.rates hcfg) (between_fThousand_of_fTen hms)
  { h with control := { h.control with depthMs := hms, depth := hdepth } }

/-- `PREPARE` leaves legal registers (R120). -/
theorem preparedRegs_configured {cfg : Config} {cr : Regs} (hc : ControlOk cfg cr) {sr : F32} {cap nch : Nat}
    (hr : RatesOk sr cap) (hcap : cap ≤ cfg.capMax) (hnch : 1 ≤ nch ∧ nch ≤ cfg.chMax) :
    PreparedRegs cfg (State.configuredRegs sr cap nch cr) :=
  have hcenter := between_deriveCenter (cr := { cr with sr32 := sr, nch := nch, cap := cap }) hr hc.delayMs
  { control := { hc with
      sr32 := nonneg_of_between isFinite_fOne (by rw [value_fOne]; norm_num) hr.isFinite_cap hr.sr32
      center := nonneg_of_between isFinite_fZero value_fZero.ge hr.isFinite_cap hcenter
      depth := msToSamples_nonneg hr (between_fThousand_of_fTen hc.depthMs) }
    cap := ⟨hr.cap_ge, hcap⟩
    nch := hnch
    sr32 := hr.sr32
    center := hcenter }

/-- The clamped operand of `SET_MIX` (R124). -/
theorem between_mixOperand {v : F32} (hv : isNaN v = false) : between fZero (clamp v fZero fOne) fOne = true :=
  between_clamp_operand hv isFinite_fZero isFinite_fOne (by rw [value_fZero, value_fOne]; norm_num)

/-- The clamped operand of `SET_FEEDBACK` (R125). -/
theorem between_feedbackOperand {v : F32} (hv : isNaN v = false) : between fZero (clamp v fZero fbMax) fbMax = true :=
  between_clamp_operand hv isFinite_fZero isFinite_fbMax (by rw [value_fZero, value_fbMax]; norm_num)

/-- The clamped operand of `SET_LFO_RATE_HZ` (R126). -/
theorem between_rateOperand {cfg : Config} (hcfg : cfg.legal = true) {v : F32} (hv : isNaN v = false) :
    between cfg.rateMinHz (clamp v cfg.rateMinHz fTen) fTen = true := by
  obtain ⟨-, -, -, hminf, -, hmin10⟩ := (legal_iff _).1 hcfg
  exact between_clamp_operand hv hminf isFinite_fTen hmin10

/-- Every completed command leaves legal registers. -/
theorem Completed.regs {i : Instr} {s t : State} (h : Completed i s t) (hs : Inv s) : PreparedRegs t.cfg t.cr := by
  have hcfg := hs.cfg.legal
  have hlive := preparedRegs_of_inv hs
  cases h with
  | prepare ok hsr hcap hnch =>
    obtain ⟨-, ⟨h2, hle⟩, h1, hch⟩ := (prepareOperandsOk_iff _ _ _).1 ok
    have hr := ratesOk_of_dceil h2 (by have := capMax_le hcfg; omega)
    rw [← hsr, ← hcap] at hr
    exact preparedRegs_configured hs.control hr (by omega) (by omega)
  | reset he | processSample he => exact hlive he
  | setDelayTimeMs he hv =>
    exact (hlive he).setDelay hcfg
      (between_clamp_operand hv isFinite_fZero isFinite_fThousand (by rw [value_fZero, value_fThousand]; norm_num))
  | setMix he hv =>
    exact { hlive he with control := { hs.control with mixT := between_mixOperand hv } }
  | setFeedback he hv =>
    exact { hlive he with control := { hs.control with fbT := between_feedbackOperand hv } }
  | setLfoRateHz he hv =>
    exact { hlive he with control := { hs.control with rateT := between_rateOperand hcfg hv } }
  | setLfoDepthMs he hv =>
    exact (hlive he).setDepth hcfg
      (between_clamp_operand hv isFinite_fZero isFinite_fTen (by rw [value_fZero, value_fTen]; norm_num))

theorem Completed.rates {i : Instr} {s t : State} (h : Completed i s t) (hs : Inv s) : RatesOk t.cr.sr32 t.cr.cap := by
  obtain ⟨-, hcfg, -⟩ := h.frame
  exact (h.regs hs).rates (hcfg ▸ hs.cfg.legal)

/-! ### Channel records (R30 to R35, R39, R122, R140) -/

theorem between_startLength {cr : Regs} (hr : RatesOk cr.sr32 cr.cap) (hc : isNaN cr.center = false) :
    between fOne (startLength cr) (i2f ((cr.cap : Int) - 1)) = true :=
  between_clamp hc (not_isNaN_of_isFinite isFinite_fOne) (isNaN_i2f _) hr.one_le_last

/-- The read position of a record is its write index minus its delay length, wrapped (R32). -/
def Trails (cap : Nat) (r : Channel) : Prop := r.rp = readPosition cap r.w r.len.cur

theorem trails_channelInit (cfg : Config) {cr : Regs} (hr : RatesOk cr.sr32 cr.cap) (hc : isNaN cr.center = false)
    (r : Channel) : Trails cr.cap (channelInit cfg cr r) :=
  (readPosition_zero hr (between_startLength hr hc)).symm

section Record

variable {cfg : Config} {cr : Regs} (hcfg : cfg.legal = true)

include hcfg

/-- `channel_init` gives the record of a live channel, whatever was there (R122). -/
theorem channelOk_channelInit (h : PreparedRegs cfg cr) (r : Channel) : ChannelOk cfg cr (channelInit cfg cr r) := by
  have hr := h.rates hcfg
  have hmax := capMax_le hcfg
  have hcap := hr.cap_ge
  have hlen := between_startLength hr (isNaN_of_between h.center)
  have htrails : (channelInit cfg cr r).rp = readPosition cr.cap 0 (startLength cr) :=
    trails_channelInit cfg hr (isNaN_of_between h.center) r
  obtain ⟨-, -, ⟨hfb, hmix, hrate, hlenT⟩, -⟩ := (legal_iff _).1 hcfg
  exact
    { w := by rw [channelInit_w]; omega
      rp := htrails ▸ between_readPosition hr (by omega) hlen
      phase := by rw [channelInit_phase]; decide
      phase_lt := by rw [channelInit_phase, value_fZero, value_twoPi]; norm_num
      hz := h.control.rateT
      fb := rampOk_rampInit h.control.fbT (rampLength_lt hfb hr h.cap.2 hmax)
      mix := rampOk_rampInit h.control.mixT (rampLength_lt hmix hr h.cap.2 hmax)
      rate := rampOk_rampInit h.control.rateT (rampLength_lt hrate hr h.cap.2 hmax)
      len := rampOk_rampInit hlen (rampLength_lt hlenT hr h.cap.2 hmax)
      fbTarget := rfl
      mixTarget := rfl
      rateTarget := rfl }

/-- One sample time gives the record of a live channel again (R140). -/
theorem channelOk_advanceChannel (hr : RatesOk cr.sr32 cr.cap) (hc : ControlOk cfg cr) {r : Channel}
    (hok : ChannelOk cfg cr r) : ChannelOk cfg cr (advanceChannel cfg cr r) := by
  obtain ⟨-, -, -, hminf, hmin, -⟩ := (legal_iff _).1 hcfg
  have hzero : 0 ≤ value fZero := value_fZero.ge
  have hone : 0 ≤ value fOne := by rw [value_fOne]; norm_num
  have hw : (r.w + 1) % cr.cap < cr.cap := Nat.mod_lt _ (by have := hr.cap_ge; omega)
  have hrate := rampOk_rampNext hminf hmin.le isFinite_fTen hok.rate .mul
  have hlen := rampOk_rampNext isFinite_fOne hone hr.isFinite_last
    (rampOk_setTarget_lin isFinite_fOne hone hr.isFinite_last hok.len (between_targetLength hr hc r) cfg) .lin
  obtain ⟨hphase, hphase_lt⟩ :=
    nextPhase_range hr (between_mono hrate.cur (value_fZero.le.trans hmin.le) le_rfl) hok.phase
  exact
    { w := hw
      rp := between_readPosition hr hw hlen.cur
      phase := hphase
      phase_lt := hphase_lt
      hz := hrate.cur
      fb := rampOk_rampNext isFinite_fZero hzero isFinite_fbMax hok.fb .lin
      mix := rampOk_rampNext isFinite_fZero hzero isFinite_fOne hok.mix .lin
      rate := hrate
      len := hlen
      fbTarget := by rw [advanceChannel_fb, rampNext_tgt]; exact hok.fbTarget
      mixTarget := by rw [advanceChannel_mix, rampNext_tgt]; exact hok.mixTarget
      rateTarget := by rw [advanceChannel_rate, rampNext_tgt]; exact hok.rateTarget }

theorem recordFinite_of_channelOk (hr : RatesOk cr.sr32 cr.cap) {r : Channel} (hok : ChannelOk cfg cr r) :
    RecordFinite r := by
  obtain ⟨-, -, -, hminf, -⟩ := (legal_iff _).1 hcfg
  exact
    { rp := isFinite_of_between isFinite_fZero hr.isFinite_cap hok.rp
      phase := isFinite_of_between isFinite_fZero isFinite_twoPi hok.phase
      hz := isFinite_of_between hminf isFinite_fTen hok.hz
      fb := rampFinite_of_rampOk isFinite_fZero isFinite_fbMax hok.fb
      mix := rampFinite_of_rampOk isFinite_fZero isFinite_fOne hok.mix
      rate := rampFinite_of_rampOk hminf isFinite_fTen hok.rate
      len := rampFinite_of_rampOk isFinite_fOne hr.isFinite_last hok.len }

end Record

/-- Every record below `n` is there and meets `P`. -/
def AllRecords (n : Nat) (P : Channel → Prop) (cs : List Channel) : Prop := ∀ c, c < n → ∃ r, cs[c]? = some r ∧ P r

theorem AllRecords.of_getElem? {n : Nat} {P : Channel → Prop} {cs : List Channel} (h : AllRecords n P cs) {c : Nat}
    (hc : c < n) {r : Channel} (hr : cs[c]? = some r) : P r := by
  obtain ⟨r', hr', hP⟩ := h c hc
  exact Option.some.inj (hr'.symm.trans hr) ▸ hP

theorem AllRecords.mapFirst {n : Nat} {P Q : Channel → Prop} {f : Channel → Channel} {cs : List Channel}
    (h : AllRecords n P cs) (hf : ∀ r, P r → Q (f r)) : AllRecords n Q (mapFirst n f cs) := by
  intro c hc
  obtain ⟨r, hr, hP⟩ := h c hc
  exact ⟨f r, by rw [getElem?_mapFirst, if_pos hc, hr]; rfl, hf r hP⟩

theorem AllRecords.set {n : Nat} {P : Channel → Prop} {cs : List Channel} (h : AllRecords n P cs) {c : Nat} {r : Channel}
    (hP : P r) : AllRecords n P (cs.set c r) := by
  intro c' hc'
  obtain ⟨r', hr', hP'⟩ := h c' hc'
  obtain ⟨hlt, -⟩ := List.getElem?_eq_some_iff.1 hr'
  rw [List.getElem?_set]
  split
  · rename_i hcc
    exact ⟨r, if_pos (hcc ▸ hlt), hP⟩
  · exact ⟨r', hr', hP'⟩

theorem allRecords_of_length {n : Nat} {cs : List Channel} (h : n ≤ cs.length) : AllRecords n (fun _ => True) cs :=
  fun c hc => ⟨cs[c], List.getElem?_eq_getElem (by omega), trivial⟩

/-- Every completed command leaves the record of every live channel legal. -/
theorem Completed.channels {i : Instr} {s t : State} (h : Completed i s t) (hs : Inv s) :
    AllRecords t.cr.nch (ChannelOk t.cfg t.cr) t.cs := by
  have hcfg := hs.cfg.legal
  have hregs := h.regs hs
  have hr := h.rates hs
  have hlive (he : s.engine = .prepared) : AllRecords s.cr.nch (ChannelOk s.cfg s.cr) s.cs :=
    (hs.live (hs.prepared he)).channels
  have hzero : 0 ≤ value fZero := value_fZero.ge
  cases h with
  | prepare =>
    exact (allRecords_of_length (hregs.nch.2.trans hs.records.ge)).mapFirst fun r _ => channelOk_channelInit hcfg hregs r
  | reset he => exact (hlive he).mapFirst fun r _ => channelOk_channelInit hcfg hregs r
  | setDelayTimeMs he | setLfoDepthMs he =>
    intro c hc
    obtain ⟨r, hr, hok⟩ := hlive he c hc
    exact ⟨r, hr, { hok with }⟩
  | setMix he hv =>
    have hop := between_mixOperand hv
    exact (hlive he).mapFirst fun r hok => { hok with
      mix := rampOk_setTarget_lin isFinite_fZero hzero isFinite_fOne hok.mix hop _
      mixTarget := value_tgt_rampSetTarget _ _ hop hok.mix }
  | setFeedback he hv =>
    have hop := between_feedbackOperand hv
    exact (hlive he).mapFirst fun r hok => { hok with
      fb := rampOk_setTarget_lin isFinite_fZero hzero isFinite_fbMax hok.fb hop _
      fbTarget := value_tgt_rampSetTarget _ _ hop hok.fb }
  | setLfoRateHz he hv =>
    have hop := between_rateOperand hcfg hv
    exact (hlive he).mapFirst fun r hok => { hok with
      rate := rampOk_setTarget_mul hok.rate hop _
      rateTarget := value_tgt_rampSetTarget _ _ hop hok.rate }
  | processSample he hch hx hcs =>
    have hc := (channelInRange_iff _ _).1 hch
    exact (hlive he).set (channelOk_advanceChannel hcfg hr hs.control (channelOk_of_inv hs (by omega) hcs))

theorem getElem?_mapFirst_of_le {n c : Nat} (h : n ≤ c) {f : Channel → Channel} {cs : List Channel} :
    (mapFirst n f cs)[c]? = cs[c]? := by rw [getElem?_mapFirst, if_neg (Nat.not_lt.2 h)]

/-- No completed command touches a channel that is not live after it. -/
theorem Completed.records {i : Instr} {s t : State} (h : Completed i s t) :
    t.cs.length = s.cs.length ∧ ∀ c, t.cr.nch ≤ c → t.cs[c]? = s.cs[c]? := by
  cases h with
  | setDelayTimeMs | setLfoDepthMs => exact ⟨rfl, fun _ _ => rfl⟩
  | prepare | reset | setMix | setFeedback | setLfoRateHz =>
    exact ⟨length_mapFirst _ _ _, fun _ hc => getElem?_mapFirst_of_le hc⟩
  | processSample he hch =>
    have hlt := (channelInRange_iff _ _).1 hch
    exact ⟨List.length_set, fun c hc => List.getElem?_set_ne (by rw [sampleTime_cr] at hc; omega)⟩

/-! ### Words (R36, R39) -/

/-- Every addressed word is there and legal. -/
def AllWords (nch cap : Nat) (m : Memory) : Prop :=
  ∀ c i, c < nch → i < cap → ∃ v, Memory.read m (loc c i) = some v ∧ wordOk v = true

theorem allWords_zeroFill {nch cap : Nat} (hcap : cap ≤ 2 ^ 24) (m : Memory) :
    AllWords nch cap (Memory.zeroFill cap nch m) := by
  intro c i hc hi
  exact ⟨fZero, by rw [Memory.read_zeroFill hcap nch m (by omega), if_pos ⟨hc, hi⟩], by decide⟩

theorem AllWords.write {nch cap : Nat} {m : Memory} (h : AllWords nch cap m) (a : Nat) {v : F32} (hv : wordOk v = true) :
    AllWords nch cap (Memory.write m a v) := by
  intro c i hc hi
  rw [Memory.read_write]
  split
  · exact ⟨v, rfl, hv⟩
  · exact h c i hc hi

/-- The word one sample time writes is legal (R142). -/
theorem wordOk_of_sample {s : State} (hs : Inv s) (hp : PreparedOk s) {c : Nat} (hc : c < s.cr.nch) {r : Channel}
    {x d : F32} (hx : inputInRange x = true) (hr : s.cs[c]? = some r)
    (hd : bufReadInterpolated s.cr.cap s.ram c r.rp = some d) :
    wordOk (writeValue x d (rampNext .lin r.fb).cur) = true := by
  obtain ⟨a, b, ha, hb, rfl⟩ := bufReadInterpolated_eq_some.1 hd
  have hok := channelOk_of_inv hs hc hr
  have hrp := isFinite_of_between isFinite_fZero (ratesOk_of_prepared hs hp).isFinite_cap hok.rp
  exact wordOk_writeValue hx
    (between_delayedSample hrp (wordOk_of_bufRead hp hc ha) (wordOk_of_bufRead hp hc hb))
    (between_rampNext isFinite_fZero value_fZero.ge isFinite_fbMax hok.fb .lin)

/-- Every completed command leaves every addressed word legal. -/
theorem Completed.words {i : Instr} {s t : State} (h : Completed i s t) (hs : Inv s) :
    AllWords t.cr.nch t.cr.cap t.ram := by
  have hcap := (h.rates hs).cap_le
  have hlive (he : s.engine = .prepared) : PreparedOk s := hs.live (hs.prepared he)
  cases h with
  | prepare | reset => exact allWords_zeroFill hcap _
  | setDelayTimeMs he | setMix he | setFeedback he | setLfoRateHz he | setLfoDepthMs he => exact (hlive he).words
  | processSample he hch hx hr hd =>
    have hc := (channelInRange_iff _ _).1 hch
    exact AllWords.write (hlive he).words _ (wordOk_of_sample hs (hlive he) (by omega) hx hr hd)

/-! ### The invariant -/

theorem powerOnChannels_eq_some {cfg : Config} {n c : Nat} {r : Channel} (h : (powerOnChannels cfg n)[c]? = some r) :
    r = powerOnChannel n c := by
  rw [powerOnChannels, List.getElem?_map, Option.map_eq_some_iff] at h
  obtain ⟨c', hc', rfl⟩ := h
  obtain ⟨hlt, rfl⟩ := List.getElem?_eq_some_iff.1 hc'
  rw [List.getElem_range]

/-- The power-on registers are legal (R40). -/
theorem controlOk_resetWith {cfg : Config} (hcfg : cfg.legal = true) : ControlOk cfg (State.resetWith cfg).cr := by
  obtain ⟨-, -, -, hminf, -, hmin10⟩ := (legal_iff _).1 hcfg
  have hzero : isFinite fZero = true ∧ 0 ≤ value fZero := ⟨isFinite_fZero, value_fZero.ge⟩
  have hin {hi : F32} (h : value fZero ≤ value hi) : between fZero fZero hi = true :=
    between_of_bounds (by decide) le_rfl h
  exact
    { delayMs := hin (by rw [value_fZero, value_fThousand]; norm_num)
      depthMs := hin (by rw [value_fZero, value_fTen]; norm_num)
      mixT := hin (by rw [value_fZero, value_fOne]; norm_num)
      fbT := hin (by rw [value_fZero, value_fbMax]; norm_num)
      rateT := between_of_bounds (not_isNaN_of_isFinite hminf) le_rfl hmin10
      sr32 := hzero
      center := hzero
      depth := hzero }

/-- A state with the power-on contents of R40 meets the invariant, however many resets there have been (log 7). -/
theorem inv_of_powerOn {s : State} (hcfg : s.cfg.Admissible) (he : s.engine = .unprepared) (hcause : s.faultCause = 0#8)
    (hcr : s.cr = (State.resetWith s.cfg).cr) (hcs : s.cs = powerOnChannels s.cfg s.freeCount) (hram : s.ram = []) :
    Inv s :=
  have hnch : s.cr.nch = 0 := by rw [hcr]; rfl
  { cfg := hcfg
    records := by rw [hcs, powerOnChannels, List.length_map, List.length_range]
    ram := by rw [hram]; exact Memory.wf_nil
    cause := by simp [he, hcause]
    control := by rw [hcr]; exact controlOk_resetWith hcfg.legal
    values := fun c r hr => Or.inl (powerOnChannels_eq_some (hcs ▸ hr))
    prepared := fun h => absurd (he.symm.trans h) (by decide)
    live := fun h => absurd hnch h.ne' }

/-- Settles O41: reset gives the power-on contents. -/
theorem resetMeetsInvariant : Obligations.ResetMeetsInvariant :=
  have h (cfg : Config) (hcfg : cfg.Admissible) : Inv (State.resetWith cfg) := inv_of_powerOn hcfg rfl rfl rfl rfl rfl
  ⟨h, h _ Config.installed_admissible⟩

/-- The invariant speaks of no port. -/
theorem inv_ports {s : State} (h : Inv s) (inputs : List PortCycle) (rsp : Option F32) (taken : List F32) :
    Inv { s with inputs := inputs, rsp := rsp, taken := taken } :=
  { h with live := fun hn => { h.live hn with } }

/-- A violation touches neither registers nor records nor RAM (R160). -/
theorem inv_raise {s : State} (h : Inv s) (cause : Cause) : Inv (s.raise cause) :=
  { h with
    cause := by cases cause <;> simp [causeCode]
    prepared := fun he => absurd he (by simp)
    live := fun hn => { h.live hn with } }

theorem inv_completed {i : Instr} {s t : State} (he : s.engine ≠ .faulted) (hs : Inv s) (h : Completed i s t) : Inv t := by
  obtain ⟨hprep, hcfg, hcause, hcount⟩ := h.frame
  obtain ⟨hlength, hrest⟩ := h.records
  have hregs := h.regs hs
  have hlive := h.channels hs
  have hadm : t.cfg.Admissible := hcfg ▸ hs.cfg
  exact
    { cfg := hadm
      records := by rw [hlength, hcfg]; exact hs.records
      ram := h.wf_ram hs.ram
      cause := by rw [hcause, hprep, hs.cause]; simp [he]
      control := hregs.control
      values := fun c r hr => by
        by_cases hc : c < t.cr.nch
        · exact Or.inr (recordFinite_of_channelOk hadm.legal (h.rates hs) (hlive.of_getElem? hc hr))
        · rw [hcount]
          exact hs.values c r (hrest c (by omega) ▸ hr)
      prepared := fun _ => hregs.nch.1
      live := fun _ => ⟨hregs.cap, hregs.nch, hregs.sr32, hregs.center, hlive, h.words hs⟩ }

theorem inv_kept : Kept Inv :=
  { ports := fun _ inputs rsp taken h => inv_ports h inputs rsp taken
    hardwareReset := fun _ h => inv_of_powerOn h.cfg rfl rfl rfl rfl rfl
    raise := fun _ cause h => inv_raise h cause
    completed := fun _ _ _ he hs h => inv_completed he hs h }

/-- Settles O40: a hardware reset gives the power-on contents, and ports, violations and every completed command keep the
invariant. -/
theorem invariantKeptByEveryStep : Obligations.InvariantKeptByEveryStep := fun _ _ => inv_kept.of_step

/-! ### The read position (R32, R147) -/

/-- Every completed command leaves the read position of every live channel behind its write index. -/
theorem Completed.trails {i : Instr} {s t : State} (h : Completed i s t) (hs : Inv s) (htrail : PositionsTrail s) :
    AllRecords t.cr.nch (Trails t.cr.cap) t.cs := by
  have hregs := h.regs hs
  have hr := h.rates hs
  have hlive (he : s.engine = .prepared) : AllRecords s.cr.nch (Trails s.cr.cap) s.cs := fun c hc =>
    have ⟨r, hcs, _⟩ := (hs.live (hs.prepared he)).channels c hc
    ⟨r, hcs, htrail he c r hc hcs⟩
  cases h with
  | prepare =>
    exact (allRecords_of_length (hregs.nch.2.trans hs.records.ge)).mapFirst fun r _ =>
      trails_channelInit s.cfg hr (isNaN_of_between hregs.center) r
  | reset he => exact (hlive he).mapFirst fun r _ => trails_channelInit s.cfg hr (isNaN_of_between hregs.center) r
  | setDelayTimeMs he | setLfoDepthMs he => exact hlive he
  | setMix he | setFeedback he | setLfoRateHz he => exact (hlive he).mapFirst fun _ h => h
  | processSample he => exact (hlive he).set rfl

theorem positionsTrail_kept : Kept fun s => Inv s ∧ PositionsTrail s :=
  { ports := fun _ inputs rsp taken ⟨hs, htrail⟩ => ⟨inv_ports hs inputs rsp taken, htrail⟩
    hardwareReset := fun s ⟨hs, _⟩ => ⟨inv_kept.hardwareReset s hs, fun he => absurd he (by simp)⟩
    raise := fun _ cause ⟨hs, _⟩ => ⟨inv_raise hs cause, fun he => absurd he (by simp)⟩
    completed := fun _ _ _ he ⟨hs, htrail⟩ h =>
      ⟨inv_completed he hs h, fun _ _ _ hc hr => (h.trails hs htrail).of_getElem? hc hr⟩ }

/-- Settles O42: `channel_init` and `PROCESS_SAMPLE` place the read position behind the write index, no other command moves
either, and an engine that is not prepared has no channel to speak of. -/
theorem readPositionTrailsWriteIndex : Obligations.ReadPositionTrailsWriteIndex := by
  refine ⟨fun s t hs htrail h => ?_, fun he => absurd he (by decide)⟩
  obtain ⟨-, ht⟩ := positionsTrail_kept.of_step ⟨hs, htrail⟩ h
  exact ht

end Sys2Proof.Proofs
end

section
/-! PROOFS. The delay RAM in use (spec/20_memory.md): a cycle of the ports runs at most one command (R57, R58), samples on
different channels commute (R63), and a delayed read never starts at the word being written (R60). -/

namespace Sys2Proof.Proofs

open Sys2Proof.Machine Sys2Proof.Laws

/-! ### A cycle of the ports (R57, R58, R70) -/

/-- The state a cycle leaves to the command it runs: the cycle consumed and the waiting response with the host (R70). -/
def portsServed (rest : List PortCycle) (s : State) : State :=
  { s with inputs := rest, rsp := none, taken := s.taken ++ s.rsp.toList }

section Cycle

variable {s : State} {p : PortCycle} {rest : List PortCycle} (hin : s.inputs = p :: rest) (hrst : p.rstN = true)

include hin hrst

/-- With the port free or freed in the cycle, the step runs the presented word where there is one (R70, R77). -/
theorem step_of_port_free (hfree : s.rsp = none ∨ p.rspReady = true) :
    step s = if p.cmdValid then runCommand p.cmdData (portsServed rest s) else .next (portsServed rest s) := by
  rcases step_cases s with ⟨hnil, -⟩ | ⟨p', rest', hin', hcase⟩
  · simp [hnil] at hin
  · obtain ⟨rfl, rfl⟩ := List.cons.inj (hin'.symm.trans hin)
    rcases hcase with ⟨hlow, -⟩ | ⟨-, hready, hwaits, -⟩ | ⟨-, -, e⟩
    · simp [hrst] at hlow
    · rcases hfree with hfree | hfree
      · simp [hfree] at hwaits
      · simp [hfree] at hready
    · exact e

/-- With a response left waiting, the step consumes the cycle and no more (R77). -/
theorem step_of_response_waiting (hready : p.rspReady = false) (hwaits : s.rsp ≠ none) :
    step s = .next { s with inputs := rest } := by
  rcases step_cases s with ⟨hnil, -⟩ | ⟨p', rest', hin', hcase⟩
  · simp [hnil] at hin
  · obtain ⟨rfl, rfl⟩ := List.cons.inj (hin'.symm.trans hin)
    rcases hcase with ⟨hlow, -⟩ | ⟨-, -, -, e⟩ | ⟨-, hfree, -⟩
    · simp [hrst] at hlow
    · exact e
    · simp [hwaits, hready] at hfree

end Cycle

/-- Settles O6: the port is free or freed, so the step is the run of the presented word, by what the decoder makes of it. -/
theorem stepRunsDecodedCommand : Obligations.StepRunsDecodedCommand := by
  intro s p rest hin hrst hvalid hfree
  have hstep : step s = runCommand p.cmdData (portsServed rest s) := by
    rw [step_of_port_free hin hrst hfree, if_pos hvalid]
  exact ⟨hstep, fun i hi => hstep.trans (runCommand_of_ok hi _), fun e he => hstep.trans (runCommand_of_error he _)⟩

/-- Settles O8: with `cmd_valid` low, a step with the port free serves the ports, and one with a response left waiting only
consumes the cycle. -/
theorem noCommandNoChange : Obligations.NoCommandNoChange := by
  intro s p rest hin hrst hvalid
  cases hready : p.rspReady with
  | true => simp [step_of_port_free hin hrst (Or.inr hready), hvalid, portsServed]
  | false =>
    by_cases hrsp : s.rsp = none
    · simp [step_of_port_free hin hrst (Or.inl hrsp), hvalid, portsServed, hrsp]
    · simp [step_of_response_waiting hin hrst hready hrsp]

/-! ### The delay RAM, one channel beside another (R51, R52) -/

section Buffer

variable {cap : Nat} (hcap : 0 < cap) (hmax : cap ≤ 2 ^ 24) {c c' : Nat} (hne : c ≠ c')

include hcap hmax hne

/-- Words of different channels have different keys, whatever the indices. -/
theorem loc_wrapIndex_ne (k k' : Int) : loc c (wrapIndex cap k) ≠ loc c' (wrapIndex cap k') := fun h =>
  hne ((loc_inj ((wrapIndex_lt hcap k).trans_le hmax) ((wrapIndex_lt hcap k').trans_le hmax)).1 h).1

/-- A write in one channel changes no read of another. -/
theorem bufRead_bufWrite_of_ne (m : Memory) (k k' : Int) (v : F32) :
    bufRead cap (bufWrite cap m c k v) c' k' = bufRead cap m c' k' := by
  unfold bufRead bufWrite
  rw [Memory.read_write, if_neg (loc_wrapIndex_ne hcap hmax hne k k').symm]

/-- A write in one channel changes no interpolated read of another. -/
theorem bufReadInterpolated_bufWrite_of_ne (m : Memory) (k : Int) (v p : F32) :
    bufReadInterpolated cap (bufWrite cap m c k v) c' p = bufReadInterpolated cap m c' p := by
  simp only [bufReadInterpolated, bufRead_bufWrite_of_ne hcap hmax hne]

/-- Writes in different channels commute. -/
theorem bufWrite_comm {m : Memory} (hm : Memory.wf m = true) (k k' : Int) (v v' : F32) :
    bufWrite cap (bufWrite cap m c k v) c' k' v' = bufWrite cap (bufWrite cap m c' k' v') c k v :=
  Memory.write_comm hm (loc_wrapIndex_ne hcap hmax hne k k') v v'

end Buffer

/-! ### One sample time after another (R63, R140) -/

/-- Every word of an addressed channel holds a value (R36). -/
theorem exists_bufRead {s : State} (hp : PreparedOk s) {c : Nat} (hc : c < s.cr.nch) (k : Int) :
    ∃ v, bufRead s.cr.cap s.ram c k = some v :=
  have hpos : 0 < s.cr.cap := by have := hp.cap; omega
  have ⟨v, hv, _⟩ := hp.words c _ hc (wrapIndex_lt hpos k)
  ⟨v, hv⟩

/-- A live channel has its record and its delayed sample. -/
theorem exists_record_and_delayed {s : State} (hp : PreparedOk s) {c : Nat} (hc : c < s.cr.nch) :
    ∃ r d, s.cs[c]? = some r ∧ bufReadInterpolated s.cr.cap s.ram c r.rp = some d := by
  obtain ⟨r, hr, -⟩ := hp.channels c hc
  obtain ⟨a, ha⟩ := exists_bufRead hp hc (tapIndex s.cr.cap r.rp)
  obtain ⟨b, hb⟩ := exists_bufRead hp hc ((tapIndex s.cr.cap r.rp : Int) + 1)
  exact ⟨r, _, hr, bufReadInterpolated_eq_some.2 ⟨a, b, ha, hb, rfl⟩⟩

/-- `PROCESS_SAMPLE` with operands in range is one sample time of its channel (R140). -/
theorem exec_processSample {s : State} {c : Nat} {x d : F32} {r : Channel} (he : s.engine = .prepared)
    (hc : c < s.cr.nch) (hx : inputInRange x = true) (hr : s.cs[c]? = some r)
    (hd : bufReadInterpolated s.cr.cap s.ram c r.rp = some d) :
    exec (.processSample c x) s = .next (sampleTime c x r d s) := by
  have hch : channelInRange s.cr.nch c = true := (channelInRange_iff _ _).2 ⟨by omega, by omega⟩
  have hrun : runSample c x s = .next (sampleTime c x r d s) := runSample_next_iff.2 ⟨r, d, hr, hd, rfl⟩
  change requirePrepared s _ = _
  rw [requirePrepared_of_prepared he, if_pos hch, if_pos hx]
  exact hrun

/-- The response of one sample time given to the host: what the next command finds. -/
def sampleTaken (c : Nat) (x : F32) (r : Channel) (d : F32) (s : State) : State :=
  { sampleTime c x r d s with rsp := none }

/-- A sample time on one channel leaves that of another to run as before (R151). -/
theorem exec_processSample_after {s : State} {c c' : Nat} {x x' d d' : F32} {r r' : Channel} (hcap : 0 < s.cr.cap)
    (hmax : s.cr.cap ≤ 2 ^ 24) (hne : c ≠ c') (he : s.engine = .prepared) (hc : c' < s.cr.nch)
    (hx : inputInRange x' = true) (hr : s.cs[c']? = some r')
    (hd : bufReadInterpolated s.cr.cap s.ram c' r'.rp = some d') :
    exec (.processSample c' x') (sampleTaken c x r d s) = .next (sampleTime c' x' r' d' (sampleTaken c x r d s)) :=
  exec_processSample he hc hx ((List.getElem?_set_ne hne).trans hr)
    ((bufReadInterpolated_bufWrite_of_ne hcap hmax hne _ _ _ _).trans hd)

/-- Sample times of different channels leave the same state in either order, but for the word on the port. -/
theorem sampleTaken_comm {s : State} {c c' : Nat} {x x' d d' : F32} {r r' : Channel} (hcap : 0 < s.cr.cap)
    (hmax : s.cr.cap ≤ 2 ^ 24) (hram : Memory.wf s.ram = true) (hne : c ≠ c') :
    sampleTaken c' x' r' d' (sampleTaken c x r d s) = sampleTaken c x r d (sampleTaken c' x' r' d' s) := by
  simp only [sampleTaken, State.mk.injEq, sampleTime_cfg, sampleTime_engine, sampleTime_faultCause, sampleTime_cr,
    sampleTime_cs, sampleTime_ram, sampleTime_inputs, sampleTime_taken, sampleTime_freeCount, true_and, and_true]
  exact ⟨List.set_comm _ _ hne, bufWrite_comm hcap hmax hne hram _ _ _ _⟩

/-- Settles O32: each command finds its record and its delayed sample untouched by the other, and the writes commute. -/
theorem samplesOnTwoChannelsCommute : Obligations.SamplesOnTwoChannelsCommute := by
  intro s c1 c2 x1 x2 hs he hc1 hc2 hne hx1 hx2
  have hp := hs.live (hs.prepared he)
  have hrates := ratesOk_of_prepared hs hp
  have hcap : 0 < s.cr.cap := by have := hrates.cap_ge; omega
  obtain ⟨r1, d1, hr1, hd1⟩ := exists_record_and_delayed hp hc1
  obtain ⟨r2, d2, hr2, hd2⟩ := exists_record_and_delayed hp hc2
  exact ⟨_, _, _, _,
    exec_processSample he hc1 hx1 hr1 hd1, exec_processSample_after hcap hrates.cap_le hne he hc2 hx2 hr2 hd2,
    exec_processSample he hc2 hx2 hr2 hd2, exec_processSample_after hcap hrates.cap_le hne.symm he hc1 hx1 hr1 hd1,
    rfl, rfl, sampleTaken_comm hcap hrates.cap_le hs.ram hne⟩

/-! ### The first tap (R60, R147) -/

section Integers

variable {a b : F32} (ha : isFinite a = true) (hb : isFinite b = true) {lo hi : Int} (hlo : lo.natAbs ≤ 2 ^ 24)
  (hhi : hi.natAbs ≤ 2 ^ 24)

include ha hb hlo hhi

/-- Rounding leaves a sum between the integers it lies between. -/
theorem fadd_integer_bounds (h1 : lo * 2 ^ 149 ≤ value a + value b) (h2 : value a + value b ≤ hi * 2 ^ 149) :
    lo * 2 ^ 149 ≤ value (fadd a b) ∧ value (fadd a b) ≤ hi * 2 ^ 149 := by
  rw [← value_i2f hlo] at h1 ⊢
  rw [← value_i2f hhi] at h2 ⊢
  exact ⟨le_fadd ha hb (isNaN_i2f lo) h1, fadd_le ha hb (isNaN_i2f hi) h2⟩

/-- Rounding leaves a difference between the integers it lies between. -/
theorem fsub_integer_bounds (h1 : lo * 2 ^ 149 ≤ value a - value b) (h2 : value a - value b ≤ hi * 2 ^ 149) :
    lo * 2 ^ 149 ≤ value (fsub a b) ∧ value (fsub a b) ≤ hi * 2 ^ 149 := by
  rw [← value_i2f hlo] at h1 ⊢
  rw [← value_i2f hhi] at h2 ⊢
  exact ⟨le_fsub ha hb (isNaN_i2f lo) h1, fsub_le ha hb (isNaN_i2f hi) h2⟩

end Integers

/-- A number between two integers has its floor between them. -/
theorem floorInt_bounds {a : F32} {lo hi : Int} (hlo : lo * 2 ^ 149 ≤ value a) (hhi : value a ≤ hi * 2 ^ 149) :
    lo ≤ floorInt a ∧ floorInt a ≤ hi := by
  unfold floorInt
  omega

/-- The floor of a read position lies below the write index, or above it up to the capacity.  The capacity itself, which an
addition that rounds up reaches, comes with a write index above 0 only: at index 0 the position is at most `cap - 1`. -/
theorem floorInt_readPosition {sr len : F32} {cap w : Nat} (hr : RatesOk sr cap) (hw : w < cap)
    (hlen : between fOne len (i2f ((cap : Int) - 1)) = true) :
    let k := floorInt (readPosition cap w len)
    (0 ≤ k ∧ k < w) ∨ (w < k ∧ k < cap) ∨ (0 < w ∧ k = cap) := by
  obtain ⟨⟨hwf, hlenf⟩, hpf, hcapf⟩ := positionOperands hr hw hlen
  obtain ⟨-, hlen1, hlen2⟩ := (between_iff _ _ _).1 hlen
  have hcap := hr.cap_le
  have hcapv := hr.value_cap
  have hwv := value_natCast_i2f (n := w) (by omega)
  rw [value_fOne] at hlen1; rw [hr.value_last] at hlen2
  obtain ⟨hp1, hp2⟩ := fsub_integer_bounds hwf hlenf (lo := (w : Int) + 1 - cap) (hi := (w : Int) - 1) (by omega)
    (by omega) (by omega) (by omega)
  have hsign := flt_iff (isNaN_fsub hwf hlenf) (not_isNaN_of_isFinite isFinite_fZero)
  rw [value_fZero] at hsign
  unfold readPosition
  dsimp only
  split
  · rename_i hneg
    rw [hsign] at hneg
    -- at write index 0 the bound `w - 1` of the difference is the sharper one
    obtain ⟨hi, hhi, hhi0, hsum⟩ : ∃ hi : Int, (hi = cap ∨ hi = cap - 1) ∧ (w = 0 → hi = cap - 1) ∧
        value (fsub (i2f w) len) + value (i2f cap) ≤ hi * 2 ^ 149 := by
      rcases Nat.eq_zero_or_pos w with h0 | h0
      · exact ⟨cap - 1, Or.inr rfl, fun _ => rfl, by omega⟩
      · exact ⟨cap, Or.inl rfl, fun h => absurd h h0.ne', by omega⟩
    obtain ⟨hs1, hs2⟩ := fadd_integer_bounds hpf hcapf (lo := (w : Int) + 1) (by omega) (by omega) (by omega) hsum
    have := floorInt_bounds hs1 hs2
    omega
  · rename_i hpos
    rw [hsign, not_lt] at hpos
    have := floorInt_bounds (lo := 0) (by omega) hp2
    omega

/-- Settles O38: the floor of the read position is not the write index, nor is it when the capacity wraps to 0. -/
theorem firstTapIsNotTheWriteIndex : Obligations.FirstTapIsNotTheWriteIndex := by
  intro s c r hs htrail he hc hr
  have hrates := ratesOk_of_prepared hs (hs.live (hs.prepared he))
  have hok := channelOk_of_inv hs hc hr
  have hrp : r.rp = readPosition s.cr.cap r.w r.len.cur := htrail he c r hc hr
  have hfloor := floorInt_readPosition hrates hok.w hok.len.cur
  rw [← hrp] at hfloor
  rw [f2i_ffloor (isFinite_of_between isFinite_fZero hrates.isFinite_cap hok.rp)]
  have hw := hok.w
  rcases hfloor with ⟨h0, hlt⟩ | ⟨hgt, hlt⟩ | ⟨hpos, heq⟩
  · rw [Int.emod_eq_of_lt h0 (by omega)]; omega
  · rw [Int.emod_eq_of_lt (by omega) hlt]; omega
  · rw [heq, Int.emod_self]; omega

end Sys2Proof.Proofs
end

section
/-! PROOFS. The encoding (spec/30_encoding.md): a word is its five fields, the decoder reads a row of the table of R72 from them,
and the encoder writes that row; every other word raises `ILLEGAL_COMMAND`.  The response port (R76, R77). -/

namespace Sys2Proof.Proofs

open Sys2Proof.Machine Sys2Proof.Laws

/-! ### A word and its fields (R71) -/

theorem wordOfFields_fields {w : CmdWord} (hrsv : fieldRsv w = 0#24) :
    wordOfFields (fieldOp w) (fieldP0 w) (fieldP1 w) (fieldP2 w) = w := by
  rw [wordOfFields, ← hrsv]
  unfold fieldOp fieldRsv fieldP0 fieldP1 fieldP2
  rw [BitVec.extractLsb'_append_extractLsb'_eq_extractLsb' (show 96 = 64 + 32 from rfl),
    BitVec.extractLsb'_append_extractLsb'_eq_extractLsb' (show 64 = 32 + 32 from rfl),
    BitVec.extractLsb'_append_extractLsb'_eq_extractLsb' (show 32 = 8 + 24 from rfl),
    BitVec.extractLsb'_append_extractLsb'_eq_extractLsb' (show 8 = 0 + 8 from rfl)]
  exact BitVec.extractLsb'_eq_self

/-- The low 32 bits of a word are its opcode with a zero `RSV` above it (R72). -/
theorem low_eq_iff (w : CmdWord) (op : BitVec 8) :
    w.extractLsb' 0 32 = 0#24 ++ op ↔ fieldRsv w = 0#24 ∧ fieldOp w = op := by
  have hlow : w.extractLsb' 0 32 = fieldRsv w ++ fieldOp w :=
    (BitVec.extractLsb'_append_extractLsb'_eq_extractLsb' (show 8 = 0 + 8 from rfl)).symm
  rw [hlow]
  refine ⟨fun h => ⟨?_, ?_⟩, fun ⟨hrsv, hop⟩ => by rw [hrsv, hop]⟩
  · simpa only [BitVec.extractLsb'_append_eq_left] using congrArg (BitVec.extractLsb' 8 24) h
  · simpa only [BitVec.extractLsb'_append_eq_right] using congrArg (BitVec.extractLsb' 0 8) h

/-! ### Integer slots (R73) -/

theorem fitsInt32_iff (k : Int) : fitsInt32 k = true ↔ -2 ^ 31 ≤ k ∧ k < 2 ^ 31 := by
  rw [fitsInt32, Bool.and_eq_true, decide_eq_true_iff, decide_eq_true_iff]
  omega

theorem fitsInt32_toInt (p : BitVec 32) : fitsInt32 p.toInt = true :=
  (fitsInt32_iff _).2 ⟨p.le_toInt, p.toInt_lt⟩

theorem toInt_ofInt_of_fitsInt32 {k : Int} (h : fitsInt32 k = true) : (BitVec.ofInt 32 k).toInt = k := by
  obtain ⟨hlo, hhi⟩ := (fitsInt32_iff k).1 h
  exact BitVec.toInt_ofInt_eq_self (by decide) hlo hhi

/-! ### The table of R72 -/

/-- The rows of R72: the opcode and the slots of each command, with the slots a row shows as 0 at zero. -/
inductive TableRow : BitVec 8 → BitVec 32 → BitVec 32 → BitVec 64 → Instr → Prop
  | prepare (p0 p1 : BitVec 32) (p2 : BitVec 64) : TableRow 0x01#8 p0 p1 p2 (.prepare p2 p1.toInt p0.toInt)
  | reset : TableRow 0x02#8 0#32 0#32 0#64 .reset
  | setDelayTimeMs (p1 : BitVec 32) : TableRow 0x10#8 0#32 p1 0#64 (.setDelayTimeMs p1)
  | setMix (p1 : BitVec 32) : TableRow 0x11#8 0#32 p1 0#64 (.setMix p1)
  | setFeedback (p1 : BitVec 32) : TableRow 0x12#8 0#32 p1 0#64 (.setFeedback p1)
  | setLfoRateHz (p1 : BitVec 32) : TableRow 0x13#8 0#32 p1 0#64 (.setLfoRateHz p1)
  | setLfoDepthMs (p1 : BitVec 32) : TableRow 0x14#8 0#32 p1 0#64 (.setLfoDepthMs p1)
  | processSample (p0 p1 : BitVec 32) : TableRow 0x20#8 p0 p1 0#64 (.processSample p0.toInt p1)

section Rows

variable {op : BitVec 8} {p0 p1 : BitVec 32} {p2 : BitVec 64} {i : Instr}

theorem whenUnusedZero_eq_ok_iff {unusedZero : Bool} {j : Instr} :
    whenUnusedZero unusedZero j = .ok i ↔ unusedZero = true ∧ j = i := by
  cases unusedZero <;> simp [whenUnusedZero]

/-- The rows as the decoder asks for them. -/
theorem tableRow_iff : TableRow op p0 p1 p2 i ↔
    (op = 0x01#8 ∧ i = .prepare p2 p1.toInt p0.toInt) ∨
    (op = 0x02#8 ∧ p0 = 0#32 ∧ p1 = 0#32 ∧ p2 = 0#64 ∧ i = .reset) ∨
    (op = 0x10#8 ∧ p0 = 0#32 ∧ p2 = 0#64 ∧ i = .setDelayTimeMs p1) ∨
    (op = 0x11#8 ∧ p0 = 0#32 ∧ p2 = 0#64 ∧ i = .setMix p1) ∨
    (op = 0x12#8 ∧ p0 = 0#32 ∧ p2 = 0#64 ∧ i = .setFeedback p1) ∨
    (op = 0x13#8 ∧ p0 = 0#32 ∧ p2 = 0#64 ∧ i = .setLfoRateHz p1) ∨
    (op = 0x14#8 ∧ p0 = 0#32 ∧ p2 = 0#64 ∧ i = .setLfoDepthMs p1) ∨
    (op = 0x20#8 ∧ p2 = 0#64 ∧ i = .processSample p0.toInt p1) := by
  constructor
  · intro h
    cases h <;> simp
  · rintro (⟨rfl, rfl⟩ | ⟨rfl, rfl, rfl, rfl, rfl⟩ | ⟨rfl, rfl, rfl, rfl⟩ | ⟨rfl, rfl, rfl, rfl⟩ | ⟨rfl, rfl, rfl, rfl⟩ |
      ⟨rfl, rfl, rfl, rfl⟩ | ⟨rfl, rfl, rfl, rfl⟩ | ⟨rfl, rfl, rfl⟩) <;> constructor

/-- The decoder reads the table. -/
theorem decodeRow_eq_ok_iff : decodeRow op p0 p1 p2 = .ok i ↔ TableRow op p0 p1 p2 i := by
  constructor
  · intro h
    rw [tableRow_iff]
    unfold decodeRow at h
    -- one case per row, in the order of the decoder's tests, and the reserved opcodes last
    split_ifs at h <;> simp_all [whenUnusedZero_eq_ok_iff, and_assoc]
  · intro h
    cases h <;> rfl

/-- The encoder writes the table: the word of a well-formed command is the word of its row. -/
theorem TableRow.encode_eq (h : TableRow op p0 p1 p2 i) : encode i = wordOfFields op p0 p1 p2 := by
  cases h with
  | prepare => simp only [encode, BitVec.ofInt_toInt]
  | processSample => simp only [encode, BitVec.ofInt_toInt]
  | _ => rfl

theorem TableRow.wellFormed (h : TableRow op p0 p1 p2 i) : i.wellFormed = true := by
  cases h with
  | prepare => simp only [Instr.wellFormed, fitsInt32_toInt, Bool.and_self]
  | processSample => exact fitsInt32_toInt _
  | _ => rfl

end Rows

/-- Every well-formed command stands in the table. -/
theorem exists_tableRow {i : Instr} (h : i.wellFormed = true) : ∃ op p0 p1 p2, TableRow op p0 p1 p2 i := by
  cases i with
  | prepare sr block ch =>
    obtain ⟨hblock, hch⟩ := Bool.and_eq_true_iff.1 h
    have hrow := TableRow.prepare (BitVec.ofInt 32 ch) (BitVec.ofInt 32 block) sr
    rw [toInt_ofInt_of_fitsInt32 hblock, toInt_ofInt_of_fitsInt32 hch] at hrow
    exact ⟨_, _, _, _, hrow⟩
  | reset => exact ⟨_, _, _, _, .reset⟩
  | setDelayTimeMs v => exact ⟨_, _, _, _, .setDelayTimeMs v⟩
  | setMix v => exact ⟨_, _, _, _, .setMix v⟩
  | setFeedback v => exact ⟨_, _, _, _, .setFeedback v⟩
  | setLfoRateHz v => exact ⟨_, _, _, _, .setLfoRateHz v⟩
  | setLfoDepthMs v => exact ⟨_, _, _, _, .setLfoDepthMs v⟩
  | processSample ch x =>
    have hrow := TableRow.processSample (BitVec.ofInt 32 ch) x
    rw [toInt_ofInt_of_fitsInt32 h] at hrow
    exact ⟨_, _, _, _, hrow⟩

/-! ### The decoder (R71 to R75) -/

/-- What the decoder accepts: a zero `RSV` and the fields of a row (R72, R75). -/
theorem decode_eq_ok_iff {w : CmdWord} {i : Instr} : decode w = .ok i ↔
    fieldRsv w = 0#24 ∧ TableRow (fieldOp w) (fieldP0 w) (fieldP1 w) (fieldP2 w) i := by
  rw [← decodeRow_eq_ok_iff, decode]
  split_ifs with hrsv <;> simp [hrsv]

theorem decode_wordOfFields (op : BitVec 8) (p0 p1 : BitVec 32) (p2 : BitVec 64) :
    decode (wordOfFields op p0 p1 p2) = decodeRow op p0 p1 p2 := by
  simp only [decode, fieldOp_wordOfFields, fieldRsv_wordOfFields, fieldP0_wordOfFields, fieldP1_wordOfFields,
    fieldP2_wordOfFields, if_true]

/-- Settles O4: the command stands in a row of the table, the encoder writes that row and the decoder reads it. -/
theorem decodeOfEncode : Obligations.DecodeOfEncode := by
  intro i hi
  obtain ⟨op, p0, p1, p2, hrow⟩ := exists_tableRow hi
  rw [hrow.encode_eq, decode_wordOfFields]
  exact decodeRow_eq_ok_iff.2 hrow

/-- Settles O5: the row the decoder read gives the command its range, and its fields make up the word. -/
theorem encodeOfDecode : Obligations.EncodeOfDecode := by
  intro w i h
  obtain ⟨hrsv, hrow⟩ := decode_eq_ok_iff.1 h
  exact ⟨hrow.wellFormed, hrow.encode_eq.trans (wordOfFields_fields hrsv)⟩

/-- Settles O2: the accepted words by `decode_eq_ok_iff`, with opcode and `RSV` read as the low 32 bits. -/
theorem decodeMatchesOpcodeTable : Obligations.DecodeMatchesOpcodeTable := by
  intro w i
  rw [decode_eq_ok_iff, tableRow_iff]
  simp only [and_or_left, ← and_assoc, ← low_eq_iff]
  exact Iff.rfl

/-- Settles O1: each worked word evaluates to its command. -/
theorem decodeReadsWorkedWords : Obligations.DecodeReadsWorkedWords := by
  unfold Obligations.DecodeReadsWorkedWords
  decide

/-- Settles O3: none of these words has the fields of a row, so the decoder rejects each. -/
theorem illegalWordsRaiseIllegalCommand : Obligations.IllegalWordsRaiseIllegalCommand := by
  intro w s op rsv p0 p1 p2 hbad
  have hreject : ∀ i, decode w ≠ .ok i := by
    intro i h
    obtain ⟨hrsv, hrow⟩ := decode_eq_ok_iff.1 h
    subst op rsv p0 p1 p2
    unfold fieldRsv at hrsv
    unfold fieldOp fieldP0 fieldP1 fieldP2 at hrow
    generalize w.extractLsb' 0 8 = op, w.extractLsb' 32 32 = p0, w.extractLsb' 64 32 = p1,
      w.extractLsb' 96 64 = p2 at *
    cases hrow <;> simp [hrsv] at hbad
  cases h : decode w with
  | ok i => exact absurd h (hreject i)
  | error e =>
    rw [runCommand_of_error h]
    exact ⟨fun he => by rw [if_neg he]; rfl, fun he => by rw [if_pos he]⟩

/-! ### The response port (R76, R77) -/

/-- A completed command leaves the response port as it was, or is a `PROCESS_SAMPLE` that leaves a response (R76). -/
theorem Completed.rsp {i : Instr} {s t : State} (h : Completed i s t) :
    ((∀ ch x, i ≠ .processSample ch x) ∧ t.rsp = s.rsp) ∨
    ((∃ ch x, i = .processSample ch x) ∧ s.engine = .prepared ∧ ∃ y, t.rsp = some y) := by
  cases h with
  | processSample he => exact Or.inr ⟨⟨_, _, rfl⟩, he, _, rfl⟩
  | _ => exact Or.inl ⟨by simp, rfl⟩

/-- Settles O11: an ignored word and a violation leave the port as it was and the engine `Faulted`; a completed command leaves
the engine `Prepared` and does to the port what `Completed.rsp` says. -/
theorem onlyProcessSampleResponds : Obligations.OnlyProcessSampleResponds := by
  intro w s t h
  rcases runCommand_outcomes h with ⟨he, rfl⟩ | ⟨-, cause, -, rfl⟩ | ⟨-, i, hw, -, hc⟩
  · exact ⟨fun hne => absurd rfl hne, fun _ _ _ hp => by simp [he] at hp, fun _ => rfl⟩
  · exact ⟨fun hne => absurd rfl hne, fun _ _ _ hp => by simp at hp, fun _ => rfl⟩
  · obtain ⟨ht, -⟩ := hc.frame
    rcases hc.rsp with ⟨hi, hrsp⟩ | ⟨⟨ch, x, rfl⟩, he, hy⟩
    · refine ⟨fun hne => absurd hrsp hne, fun ch x hw' _ => ?_, fun _ => hrsp⟩
      exact absurd (Except.ok.inj (hw.symm.trans hw')) (hi ch x)
    · exact ⟨fun _ => ⟨ch, x, hw, he, ht⟩, fun _ _ _ _ => hy, fun hf => by simp [ht] at hf⟩

/-- Settles O7: `cmd_ready` is low by definition, and the step only consumes the cycle. -/
theorem waitingResponseBlocksCommands : Obligations.WaitingResponseBlocksCommands := by
  intro s p rest y hin hrst hrsp hready
  exact ⟨by simp [cmdReady, rspValid, hrsp, hready], step_of_response_waiting hin hrst hready (by simp [hrsp])⟩

end Sys2Proof.Proofs
end

section
/-! PROOFS. Ramps (spec/40_ramp.md R92, R93, R96): what a call of `ramp_next` does, settling after `N` calls, monotone movement
between start and target whatever finite step the ramp has, and the size of a linear step. -/

namespace Sys2Proof.Proofs

open Sys2Proof.Machine Sys2Proof.Laws

/-! ### One call of `ramp_next` (R93) -/

section Next

variable {r : Ramp}

theorem rampNext_of_rem_zero (mode : RampMode) (h : r.rem = 0) : rampNext mode r = r := if_pos h

theorem rampNext_of_rem_one (mode : RampMode) (h : r.rem = 1) : rampNext mode r = { r with rem := 0, cur := r.tgt } := by
  rw [rampNext, if_neg (by omega), if_pos h]

theorem rampNext_of_two_le (mode : RampMode) (h : 2 ≤ r.rem) :
    rampNext mode r = { r with rem := r.rem - 1, cur := rampMove mode r } := by
  rw [rampNext, if_neg (by omega), if_neg (by omega)]

end Next

/-- Settles O54: one equation of `ramp_next` for each range of `rem`, with the guarded move of either mode. -/
theorem rampNextResult : Obligations.RampNextResult := fun _ =>
  ⟨fun mode => rampNext_of_rem_zero mode, fun mode => rampNext_of_rem_one mode,
    fun h => ⟨rampNext_of_two_le .lin h, rampNext_of_two_le .mul h⟩⟩

/-! ### Many calls of `ramp_next` -/

section After

variable {mode : RampMode} {r : Ramp}

/-- What every call of `ramp_next` keeps, any number of calls keeps. -/
theorem rampAfter_keeps {P : Ramp → Prop} (hP : ∀ r, P r → P (rampNext mode r)) (k : Nat) (h : P r) :
    P (rampAfter mode k r) := by
  induction k generalizing r with
  | zero => exact h
  | succ k ih => exact ih (hP r h)

/-- The last of `k + 1` calls. -/
theorem rampAfter_succ (mode : RampMode) (k : Nat) (r : Ramp) :
    rampAfter mode (k + 1) r = rampNext mode (rampAfter mode k r) := by
  induction k generalizing r with
  | zero => rfl
  | succ k ih => exact ih (rampNext mode r)

theorem rampAfter_tgt (mode : RampMode) (k : Nat) (r : Ramp) : (rampAfter mode k r).tgt = r.tgt :=
  rampAfter_keeps (P := fun r' => r'.tgt = r.tgt) (fun r' h => (rampNext_tgt mode r').trans h) k rfl

theorem rampAfter_rem (mode : RampMode) (k : Nat) (r : Ramp) : (rampAfter mode k r).rem = r.rem - k := by
  induction k with
  | zero => rfl
  | succ k ih => rw [rampAfter_succ, rampNext_rem, ih, Nat.sub_sub]

/-- A ramp that has stopped is on its target: the call that brings `rem` to 0 lands there (R93). -/
theorem settled_rampNext (mode : RampMode) (h : r.rem = 0 → r.cur = r.tgt) :
    (rampNext mode r).rem = 0 → (rampNext mode r).cur = (rampNext mode r).tgt := by
  rcases rampNext_cases mode r with ⟨-, e⟩ | ⟨-, e⟩ | ⟨hrem, e⟩ <;> rw [e]
  · exact h
  · exact fun _ => rfl
  · intro h0
    dsimp only at h0
    omega

theorem rampAfter_cur_of_rem_le (h : r.rem = 0 → r.cur = r.tgt) {k : Nat} (hk : r.rem ≤ k) :
    (rampAfter mode k r).cur = r.tgt := by
  have hkept := rampAfter_keeps (P := fun r => r.rem = 0 → r.cur = r.tgt) (fun _ => settled_rampNext mode) k h
  rw [rampAfter_rem, rampAfter_tgt] at hkept
  exact hkept (Nat.sub_eq_zero_of_le hk)

end After

/-! ### A retarget that starts a ramp (R92, R96 a) -/

theorem rampSetTarget_of_new (cfg : Config) (mode : RampMode) {r : Ramp} {v : F32} (hN : 1 ≤ r.N)
    (hne : feq v r.tgt = false) :
    rampSetTarget cfg mode r v = { r with tgt := v, rem := r.N, step := rampStep cfg mode r v } := by
  rw [rampSetTarget, hne, if_neg Bool.false_ne_true, if_neg (Nat.one_le_iff_ne_zero.1 hN)]

/-- Settles O43: the count starts at `N >= 1`, and a ramp whose count has run out is on its target. -/
theorem rampSettlesAfterN : Obligations.RampSettlesAfterN := by
  intro cfg mode r v k hN hne hk
  rw [rampSetTarget_of_new cfg mode hN hne]
  refine ⟨rampAfter_cur_of_rem_le (fun h0 : r.N = 0 => absurd hN (by omega)) hk, ?_⟩
  rw [rampAfter_rem]
  exact Nat.sub_eq_zero_of_le hk

/-! ### The guard (R93, R96 b)

The guard has the sense of the step, so a move away from the target is replaced by the target and a move towards it is cut at
the target: the ramp stays between where it is and its target whatever finite step it has. -/

/-- A ramp of finite values, of numbers that are not negative where it is multiplicative. -/
structure Guarded (mode : RampMode) (r : Ramp) : Prop where
  finite : RampFinite r
  sign : mode = .mul → 0 ≤ value r.cur ∧ 0 ≤ value r.tgt

section Guard

variable {mode : RampMode} {r : Ramp}

/-- A move up is guarded from above, a move down from below. -/
theorem rampMove_guard (h : Guarded mode r) (hrem : 0 < r.rem) : ∃ m, isNaN m = false ∧
    ((value r.cur ≤ value m ∧ rampMove mode r = fmin m r.tgt) ∨
      (value m ≤ value r.cur ∧ rampMove mode r = fmax m r.tgt)) := by
  obtain ⟨⟨hcur, -, hstep⟩, hsign⟩ := h
  replace hstep := hstep hrem
  have hcn := not_isNaN_of_isFinite hcur
  have hsn := not_isNaN_of_isFinite hstep
  cases mode with
  | lin =>
    refine ⟨fadd r.cur r.step, isNaN_fadd hcur hstep, ?_⟩
    have hup := fle_iff (a := fZero) (by decide) hsn
    rw [value_fZero] at hup
    by_cases hle : fle fZero r.step = true
    · exact Or.inl ⟨le_fadd hcur hstep hcn (by linarith [hup.1 hle]), if_pos hle⟩
    · exact Or.inr ⟨fadd_le hcur hstep hcn (by linarith [mt hup.2 hle]), if_neg hle⟩
  | mul =>
    refine ⟨fmul r.cur r.step, isNaN_fmul hcur hstep, ?_⟩
    obtain ⟨hpos, -⟩ := hsign rfl
    have hup := fle_iff (a := fOne) (by decide) hsn
    rw [value_fOne] at hup
    by_cases hle : fle fOne r.step = true
    · exact Or.inl ⟨le_fmul hcur hstep hcn (mul_le_mul_of_nonneg_left (hup.1 hle) hpos), if_pos hle⟩
    · exact Or.inr ⟨fmul_le hcur hstep hcn (mul_le_mul_of_nonneg_left (not_le.1 (mt hup.2 hle)).le hpos), if_neg hle⟩

/-- A guarded move ends between where it starts and the target. -/
theorem rampMove_mem_uIcc (h : Guarded mode r) (hrem : 0 < r.rem) :
    isNaN (rampMove mode r) = false ∧ value (rampMove mode r) ∈ Set.uIcc (value r.cur) (value r.tgt) := by
  obtain ⟨-, htgt, -⟩ := h.finite
  have htn := not_isNaN_of_isFinite htgt
  obtain ⟨m, hm, ⟨hle, e⟩ | ⟨hle, e⟩⟩ := rampMove_guard h hrem <;> rw [e, Set.mem_uIcc]
  · refine ⟨isNaN_fmin hm htn, ?_⟩
    rw [value_fmin hm htn]; omega
  · refine ⟨isNaN_fmax hm htn, ?_⟩
    rw [value_fmax hm htn]; omega

theorem rampNext_mem_uIcc (h : Guarded mode r) :
    isNaN (rampNext mode r).cur = false ∧ value (rampNext mode r).cur ∈ Set.uIcc (value r.cur) (value r.tgt) := by
  obtain ⟨hcur, htgt, -⟩ := h.finite
  rcases rampNext_cases mode r with ⟨-, e⟩ | ⟨-, e⟩ | ⟨hrem, e⟩ <;> rw [e]
  · exact ⟨not_isNaN_of_isFinite hcur, Set.left_mem_uIcc⟩
  · exact ⟨not_isNaN_of_isFinite htgt, Set.right_mem_uIcc⟩
  · exact rampMove_mem_uIcc h (by omega)

theorem isFinite_of_mem_uIcc {a b v : F32} (ha : isFinite a = true) (hb : isFinite b = true) (hv : isNaN v = false)
    (h : value v ∈ Set.uIcc (value a) (value b)) : isFinite v = true := by
  rcases Set.mem_uIcc.1 h with ⟨h1, h2⟩ | ⟨h1, h2⟩
  · exact isFinite_of_bounds hv ha hb h1 h2
  · exact isFinite_of_bounds hv hb ha h1 h2

/-- A guarded call keeps the values finite and on their side of zero. -/
theorem guarded_rampNext (h : Guarded mode r) : Guarded mode (rampNext mode r) := by
  obtain ⟨hcur, htgt, hstep⟩ := h.finite
  obtain ⟨hn, hmem⟩ := rampNext_mem_uIcc h
  have hlow := hmem.1
  refine ⟨⟨isFinite_of_mem_uIcc hcur htgt hn hmem, ?_, ?_⟩, fun hmode => ?_⟩
  · rw [rampNext_tgt]; exact htgt
  · rw [rampNext_rem, rampNext_step]
    exact fun h' => hstep (by omega)
  · obtain ⟨hc0, ht0⟩ := h.sign hmode
    rw [rampNext_tgt]
    exact ⟨(le_min hc0 ht0).trans hlow, ht0⟩

theorem guarded_rampAfter (h : Guarded mode r) (k : Nat) : Guarded mode (rampAfter mode k r) :=
  rampAfter_keeps (P := Guarded mode) (fun _ => guarded_rampNext) k h

/-- The next call moves between the value reached and the target of the start. -/
theorem rampAfter_succ_mem_uIcc (h : Guarded mode r) (k : Nat) :
    value (rampAfter mode (k + 1) r).cur ∈ Set.uIcc (value (rampAfter mode k r).cur) (value r.tgt) := by
  obtain ⟨-, hmem⟩ := rampNext_mem_uIcc (guarded_rampAfter h k)
  rwa [rampAfter_tgt, ← rampAfter_succ] at hmem

theorem rampAfter_mem_uIcc (h : Guarded mode r) (k : Nat) :
    value (rampAfter mode k r).cur ∈ Set.uIcc (value r.cur) (value r.tgt) := by
  induction k with
  | zero => exact Set.left_mem_uIcc
  | succ k ih => exact Set.uIcc_subset_uIcc_right ih (rampAfter_succ_mem_uIcc h k)

/-- Successive values move one way, from the start to the target (R96 b). -/
theorem rampAfter_monotone (h : Guarded mode r) (k : Nat) :
    let a := (rampAfter mode k r).cur
    let b := (rampAfter mode (k + 1) r).cur
    (value r.cur ≤ value r.tgt → value r.cur ≤ value a ∧ value a ≤ value b ∧ value b ≤ value r.tgt) ∧
    (value r.tgt ≤ value r.cur → value r.tgt ≤ value b ∧ value b ≤ value a ∧ value a ≤ value r.cur) := by
  have hmem := rampAfter_mem_uIcc h k
  have hnext := rampAfter_succ_mem_uIcc h k
  refine ⟨fun hup => ?_, fun hdown => ?_⟩
  · rw [Set.uIcc_of_le hup] at hmem
    rw [Set.uIcc_of_le hmem.2] at hnext
    exact ⟨hmem.1, hnext⟩
  · rw [Set.uIcc_of_ge hdown] at hmem
    rw [Set.uIcc_of_ge hmem.1] at hnext
    exact ⟨hnext.1, hnext.2, hmem.2⟩

end Guard

/-! ### Monotone ramps (R96 b, d) -/

/-- A divisor of at least one does not overflow a quotient. -/
theorem isFinite_fdiv_of_one_le {a b : F32} (ha : isFinite a = true) (hb : isFinite b = true)
    (h1 : value fOne ≤ value b) : isFinite (fdiv a b) = true := by
  have han := not_isNaN_of_isFinite ha
  rcases le_total 0 (value a) with h | h
  · exact isFinite_of_between isFinite_fZero ha (between_fdiv_of_one_le isFinite_fZero ha value_fZero.le h
      (between_of_bounds han (value_fZero.trans_le h) le_rfl) hb h1)
  · exact isFinite_of_between ha isFinite_fZero (between_fdiv_of_one_le ha isFinite_fZero h value_fZero.ge
      (between_of_bounds han le_rfl (h.trans value_fZero.ge)) hb h1)

/-- Settles O44: the step `fdiv(fsub(v, cur), i2f(N))` is finite, and the guard does the rest. -/
theorem linearRampIsMonotone : Obligations.LinearRampIsMonotone := by
  intro cfg r v k hcur hv hway hN hwidth hne
  obtain ⟨hNf, hN1⟩ := rampLength_i2f hN hwidth
  rw [rampSetTarget_of_new cfg .lin hN hne]
  have hguard : Guarded .lin { r with tgt := v, rem := r.N, step := rampStep cfg .lin r v } :=
    ⟨⟨hcur, hv, fun _ => isFinite_fdiv_of_one_le hway hNf hN1⟩, nofun⟩
  exact rampAfter_monotone hguard k

/-- Settles O45: every `ROOT` is finite, and the guard keeps the ramp between two positive numbers, whatever the factor. -/
theorem multiplicativeRampStaysPositive : Obligations.MultiplicativeRampStaysPositive := by
  intro cfg r v k hcur hv hcur0 hv0 hN hne
  rw [rampSetTarget_of_new cfg .mul hN hne]
  have hguard : Guarded .mul { r with tgt := v, rem := r.N, step := rampStep cfg .mul r v } :=
    ⟨⟨hcur, hv, fun _ => isFinite_ROOT cfg _ _⟩, fun _ => ⟨hcur0.le, hv0.le⟩⟩
  obtain ⟨hlow, -⟩ := rampAfter_mem_uIcc hguard k
  exact ⟨(lt_min hcur0 hv0).trans_le hlow, rampAfter_monotone hguard k⟩

/-! ### The unit in the last place (R2, R96 c) -/

/-- Numbers of one value have one unit in the last place. -/
theorem ulp_eq_of_value_eq {a b : F32} (h : value a = value b) : ulp a = ulp b := by
  have hlow : low31 a = low31 b := magOf_inj.1 (by rw [← natAbs_value, ← natAbs_value, h])
  rw [ulp, ulp, expField_eq, expField_eq, hlow]

/-- The bits a rounding drops lie below the last place of its result. -/
theorem two_pow_droppedBits_le_ulp {neg : Bool} {n d : Nat} (hd : 0 < d) (hf : isFinite (roundPack neg n d) = true) :
    2 ^ droppedBits (n / d) ≤ ulp (roundPack neg n d) := by
  rw [ulp, expField_eq, low31_roundPack, packMagnitude_eq_packRaw hf, packRaw]
  refine Nat.pow_le_pow_right two_pos ?_
  obtain ⟨-, h0 | hsig⟩ := significand_bounds n hd <;> omega

/-- Half a unit is the most an integral rounding errs by. -/
theorem roundQuotient_error (n : Nat) {d : Nat} (hd : 0 < d) :
    2 * |((roundQuotient n d * d : Nat) : Int) - n| ≤ d := by
  obtain ⟨hlo, hhi⟩ := roundQuotient_spec n hd
  rcases abs_cases (((roundQuotient n d * d : Nat) : Int) - n) with ⟨e, -⟩ | ⟨e, -⟩ <;> rw [e] <;> omega

/-- The one rounding errs by at most half a unit in the last place of its result. -/
theorem roundPack_error_ulp {neg : Bool} {n d : Nat} (hd : 0 < d) (hf : isFinite (roundPack neg n d) = true) :
    2 * |value (roundPack neg n d) * d - signed neg n| ≤ ulp (roundPack neg n d) * d := by
  have hmag : magOf (packRaw n d) * d =
      roundQuotient n (d * 2 ^ droppedBits (n / d)) * (d * 2 ^ droppedBits (n / d)) := by
    rw [magOf_packRaw n hd]; ring
  rw [value_roundPack, packMagnitude_eq_packRaw hf, abs_signed_mul_sub, hmag]
  refine (roundQuotient_error n (Nat.mul_pos hd (Nat.two_pow_pos _))).trans ?_
  rw [mul_comm d]
  exact_mod_cast Nat.mul_le_mul_right d (two_pow_droppedBits_le_ulp hd hf)

theorem fadd_error_ulp {a b : F32} (ha : isFinite a = true) (hb : isFinite b = true)
    (hf : isFinite (fadd a b) = true) : 2 * |value (fadd a b) - (value a + value b)| ≤ ulp (fadd a b) := by
  rw [fadd_eq ha hb] at hf ⊢
  by_cases h0 : value a + value b = 0
  · rw [value_addFinite_zero h0, h0, sub_zero, abs_zero, mul_zero]
    exact Int.natCast_nonneg _
  · rw [addFinite_eq a b h0] at hf ⊢
    have h := roundPack_error_ulp one_pos hf
    rwa [signed_natAbs, Nat.cast_one, mul_one, mul_one] at h

/-! ### The size of a linear step (R92, R93, R96 c) -/

/-- A step that points to the target lands on it where the exact sum reaches it, and on the rounded sum elsewhere. -/
theorem value_rampMove_lin {r : Ramp} (hcur : isFinite r.cur = true) (htgt : isFinite r.tgt = true)
    (hstep : isFinite r.step = true)
    (hdir : value r.cur ≤ value r.tgt ∧ 0 ≤ value r.step ∨ value r.tgt ≤ value r.cur ∧ value r.step < 0) :
    (value (rampMove .lin r) = value r.tgt ∧ |value r.tgt - value r.cur| ≤ |value r.step|) ∨
    value (rampMove .lin r) = value (fadd r.cur r.step) := by
  have htn := not_isNaN_of_isFinite htgt
  have hsum := isNaN_fadd hcur hstep
  have hsense := fle_iff (a := fZero) (by decide) (not_isNaN_of_isFinite hstep)
  have hle := fadd_le hcur hstep htn
  have hge := le_fadd hcur hstep htn
  rw [value_fZero] at hsense
  rcases hdir with ⟨hway, hup⟩ | ⟨hway, hdown⟩
  · rw [rampMove, if_pos (hsense.2 hup), value_fmin hsum htn, abs_of_nonneg (sub_nonneg.2 hway), abs_of_nonneg hup]
    rcases le_total (value r.tgt) (value r.cur + value r.step) with h | h
    · exact Or.inl ⟨min_eq_right (hge h), by omega⟩
    · exact Or.inr (min_eq_left (hle h))
  · rw [rampMove, if_neg (mt hsense.1 (not_le.2 hdown)), value_fmax hsum htn, abs_of_nonpos (sub_nonpos.2 hway),
      abs_of_neg hdown]
    rcases le_total (value r.cur + value r.step) (value r.tgt) with h | h
    · exact Or.inl ⟨max_eq_right (hle h), by omega⟩
    · exact Or.inr (max_eq_left (hge h))

/-- A guarded move towards the target is at most the step and the rounding of one sum. -/
theorem rampMove_lin_bounded {r : Ramp} (hcur : isFinite r.cur = true) (htgt : isFinite r.tgt = true)
    (hstep : isFinite r.step = true) (hsum : isFinite (fadd r.cur r.step) = true)
    (hdir : value r.cur ≤ value r.tgt ∧ 0 ≤ value r.step ∨ value r.tgt ≤ value r.cur ∧ value r.step < 0) :
    2 * |value (rampMove .lin r) - value r.cur| ≤ 2 * |value r.step| + ulp (rampMove .lin r) := by
  rcases value_rampMove_lin hcur htgt hstep hdir with ⟨e, hway⟩ | e
  · rw [e]; omega
  · rw [ulp_eq_of_value_eq e, e]
    have herr := fadd_error_ulp hcur hstep hsum
    have htri := abs_add_le (value (fadd r.cur r.step) - (value r.cur + value r.step)) (value r.step)
    rw [← sub_sub, sub_add_cancel] at htri
    rw [← sub_sub] at herr
    linarith

theorem abs_value_fdiv {a b : F32} (ha : isFinite a = true) (hb : isFinite b = true) (h0 : 0 < value b) :
    |value (fdiv a b)| = magOf (packMagnitude ((value a).natAbs * 2 ^ 149) (magnitude b)) := by
  rw [fdiv_eq ha hb h0, value_roundPack, abs_signed, natAbs_value_eq_magnitude]

/-- Quotients by one divisor are rounded in the order of their magnitudes. -/
theorem abs_fdiv_le_abs_fdiv {a b c : F32} (ha : isFinite a = true) (hc : isFinite c = true) (hb : isFinite b = true)
    (h0 : 0 < value b) (h : |value a| ≤ |value c|) : |value (fdiv a b)| ≤ |value (fdiv c b)| := by
  rw [abs_value_fdiv ha hb h0, abs_value_fdiv hc hb h0]
  have hpos : 0 < magnitude b := Nat.pos_of_ne_zero (magnitude_ne_zero h0.ne')
  have hmag : (value a).natAbs ≤ (value c).natAbs := by zify; exact h
  exact_mod_cast magOf_le_iff.2 (packMagnitude_mono hpos hpos (Nat.mul_le_mul_right _ (Nat.mul_le_mul_right _ hmag)))

/-- The step between two numbers of `[0, hi]` is at most the step over the whole range. -/
theorem rampStep_lin_bounded (cfg : Config) {r : Ramp} {v hi : F32} (hcur : between fZero r.cur hi = true)
    (hv : between fZero v hi = true) (hhi : isFinite hi = true) (hN : 1 ≤ r.N) (hwidth : r.N < 2 ^ 31) :
    |value (rampStep cfg .lin r v)| ≤ value (fdiv hi (i2f r.N)) := by
  obtain ⟨-, hc0, hc1⟩ := (between_iff _ _ _).1 hcur
  obtain ⟨-, hv0, hv1⟩ := (between_iff _ _ _).1 hv
  rw [value_fZero] at hc0 hv0
  have hhi0 : 0 ≤ value hi := hv0.trans hv1
  have hhi' : isFinite (fneg hi) = true := (isFinite_fneg hi).trans hhi
  obtain ⟨hNf, hN1⟩ := rampLength_i2f hN hwidth
  have hN0 : 0 < value (i2f r.N) := lt_of_lt_of_le (by rw [value_fOne]; norm_num) hN1
  have hway : between (fneg hi) (fsub v r.cur) hi = true :=
    between_fsub (isFinite_of_between isFinite_fZero hhi hv) (isFinite_of_between isFinite_fZero hhi hcur) hhi' hhi
      (by rw [value_fneg]; omega) (by omega)
  obtain ⟨-, hwayle⟩ := (between_fneg_iff _ _).1 hway
  have hq : 0 ≤ value (fdiv hi (i2f r.N)) := by
    have h := le_fdiv (c := fZero) hhi hNf hN0 (by decide) (by rw [value_fZero]; omega)
    rwa [value_fZero] at h
  calc |value (rampStep cfg .lin r v)| ≤ |value (fdiv hi (i2f r.N))| :=
        abs_fdiv_le_abs_fdiv (isFinite_of_between hhi' hhi hway) hhi hNf hN0 (by rwa [abs_of_nonneg hhi0])
    _ = value (fdiv hi (i2f r.N)) := abs_of_nonneg hq

/-- Settles O55: a call before the last makes a guarded move, whose size `rampMove_lin_bounded` gives; a retarget sets the step
that `rampStep_lin_bounded` bounds. -/
theorem linearRampStepBounded : Obligations.LinearRampStepBounded := by
  refine ⟨fun r hcur htgt hstep hsum hrem hdir => ?_, fun cfg r v hi hcur hv hhi hN hwidth hne => ?_⟩
  · rw [rampNext_of_two_le .lin hrem]
    exact rampMove_lin_bounded hcur htgt hstep hsum hdir
  · rw [rampSetTarget_of_new cfg .lin hN hne]
    exact rampStep_lin_bounded cfg hcur hv hhi hN hwidth

end Sys2Proof.Proofs
end

section
/-! PROOFS. The oscillator (spec/41_oscillator.md R103, R104): how many turns the wrap loop of one advance takes, at every finite
sample rate of at least one, and where it ends. -/

namespace Sys2Proof.Proofs

open Sys2Proof.Machine Sys2Proof.Laws

/-! ### The loop turn by turn -/

theorem wrapPhase_of_lt (fuel : Nat) {ph : F32} (hn : isNaN ph = false) (hlt : value ph < value twoPi) :
    wrapPhase fuel ph = ph := by
  have hstop : ¬ fle twoPi ph = true := by
    rwa [fle_iff (not_isNaN_of_isFinite isFinite_twoPi) hn, not_le]
  cases fuel <;> rw [wrapPhase, if_neg hstop]

theorem wrapPhase_succ_of_le (fuel : Nat) {ph : F32} (h : between fZero ph (i2f 70) = true)
    (hge : value twoPi ≤ value ph) : wrapPhase (fuel + 1) ph = wrapPhase fuel (fsub ph twoPi) := by
  have hmoves : fsub ph twoPi ≠ ph := fun e => (wrapTurn h hge).2.ne (congrArg value e)
  rw [wrapPhase, if_pos ((fle_iff (not_isNaN_of_isFinite isFinite_twoPi) (isNaN_of_between h)).2 hge), if_neg hmoves]

/-- A turn takes a phase of `[0, n + 6]` into `[0, n]`: it subtracts more than 6, and `n` is a binary32 number, so no rounding
leads past it. -/
theorem between_wrapTurn {ph : F32} {n : Nat} (hn : n ≤ 64) (h : between fZero ph (i2f (n + 6 : Nat)) = true)
    (hge : value twoPi ≤ value ph) : between fZero (fsub ph twoPi) (i2f n) = true := by
  have hf := isFinite_of_between isFinite_fZero (isFinite_natCast_i2f (by omega)) h
  have hu := upper_of_between h
  rw [value_natCast_i2f (by omega)] at hu
  refine between_fsub hf isFinite_twoPi isFinite_fZero (isFinite_natCast_i2f (by omega)) ?_ ?_
  · rw [value_fZero]; omega
  · rw [value_natCast_i2f (by omega), value_twoPi]; push_cast at hu; omega

/-- From a phase of `[0, 6k + 4]` the loop takes at most `k` turns: 4 is below `TWO_PI`, and a turn that starts in
`[0, 6(k + 1) + 4]` ends in `[0, 6k + 4]`.  Every turn lowers the pattern, so the fuel suffices (log 6). -/
theorem wrapPhase_eq_subtractTurns {k fuel : Nat} {ph : F32} (hk : k ≤ 11)
    (h : between fZero ph (i2f (6 * k + 4 : Nat)) = true) (hfuel : low31 ph ≤ fuel) :
    ∃ j, j ≤ k ∧ wrapPhase fuel ph = subtractTurns j ph ∧ ∀ i, i < j → value twoPi ≤ value (subtractTurns i ph) := by
  induction k generalizing fuel ph with
  | zero =>
    have hu := upper_of_between h
    rw [value_natCast_i2f (by norm_num)] at hu
    exact ⟨0, le_rfl, wrapPhase_of_lt fuel (isNaN_of_between h) (by rw [value_twoPi]; omega), by simp⟩
  | succ k ih =>
    rcases lt_or_ge (value ph) (value twoPi) with hlt | hge
    · exact ⟨0, Nat.zero_le _, wrapPhase_of_lt fuel (isNaN_of_between h) hlt, by simp⟩
    · have h70 : between fZero ph (i2f 70) = true := between_mono h le_rfl (by
        rw [value_natCast_i2f (by omega), value_i2f_70]; omega)
      obtain ⟨hin, hlt⟩ := wrapTurn h70 hge
      have hlow := low31_lt_of_value (value_fZero ▸ lower_of_between hin) hlt
      obtain ⟨fuel, rfl⟩ : ∃ n, fuel = n + 1 := Nat.exists_eq_succ_of_ne_zero (by omega)
      obtain ⟨j, hj, heq, hturns⟩ := ih (by omega) (between_wrapTurn (by omega) h hge) (fuel := fuel) (by omega)
      refine ⟨j + 1, by omega, (wrapPhase_succ_of_le fuel h70 hge).trans heq, fun i hi => ?_⟩
      cases i with
      | zero => exact hge
      | succ i => exact hturns i (by omega)

/-! ### One advance -/

/-- The phase before it is wrapped is below 70 at every finite rate of at least one, also above those a state can hold
(`between_unwrappedPhase`). -/
theorem between_unwrappedPhase_of_one_le {sr hz phase : F32} (hsr : isFinite sr = true) (h1 : value fOne ≤ value sr)
    (hhz : between fZero hz fTen = true) (hph : between fZero phase twoPi = true) :
    between fZero (fadd phase (phaseIncrement sr hz)) (i2f 70) = true := by
  obtain ⟨-, hz0, hz1⟩ := (between_iff _ _ _).1 hhz
  obtain ⟨-, ph0, ph1⟩ := (between_iff _ _ _).1 hph
  rw [value_fZero] at hz0 ph0; rw [value_fTen] at hz1; rw [value_twoPi] at ph1
  have hmul : between fZero (fmul twoPi hz) (i2f 63) = true :=
    between_fmul isFinite_twoPi (isFinite_of_between isFinite_fZero isFinite_fTen hhz) isFinite_fZero isFinite_i2f_63
      (by rw [value_fZero, value_twoPi]; omega) (by rw [value_i2f_63, value_twoPi]; omega)
  have hinc : between fZero (phaseIncrement sr hz) (i2f 63) = true :=
    between_fdiv_of_one_le isFinite_fZero isFinite_i2f_63 value_fZero.le (by rw [value_i2f_63]; norm_num) hmul hsr h1
  obtain ⟨-, inc0, inc1⟩ := (between_iff _ _ _).1 hinc
  rw [value_fZero] at inc0; rw [value_i2f_63] at inc1
  exact between_fadd (isFinite_of_between isFinite_fZero isFinite_twoPi hph)
    (isFinite_of_between isFinite_fZero isFinite_i2f_63 hinc) isFinite_fZero isFinite_i2f_70
    (by rw [value_fZero]; omega) (by rw [value_i2f_70]; omega)

/-- Settles O46: the sum lies in `[0, 70]`, that is `[0, 6 * 11 + 4]`. -/
theorem phaseWrapsIntoRange : Obligations.PhaseWrapsIntoRange := by
  intro sr32 hz phase hsr h1 hhz hph _ ph
  have h70 : between fZero ph (i2f 70) = true := between_unwrappedPhase_of_one_le hsr h1 hhz hph
  have hfuel : low31 ph ≤ ph.toNat := Nat.mod_le _ _
  obtain ⟨k, hk, heq, hturns⟩ := wrapPhase_eq_subtractTurns (k := 11) le_rfl h70 hfuel
  obtain ⟨hrange, hbelow⟩ := wrapPhase_range _ h70 hfuel
  exact ⟨k, hk, heq, hturns, isFinite_of_between isFinite_fZero isFinite_twoPi hrange,
    value_fZero ▸ lower_of_between hrange, hbelow⟩

end Sys2Proof.Proofs
end

section
/-! PROOFS. The delay buffer (spec/42_delay_buffer.md R115): what a read returns after a write, and the bound of an interpolated
read, from the relative error of each of its three roundings. -/

namespace Sys2Proof.Proofs

open Sys2Proof.Machine Sys2Proof.Laws

/-! ### Read after write (R52, R115 a) -/

/-- Two indices mean the same word exactly when they are equal modulo the capacity (R52). -/
theorem wrapIndex_eq_iff {cap : Nat} (hcap : 0 < cap) (k k' : Int) :
    wrapIndex cap k = wrapIndex cap k' ↔ k % (cap : Int) = k' % (cap : Int) := by
  have h := Int.emod_nonneg k (Int.natCast_ne_zero.2 hcap.ne')
  have h' := Int.emod_nonneg k' (Int.natCast_ne_zero.2 hcap.ne')
  unfold wrapIndex
  omega

/-- Settles O52: a write changes the word at one key, and keys agree exactly when the channels and the wrapped indices do. -/
theorem bufferReadAfterWrite : Obligations.BufferReadAfterWrite := by
  intro cap c c' m k k' v hcap hmax
  have hkey : loc c' (wrapIndex cap k') = loc c (wrapIndex cap k) ↔ c' = c ∧ k' % (cap : Int) = k % (cap : Int) := by
    rw [loc_inj ((wrapIndex_lt hcap k').trans_le hmax) ((wrapIndex_lt hcap k).trans_le hmax), wrapIndex_eq_iff hcap]
  unfold bufRead bufWrite
  rw [Memory.read_write]
  exact if_congr hkey rfl rfl

/-! ### The relative error of one rounding (R2) -/

/-- A unit in the last place above the least one comes with a full significand. -/
theorem ulp_eq_one_or_le_abs_value (a : F32) : ulp a = 1 ∨ 2 ^ 23 * (ulp a : Int) ≤ |value a| := by
  by_cases h : expField a = 0
  · exact Or.inl (by rw [ulp, h, Nat.zero_sub, pow_zero])
  · right
    have hmag : 2 ^ 23 * ulp a ≤ magnitude a := by
      rw [magnitude, if_neg h, ulp]
      exact Nat.mul_le_mul_right _ (Nat.le_add_right _ _)
    rw [Int.abs_eq_natAbs, natAbs_value_eq_magnitude]
    exact_mod_cast hmag

/-- A result whose error is `2^-24` of itself exceeds the exact value in magnitude by at most that share. -/
theorem abs_le_of_relative_error {x y : Int} (h : 2 ^ 24 * |x - y| ≤ |x|) : (2 ^ 24 - 1) * |x| ≤ 2 ^ 24 * |y| := by
  have htri := abs_sub_abs_le_abs_sub x y
  omega

section Errors

variable {a b : F32} (ha : isFinite a = true) (hb : isFinite b = true)

include ha hb

/-- A sum has no underflow: half a least unit is no error between whole numbers of units. -/
theorem fadd_error_relative (hf : isFinite (fadd a b) = true) :
    2 ^ 24 * |value (fadd a b) - (value a + value b)| ≤ |value (fadd a b)| := by
  have herr := fadd_error_ulp ha hb hf
  have h0 := abs_nonneg (value (fadd a b))
  rcases ulp_eq_one_or_le_abs_value (fadd a b) with h | h <;> omega

theorem fsub_error_relative (hf : isFinite (fsub a b) = true) :
    2 ^ 24 * |value (fsub a b) - (value a - value b)| ≤ |value (fsub a b)| := by
  have hb' : isFinite (fneg b) = true := (isFinite_fneg b).trans hb
  have hsub : fsub a b = fadd a (fneg b) := (fsub_eq ha hb).trans (fadd_eq ha hb').symm
  rw [hsub] at hf ⊢
  rw [sub_eq_add_neg (value a), ← value_fneg]
  exact fadd_error_relative ha hb' hf

/-- A product may underflow, by half a least unit. -/
theorem fmul_error (hf : isFinite (fmul a b) = true) :
    2 ^ 24 * |value (fmul a b) * 2 ^ 149 - value a * value b| ≤ |value a * value b| + 2 ^ 23 * 2 ^ 149 := by
  rw [fmul_eq ha hb] at hf ⊢
  have h := value_roundPack_error two_pow_149_pos hf
  rw [← abs_signed (signBit a != signBit b) (magnitude a * magnitude b), signed_product] at h
  exact_mod_cast h

end Errors

/-! ### The interpolated read (R113, R115 b, c) -/

/-- In exact arithmetic a blend lies within the bound of its ends. -/
theorem abs_blend_le {x y u one M : Int} (h0 : 0 ≤ u) (h1 : u ≤ one) (hx : |x| ≤ M) (hy : |y| ≤ M) :
    |x * one + u * (y - x)| ≤ M * one :=
  calc |x * one + u * (y - x)| = |(one - u) * x + u * y| := by ring_nf
    _ ≤ |(one - u) * x| + |u * y| := abs_add_le _ _
    _ = (one - u) * |x| + u * |y| := by rw [abs_mul, abs_mul, abs_of_nonneg (sub_nonneg.2 h1), abs_of_nonneg h0]
    _ ≤ (one - u) * M + u * M :=
      add_le_add (mul_le_mul_of_nonneg_left hx (sub_nonneg.2 h1)) (mul_le_mul_of_nonneg_left hy h0)
    _ = M * one := by ring

section Blend

variable {frac a b : F32} (hfrac : between fZero frac fOne = true) (ha : between (fneg (i2f 21)) a (i2f 21) = true)
  (hb : between (fneg (i2f 21)) b (i2f 21) = true)

include hfrac ha hb

/-- The part of the difference that a fraction takes. -/
theorem between_fractionShare : between (fneg (i2f 42)) (fmul frac (fsub b a)) (i2f 42) = true :=
  between_unit_fmul (isFinite_of_between isFinite_fZero isFinite_fOne hfrac) (abs_le_one_of_between hfrac)
    isFinite_i2f_42 (between_tapDifference ha hb)

/-- The words, their difference and the share taken of it are good operands (R12). -/
theorem isFinite_blendOperands :
    isFinite a = true ∧ isFinite b = true ∧ isFinite (fsub b a) = true ∧ isFinite (fmul frac (fsub b a)) = true :=
  ⟨isFinite_of_between_fneg isFinite_i2f_21 ha, isFinite_of_between_fneg isFinite_i2f_21 hb,
    isFinite_of_between_fneg isFinite_i2f_42 (between_tapDifference ha hb),
    isFinite_of_between_fneg isFinite_i2f_42 (between_fractionShare hfrac ha hb)⟩

theorem isFinite_interpolate : isFinite (interpolate frac a b) = true := by
  have h : between (fneg (i2f 63)) (fadd a (fmul frac (fsub b a))) (i2f 63) = true :=
    between_fneg_fadd isFinite_i2f_21 isFinite_i2f_63 ha isFinite_i2f_42 (between_fractionShare hfrac ha hb)
      (by rw [value_i2f_21, value_i2f_42, value_i2f_63]; norm_num)
  exact isFinite_of_between_fneg isFinite_i2f_63 h

/-- Before the last rounding the blend leaves the bound of the two words by the rounding of their difference, that of the
share and its underflow. -/
theorem abs_unroundedBlend_le {M : Int} (haM : |value a| ≤ M) (hbM : |value b| ≤ M) :
    2 ^ 24 * |value a + value (fmul frac (fsub b a))| ≤ 2 ^ 24 * M + 2 * |value (fsub b a)| + 2 ^ 23 := by
  obtain ⟨haf, hbf, hdf, hsf⟩ := isFinite_blendOperands hfrac ha hb
  have hdiff := fsub_error_relative hbf haf hdf
  have hshare := fmul_error (isFinite_of_between isFinite_fZero isFinite_fOne hfrac) hdf hsf
  obtain ⟨-, h0, h1⟩ := (between_iff _ _ _).1 hfrac
  rw [value_fZero] at h0
  rw [value_fOne] at h1
  have hblend := abs_blend_le h0 h1 haM hbM
  set s := value (fmul frac (fsub b a))
  set d := value (fsub b a)
  set u := value frac
  rw [abs_mul, abs_of_nonneg h0] at hshare
  have hscale : |value a + s| * 2 ^ 149 ≤
      M * 2 ^ 149 + u * |d - (value b - value a)| + |s * 2 ^ 149 - u * d| :=
    calc |value a + s| * 2 ^ 149 = |(value a + s) * 2 ^ 149| := by
          rw [abs_mul, abs_of_pos (by positivity : (0 : Int) < 2 ^ 149)]
      _ = |value a * 2 ^ 149 + u * (value b - value a) + u * (d - (value b - value a)) + (s * 2 ^ 149 - u * d)| := by
        congr 1; ring
      _ ≤ |value a * 2 ^ 149 + u * (value b - value a)| + |u * (d - (value b - value a))| + |s * 2 ^ 149 - u * d| :=
        abs_add_three _ _ _
      _ ≤ _ := by rw [abs_mul u, abs_of_nonneg h0]; gcongr
  have hd : u * |d| ≤ 2 ^ 149 * |d| := mul_le_mul_of_nonneg_right h1 (abs_nonneg _)
  have hdd : u * |d - (value b - value a)| ≤ 2 ^ 149 * |d - (value b - value a)| :=
    mul_le_mul_of_nonneg_right h1 (abs_nonneg _)
  omega

theorem abs_value_interpolate_le {M : Int} (haM : |value a| ≤ M) (hbM : |value b| ≤ M) :
    2 ^ 21 * |value (interpolate frac a b)| ≤ (2 ^ 21 + 1) * M + 2 ^ 21 := by
  obtain ⟨haf, hbf, hdf, hsf⟩ := isFinite_blendOperands hfrac ha hb
  have hway : |value b - value a| ≤ |value b| + |value a| := abs_sub _ _
  have hdiff := abs_le_of_relative_error (fsub_error_relative hbf haf hdf)
  have hblend := abs_unroundedBlend_le hfrac ha hb haM hbM
  have hsum := abs_le_of_relative_error (fadd_error_relative haf hsf (isFinite_interpolate hfrac ha hb))
  have hM : 0 ≤ M := (abs_nonneg _).trans haM
  unfold interpolate
  omega

/-- Zeros are blended without a rounding. -/
theorem value_interpolate_of_zeros (ha0 : value a = 0) (hb0 : value b = 0) : value (interpolate frac a b) = 0 := by
  obtain ⟨haf, hbf, hdf, hsf⟩ := isFinite_blendOperands hfrac ha hb
  have hz := not_isNaN_of_isFinite isFinite_fZero
  have hdiff := fsub_exact hbf haf hz (by rw [ha0, hb0, value_fZero, sub_zero])
  have hshare := fmul_exact (isFinite_of_between isFinite_fZero isFinite_fOne hfrac) hdf hz
    (by rw [hdiff, value_fZero, mul_zero, zero_mul])
  exact (fadd_exact haf hsf hz (by rw [hshare, ha0, zero_add])).trans value_fZero

end Blend

theorem isZero_iff_value (a : F32) : isZero a = true ↔ value a = 0 := by
  rw [isZero, decide_eq_true_eq, ← natAbs_value_eq_magnitude, Int.natAbs_eq_zero]

/-- A finite number of magnitude at most `M`, itself at most 21, lies between -21 and 21. -/
theorem between_of_abs_le {v : F32} {M : Int} (hv : isFinite v = true) (h : |value v| ≤ M)
    (hM : M ≤ 21 * ((2 ^ 149 : Nat) : Int)) : between (fneg (i2f 21)) v (i2f 21) = true := by
  rw [between_fneg_iff, value_i2f_21]
  exact ⟨not_isNaN_of_isFinite hv, h.trans (by exact_mod_cast hM)⟩

/-- Settles O53: the blend is convex in exact arithmetic, its three roundings add less than `M * 2^-21`, and only the product
can underflow. -/
theorem interpolationBounded : Obligations.InterpolationBounded := by
  intro frac a b M hff h0 h1 haf hbf haM hbM hM
  have hfrac : between fZero frac fOne = true :=
    between_of_bounds (not_isNaN_of_isFinite hff) (value_fZero.trans_le h0) h1.le
  have ha := between_of_abs_le haf haM hM
  have hb := between_of_abs_le hbf hbM hM
  refine ⟨isFinite_interpolate hfrac ha hb, abs_value_interpolate_le hfrac ha hb haM hbM, fun ha0 hb0 => ?_⟩
  rw [isZero_iff_value] at ha0 hb0 ⊢
  exact value_interpolate_of_zeros hfrac ha hb ha0 hb0

end Sys2Proof.Proofs
end

section
/-! PROOFS. The seven configuration commands (spec/43_config_commands.md R120 to R128): what each answers in every engine state,
and the whole state it leaves where it completes. -/

namespace Sys2Proof.Proofs

open Sys2Proof.Machine Sys2Proof.Laws

/-! ### The ends of `clamp` (R3) -/

section Clamp

variable {v lo hi : F32} (hv : isNaN v = false) (hlo : isNaN lo = false) (hhi : isNaN hi = false)

include hv hlo hhi

/-- At or below a lower bound that lies under the upper one, `clamp` answers the lower bound itself, sign of zero included. -/
theorem clamp_of_le_lower (h : value v ≤ value lo) (hlt : value lo < value hi) : clamp v lo hi = lo := by
  rw [clamp, fmax_eq hv hlo, if_neg (not_lt.2 h), fmin_eq hlo hhi, if_pos hlt]

/-- At or above the upper bound, `clamp` answers the upper bound itself. -/
theorem clamp_of_upper_le (h : value hi ≤ value v) : clamp v lo hi = hi := by
  have hmax : value hi ≤ value (fmax v lo) := (value_fmax hv hlo).symm ▸ le_max_of_le_left h
  rw [clamp, fmin_eq (isNaN_fmax hv hlo) hhi, if_neg (not_lt.2 hmax)]

end Clamp

/-! ### Retargeting the live channels (R92) -/

theorem retargeted_rampSetTarget (cfg : Config) (mode : RampMode) (v : F32) (r : Ramp) :
    Retargeted cfg mode v r (rampSetTarget cfg mode r v) := by
  rcases rampSetTarget_cases cfg mode r v with ⟨hv, e⟩ | ⟨hv, hN, e⟩ | ⟨hv, hN, e⟩ <;> rw [e]
  · exact ⟨fun _ => rfl, by simp [hv], by simp [hv]⟩
  · exact ⟨by simp [hv], fun _ _ => ⟨rfl, rfl, rfl, hN, rfl⟩, by simp [hN]⟩
  · refine ⟨by simp [hv], fun _ h0 => absurd h0 hN.ne', fun _ _ => ⟨rfl, rfl, rfl, rfl, ?_, ?_⟩⟩
    · rintro rfl; rfl
    · rintro rfl; rfl

theorem getElem?_mapFirst_of_lt {n c : Nat} (h : c < n) {f : Channel → Channel} {cs : List Channel} {r : Channel}
    (hr : cs[c]? = some r) : (mapFirst n f cs)[c]? = some (f r) := by
  rw [getElem?_mapFirst, if_pos h, hr, Option.map_some]

/-- New registers and `f` on the record of every live channel: `P` from the old to the new record of each, and everything else
as it was. -/
theorem withRegs_mapLive_result (s : State) {cr : Regs} (hnch : cr.nch = s.cr.nch) {f : Channel → Channel}
    {P : Channel → Channel → Prop} (hf : ∀ r, P r (f r)) :
    let t := (s.withRegs cr).mapLive f
    OnlyRegsAndChannels s t ∧ t.cs.length = s.cs.length ∧ t.cr = cr ∧
    (∀ c r, s.cs[c]? = some r → c < s.cr.nch → ∃ r', t.cs[c]? = some r' ∧ P r r') ∧
    (∀ c, s.cr.nch ≤ c → t.cs[c]? = s.cs[c]?) := by
  refine ⟨⟨⟨rfl, rfl, rfl, rfl, rfl⟩, rfl, rfl, rfl⟩, length_mapFirst _ _ _, rfl, fun c r hr hc => ⟨f r, ?_, hf r⟩,
    fun c hc => getElem?_mapFirst_of_le (hnch ▸ hc)⟩
  exact getElem?_mapFirst_of_lt (hnch ▸ hc) hr

/-! ### The `SET_*` commands (R123 to R130) -/

/-- The answers of a `SET_*` command with operand `v` and state write `k`, in every engine state (R129, R130). -/
theorem setCommand_answers (s k : State) (v : F32) :
    (s.engine = .faulted → requirePrepared s (.next (checkValue v s k)) = .next s) ∧
    (s.engine = .unprepared → requirePrepared s (.next (checkValue v s k)) = .next (s.raise .notPrepared)) ∧
    (s.engine = .prepared → isNaN v = true →
      requirePrepared s (.next (checkValue v s k)) = .next (s.raise .badValue)) ∧
    (s.engine = .prepared → isNaN v = false → requirePrepared s (.next (checkValue v s k)) = .next k) :=
  ⟨fun he => requirePrepared_of_faulted he _, fun he => requirePrepared_of_unprepared he _,
    fun he hv => by rw [requirePrepared_of_prepared he, checkValue_of_nan hv],
    fun he hv => by rw [requirePrepared_of_prepared he, checkValue_of_not_nan hv]⟩

/-- Settles O23: the only write is that of `CR.DELAY_MS` and `CR.CENTER`, and the clamp answers its bounds at the ends. -/
theorem setDelayTimeMsResult : Obligations.SetDelayTimeMsResult := by
  intro s v
  obtain ⟨hfaulted, hunprepared, hnan, hnumber⟩ := setCommand_answers s
    (s.withRegs (deriveCenter { s.cr with delayMs := clamp v fZero fThousand })) v
  refine ⟨hfaulted, hunprepared, hnan, hnumber, fun hv h => ?_, fun hv h => ?_⟩
  · exact clamp_of_le_lower hv (by decide) (by decide) (h.trans value_fZero.ge) (by simp)
  · exact clamp_of_upper_le hv (by decide) (by decide) h

/-- Settles O24: the mix ramp of every live channel is retargeted to the clamped operand. -/
theorem setMixResult : Obligations.SetMixResult := by
  intro s v
  obtain ⟨hfaulted, hunprepared, hnan, hnumber⟩ := setCommand_answers s _ v
  refine ⟨hfaulted, hunprepared, hnan, fun he hv => ⟨_, hnumber he hv, ?_⟩, fun hv h => ?_⟩
  · exact withRegs_mapLive_result s (by rfl) fun r => ⟨retargeted_rampSetTarget _ _ _ r.mix, rfl⟩
  · exact clamp_of_upper_le hv (by decide) (by decide) h

/-- Settles O25: the feedback ramp of every live channel is retargeted to the clamped operand, whose bound lies below 1. -/
theorem setFeedbackResult : Obligations.SetFeedbackResult := by
  intro s v
  obtain ⟨hfaulted, hunprepared, hnan, hnumber⟩ := setCommand_answers s _ v
  refine ⟨hfaulted, hunprepared, hnan, fun he hv => ⟨_, hnumber he hv, ?_⟩, fun hv h => ?_⟩
  · exact withRegs_mapLive_result s (by rfl) fun r => ⟨retargeted_rampSetTarget _ _ _ r.fb, rfl⟩
  · have hbound : value fbMax ≤ value fOne := by rw [value_fbMax, value_fOne]; norm_num
    exact clamp_of_upper_le hv (by decide) (by decide) (hbound.trans h)

/-- Settles O26: the rate ramp of every live channel is retargeted to the clamped operand, whose lower bound is positive. -/
theorem setLfoRateHzResult : Obligations.SetLfoRateHzResult := by
  intro s v hcfg
  obtain ⟨hfaulted, hunprepared, hnan, hnumber⟩ := setCommand_answers s _ v
  refine ⟨hfaulted, hunprepared, hnan, fun he hv => ⟨_, hnumber he hv, ?_⟩, fun hv h => ?_⟩
  · exact withRegs_mapLive_result s (by rfl) fun r => ⟨retargeted_rampSetTarget _ _ _ r.rate, rfl⟩
  · obtain ⟨-, -, -, hminf, hpos, hmin10⟩ := (legal_iff _).1 hcfg
    rw [value_clamp hv (not_isNaN_of_isFinite hminf) (by decide), max_eq_right (h.trans hpos.le), min_eq_left hmin10]

/-- Settles O27: the only write is that of `CR.DEPTH_MS` and `CR.DEPTH`. -/
theorem setLfoDepthMsResult : Obligations.SetLfoDepthMsResult := by
  intro s v
  obtain ⟨hfaulted, hunprepared, hnan, hnumber⟩ := setCommand_answers s
    (s.withRegs (deriveDepth { s.cr with depthMs := clamp v fZero fTen })) v
  exact ⟨hfaulted, hunprepared, hnan, hnumber, fun hv h => clamp_of_upper_le hv (by decide) (by decide) h⟩

/-! ### The start state and the zero fill (R110, R114, R122) -/

/-- `channel_init` gives the start state, whatever record was there (R122). -/
theorem channelStarted_channelInit (cfg : Config) (cr : Regs) (r : Channel) :
    ChannelStarted cfg cr (channelInit cfg cr r) :=
  have hsettled (v t : F32) (r : Ramp) : SettledOn (rampInit cr.sr32 v t r) v (rampLength t cr.sr32) :=
    ⟨rfl, rfl, rfl, rfl⟩
  ⟨rfl, rfl, rfl, hsettled _ _ _, hsettled _ _ _, hsettled _ _ _, hsettled _ _ _, rfl⟩

/-- `channel_init` reads nothing of the record but the ramps' `step` fields, which it leaves (log 9). -/
theorem sameButSteps_channelInit (cfg : Config) (cr : Regs) (r r' : Channel) :
    SameButSteps (channelInit cfg cr r) (channelInit cfg cr r') :=
  have hramp (sr v t : F32) (r r' : Ramp) : SameRampButStep (rampInit sr v t r) (rampInit sr v t r') :=
    ⟨rfl, rfl, rfl, rfl⟩
  ⟨rfl, rfl, rfl, rfl, hramp _ _ _ _ _, hramp _ _ _ _ _, hramp _ _ _ _ _, hramp _ _ _ _ _⟩

theorem sameButSteps_refl (r : Channel) : SameButSteps r r :=
  have hramp (r : Ramp) : SameRampButStep r r := ⟨rfl, rfl, rfl, rfl⟩
  ⟨rfl, rfl, rfl, rfl, hramp _, hramp _, hramp _, hramp _⟩

/-- `channel_init` on every live channel starts these and touches no other (R120, R121). -/
theorem startChannels_result (cfg : Config) (cr : Regs) {n : Nat} {cs : List Channel} (h : n ≤ cs.length) :
    (mapFirst n (channelInit cfg cr) cs).length = cs.length ∧
    AllRecords n (ChannelStarted cfg cr) (mapFirst n (channelInit cfg cr) cs) ∧
    (∀ c, n ≤ c → (mapFirst n (channelInit cfg cr) cs)[c]? = cs[c]?) :=
  ⟨length_mapFirst _ _ _, (allRecords_of_length h).mapFirst fun r _ => channelStarted_channelInit cfg cr r,
    fun _ hc => getElem?_mapFirst_of_le hc⟩

theorem zeroFilled_zeroFill {cap : Nat} (hcap : cap ≤ 2 ^ 24) (nch : Nat) (m : Memory) :
    ZeroFilled cap nch m (Memory.zeroFill cap nch m) :=
  fun _ _ hi => Memory.read_zeroFill hcap nch m hi

/-- A second zero fill of the same words leaves the same data. -/
theorem zeroFill_zeroFill {cap : Nat} (hcap : cap ≤ 2 ^ 24) (nch : Nat) {m : Memory} (hm : Memory.wf m = true) :
    Memory.zeroFill cap nch (Memory.zeroFill cap nch m) = Memory.zeroFill cap nch m := by
  have hfill := Memory.wf_zeroFill cap nch hm
  refine Memory.ext (Memory.wf_zeroFill cap nch hfill) hfill fun a => ?_
  obtain ⟨c, i, hi, rfl⟩ := Memory.exists_loc a
  rw [Memory.read_zeroFill hcap nch _ hi, Memory.read_zeroFill hcap nch m hi]
  split <;> rfl

/-! ### `PREPARE` and `RESET` (R120, R121, R163) -/

theorem execPrepare_of_ok {s : State} {sr : F64} {ch : Int} (he : s.engine ≠ .faulted)
    (ok : prepareOperandsOk s.cfg sr ch = true) (block : Int) :
    execPrepare sr block ch s = .next (s.configure (d2f sr) (dceil sr).toNat ch.toNat) := by
  rw [execPrepare, if_neg he, if_pos ok]

theorem execPrepare_of_violation {s : State} {sr : F64} {ch : Int} (he : s.engine ≠ .faulted)
    (ok : ¬ prepareOperandsOk s.cfg sr ch = true) (block : Int) :
    execPrepare sr block ch s = .next (s.raise .badConfig) := by
  rw [execPrepare, if_neg he, if_neg ok]

/-- The registers after `PREPARE`, with the capacity as the integer it was decoded to (R120, R128). -/
theorem configuredRegs_eq (cr : Regs) (sr : F32) {cap : Int} (h : 0 ≤ cap) (nch : Nat) :
    State.configuredRegs sr cap.toNat nch cr = { cr with
      sr32 := sr, cap := cap.toNat, nch := nch,
      center := fmin (fdiv (fmul cr.delayMs sr) fThousand) (i2f cap)
      depth := fdiv (fmul cr.depthMs sr) fThousand } := by
  have hcenter : (State.configuredRegs sr cap.toNat nch cr).center =
      fmin (fdiv (fmul cr.delayMs sr) fThousand) (i2f cap) := by
    rw [State.configuredRegs_center, Int.toNat_of_nonneg h]; rfl
  rw [← hcenter]; rfl

/-- What the writes of a valid `PREPARE` leave (R120, R181). -/
theorem configure_result (s : State) (sr : F32) {cap nch : Nat} (hcap : cap ≤ 2 ^ 24) (hnch : nch ≤ s.cs.length) :
    let t := s.configure sr cap nch
    t.engine = .prepared ∧ t.faultCause = s.faultCause ∧ SamePorts s t ∧ t.cr = State.configuredRegs sr cap nch s.cr ∧
    ZeroFilled t.cr.cap t.cr.nch s.ram t.ram ∧ t.cs.length = s.cs.length ∧
    AllRecords t.cr.nch (ChannelStarted s.cfg t.cr) t.cs ∧ (∀ c, t.cr.nch ≤ c → t.cs[c]? = s.cs[c]?) :=
  ⟨rfl, rfl, ⟨rfl, rfl, rfl, rfl, rfl⟩, rfl, zeroFilled_zeroFill hcap nch s.ram, startChannels_result s.cfg _ hnch⟩

/-- Settles O20: the operand check decides between the violation and the writes of `State.configure`. -/
theorem prepareResult : Obligations.PrepareResult := by
  intro s sr block ch hcfg hlen
  refine ⟨fun he => exec_of_faulted he _, fun he hbad => ?_, fun he hf h2 hmax h1 hch => ?_⟩
  · refine execPrepare_of_violation he (fun ok => ?_) block
    obtain ⟨hf, hcap, hch⟩ := (prepareOperandsOk_iff _ _ _).1 ok
    rw [hf] at hbad
    simp only [Bool.true_eq_false, false_or] at hbad
    omega
  · have ok := (prepareOperandsOk_iff s.cfg sr ch).2 ⟨hf, ⟨h2, hmax⟩, h1, hch⟩
    have hregs := configuredRegs_eq s.cr (d2f sr) (cap := dceil sr) (by omega) ch.toNat
    obtain ⟨hengine, hcause, hports, hcr, hrest⟩ := configure_result s (d2f sr)
      (show (dceil sr).toNat ≤ 2 ^ 24 by have := capMax_le hcfg; omega) (show ch.toNat ≤ s.cs.length by omega)
    exact ⟨_, execPrepare_of_ok he ok block, hengine, hcause, hports, hcr.trans hregs, hrest⟩

/-- `RESET` in a prepared engine (R121). -/
theorem execReset_of_prepared {s : State} (he : s.engine = .prepared) : execReset s = .next s.restart :=
  requirePrepared_of_prepared he _

/-- `RESET` writes channel records and RAM only (R121). -/
theorem restart_frame (s : State) : s.restart.engine = s.engine ∧ s.restart.faultCause = s.faultCause ∧
    SamePorts s s.restart ∧ s.restart.cr = s.cr ∧ s.restart.cs.length = s.cs.length :=
  ⟨rfl, rfl, ⟨rfl, rfl, rfl, rfl, rfl⟩, rfl, length_mapFirst _ _ _⟩

/-- Settles O21: in a prepared engine `RESET` makes the writes of `State.restart`. -/
theorem resetResult : Obligations.ResetResult := by
  intro s hcap hnch
  refine ⟨fun he => exec_of_faulted he _, fun he => requirePrepared_of_unprepared he _, fun he => ?_⟩
  obtain ⟨hengine, hcause, hports, hcr, -⟩ := restart_frame s
  exact ⟨s.restart, execReset_of_prepared he, hengine.trans he, hcause, hports, hcr, zeroFilled_zeroFill hcap _ _,
    startChannels_result s.cfg s.cr hnch⟩

/-- The zero fill of `RESET` finds the words as the one of `PREPARE` left them. -/
theorem restart_configure_ram {s : State} (hwf : Memory.wf s.ram = true) (sr : F32) {cap : Nat} (hcap : cap ≤ 2 ^ 24)
    (nch : Nat) : (s.configure sr cap nch).restart.ram = (s.configure sr cap nch).ram :=
  zeroFill_zeroFill hcap nch hwf

/-- The `channel_init` of `RESET` finds the records as the one of `PREPARE` left them. -/
theorem restart_configure_channel (s : State) (sr : F32) (cap nch : Nat) {c : Nat} {r : Channel}
    (hr : (s.configure sr cap nch).cs[c]? = some r) :
    ∃ r', (s.configure sr cap nch).restart.cs[c]? = some r' ∧ SameButSteps r r' := by
  by_cases hc : c < nch
  · refine ⟨_, getElem?_mapFirst_of_lt hc hr, ?_⟩
    rw [State.configure_cs, getElem?_mapFirst, if_pos hc, Option.map_eq_some_iff] at hr
    obtain ⟨r₀, -, rfl⟩ := hr
    exact sameButSteps_channelInit s.cfg _ r₀ _
  · exact ⟨r, (getElem?_mapFirst_of_le (Nat.not_lt.1 hc)).trans hr, sameButSteps_refl r⟩

/-- Settles O22: `RESET` repeats the zero fill and the `channel_init` of `PREPARE` with the registers of `PREPARE`, and
repeating them leaves the same. -/
theorem resetAfterPrepareChangesNothing : Obligations.ResetAfterPrepareChangesNothing := by
  intro s t sr block ch hcfg _ hwf h ht
  rcases execPrepare_cases (block := block) h with ⟨he, rfl⟩ | ⟨-, ok, rfl⟩ | ⟨-, -, rfl⟩
  · simp [he] at ht
  · obtain ⟨-, hcap, -⟩ := (prepareOperandsOk_iff _ _ _).1 ok
    have hram := restart_configure_ram hwf (d2f sr) (cap := (dceil sr).toNat)
      (by have := capMax_le hcfg; omega) ch.toNat
    obtain ⟨hengine, hcause, hports, hcr, hlength⟩ := restart_frame (s.configure (d2f sr) (dceil sr).toNat ch.toNat)
    exact ⟨_, execReset_of_prepared ht, hengine, hcause, hcr, hram, hports, hlength,
      fun c r hr => restart_configure_channel s _ _ _ hr⟩
  · simp at ht

end Sys2Proof.Proofs
end

section
/-! PROOFS. One sample time (spec/44_process_sample.md R140 to R151, R153, R156, R157): what `PROCESS_SAMPLE` answers in every
engine state, what it reads and leaves, and its response where a ramp has settled on an end of its range. -/

namespace Sys2Proof.Proofs

open Sys2Proof.Machine Sys2Proof.Laws

/-! ### The checks and the nine steps (R140) -/

/-- The violations of `PROCESS_SAMPLE` in a prepared engine, channel before input (R164, R165, R167). -/
theorem exec_processSample_violation {s : State} (he : s.engine = .prepared) {ch : Int} {x : F32} {cause : Cause}
    (h : commandViolation s (.processSample ch x) = some cause) : exec (.processSample ch x) s = .next (s.raise cause) := by
  rw [processSample_violation he] at h
  change requirePrepared s _ = _
  rw [requirePrepared_of_prepared he]
  split at h
  · rename_i hch
    rw [if_pos hch]
    split at h
    · cases h
    · rename_i hx
      cases h
      exact if_neg hx
  · rename_i hch
    cases h
    exact if_neg hch

/-- The taps of a delayed read, found by their indices modulo the capacity (R52, R113). -/
theorem bufReadInterpolated_of_taps {cap c i0 i1 : Nat} {m : Memory} {p a b : F32} (hcap : 0 < cap)
    (hi0 : (i0 : Int) = f2i (ffloor p) % (cap : Int)) (hi1 : i1 = (i0 + 1) % cap)
    (ha : Memory.read m (loc c i0) = some a) (hb : Memory.read m (loc c i1) = some b) :
    bufReadInterpolated cap m c p = some (interpolate (fsub p (ffloor p)) a b) := by
  have htap : tapIndex cap p = i0 := by rw [tapIndex, wrapIndex, ← hi0, Int.toNat_natCast]
  have hlt : i0 < cap := htap ▸ wrapIndex_lt hcap _
  have hnext : wrapIndex cap ((i0 : Int) + 1) = i1 := by
    rw [wrapIndex, hi1, ← Int.toNat_natCast ((i0 + 1) % cap), Int.natCast_emod, Nat.cast_add, Nat.cast_one]
  refine bufReadInterpolated_eq_some.2 ⟨a, b, ?_, ?_, rfl⟩ <;> rw [htap, bufRead]
  · rwa [wrapIndex_of_lt hlt]
  · rwa [hnext]

/-- A record and a response are those of one sample time by definition of the nine steps (R141 to R149). -/
theorem sampleStep_advanceChannel (cfg : Config) (cr : Regs) (r : Channel) (x d : F32) :
    SampleStep cfg cr r (advanceChannel cfg cr r) x d (response (advanceChannel cfg cr r) x d) :=
  ⟨rfl, rfl, rfl, rfl, rfl, rfl, rfl, rfl, rfl⟩

theorem getElem?_set_of_some {cs : List Channel} {c : Nat} {r : Channel} (hr : cs[c]? = some r) (r' : Channel) :
    (cs.set c r')[c]? = some r' := List.getElem?_set_self (List.getElem?_eq_some_iff.1 hr).1

/-- Settles O29: the checks in their order, then the taps found by their indices give the delayed sample of the one sample
time. -/
theorem processSampleResult : Obligations.ProcessSampleResult := by
  intro s ch x
  refine ⟨fun he => exec_of_faulted he _, fun he => requirePrepared_of_unprepared he _, fun he hch => ?_,
    fun he h0 h1 hx => ?_, fun c i0 i1 r a b he hch hc hxf hx0 hx1 hcap hr hi0 hi1 ha hb => ?_⟩
  · exact exec_processSample_violation (cause := .badChannel) he (by simp [commandViolation, operandViolation, he, hch])
  · have hch : ¬ (ch < 0 ∨ (s.cr.nch : Int) ≤ ch) := by omega
    exact exec_processSample_violation (cause := .badInput) he
      (by simp only [commandViolation, operandViolation, he, reduceCtorEq, if_false, if_neg hch, if_pos hx])
  · subst hch
    have hd := bufReadInterpolated_of_taps hcap hi0 hi1 ha hb
    have hrun := exec_processSample he hc ((inputInRange_iff x).2 ⟨hxf, hx0, hx1⟩) hr hd
    refine ⟨_, advanceChannel s.cfg s.cr r, _, hrun, sampleStep_advanceChannel s.cfg s.cr r x _, rfl,
      getElem?_set_of_some hr _, List.length_set, fun c' hne => List.getElem?_set_ne hne.symm, fun k => ?_, rfl, he, rfl,
      rfl, rfl, rfl, rfl⟩
    rw [sampleTime_ram, bufWrite, Memory.read_write]
    rfl

/-! ### A sample time in a state of the invariant -/

/-- A `PROCESS_SAMPLE` whose operands are in range, in a prepared state of the invariant, with the record and the delayed
sample it finds (R140, R141). -/
structure Sampling (s : State) (c : Nat) (x : F32) (r : Channel) (d : F32) : Prop where
  inv : Inv s
  engine : s.engine = .prepared
  live : c < s.cr.nch
  input : inputInRange x = true
  record : s.cs[c]? = some r
  delayed : bufReadInterpolated s.cr.cap s.ram c r.rp = some d

/-- Every `PROCESS_SAMPLE` with operands in range is one (R140: once the checks pass the command cannot fail). -/
theorem exists_sampling {s : State} {c : Nat} {x : F32} (hs : Inv s) (he : s.engine = .prepared) (hc : c < s.cr.nch)
    (hx : inputInRange x = true) : ∃ r d, Sampling s c x r d := by
  obtain ⟨r, d, hr, hd⟩ := exists_record_and_delayed (hs.live (hs.prepared he)) hc
  exact ⟨r, d, hs, he, hc, hx, hr, hd⟩

/-- The same with the record given. -/
theorem exists_sampling_of_record {s : State} {c : Nat} {x : F32} {r : Channel} (hs : Inv s) (he : s.engine = .prepared)
    (hc : c < s.cr.nch) (hx : inputInRange x = true) (hr : s.cs[c]? = some r) : ∃ d, Sampling s c x r d := by
  obtain ⟨r', d, h⟩ := exists_sampling hs he hc hx
  obtain rfl : r' = r := Option.some.inj (h.record.symm.trans hr)
  exact ⟨d, h⟩

namespace Sampling

variable {s : State} {c : Nat} {x d : F32} {r : Channel} (h : Sampling s c x r d)

include h

theorem prepared : PreparedOk s := h.inv.live (h.inv.prepared h.engine)

theorem rates : RatesOk s.cr.sr32 s.cr.cap := ratesOk_of_prepared h.inv h.prepared

theorem cap_pos : 0 < s.cr.cap := by have := h.rates.cap_ge; omega

theorem channelOk : ChannelOk s.cfg s.cr r := channelOk_of_inv h.inv h.live h.record

theorem between_input : between (fneg fOne) x fOne = true := by
  obtain ⟨hf, h0, h1⟩ := (inputInRange_iff x).1 h.input
  exact between_of_bounds (not_isNaN_of_isFinite hf) (by rwa [value_fneg, value_fOne, ← value_fNegOne]) h1

/-- The command completes with its one sample time. -/
theorem exec_eq : exec (.processSample c x) s = .next (sampleTime c x r d s) :=
  exec_processSample h.engine h.live h.input h.record h.delayed

/-- The two words the delayed sample is read from, and every operand computed from them (R12). -/
theorem taps : ∃ a b, bufRead s.cr.cap s.ram c (tapIndex s.cr.cap r.rp) = some a ∧
    bufRead s.cr.cap s.ram c ((tapIndex s.cr.cap r.rp : Int) + 1) = some b ∧ wordOk a = true ∧ wordOk b = true ∧
    d = interpolate (fsub r.rp (ffloor r.rp)) a b ∧ SampleOperands s.cfg s.cr r x a b := by
  obtain ⟨a, b, ha, hb, hd⟩ := bufReadInterpolated_eq_some.1 h.delayed
  have haok := wordOk_of_bufRead h.prepared h.live ha
  have hbok := wordOk_of_bufRead h.prepared h.live hb
  exact ⟨a, b, ha, hb, haok, hbok, hd,
    sampleOperands h.inv.cfg.legal h.rates h.inv.control h.channelOk h.between_input haok hbok⟩

theorem isFinite_rp : isFinite r.rp = true :=
  isFinite_of_between isFinite_fZero h.rates.isFinite_cap h.channelOk.rp

theorem mixOperands : MixOperands (rampNext .lin r.mix).cur x d := by
  obtain ⟨a, b, -, -, -, -, rfl, -, -, -, -, -, -, -, -, -, -, -, hmix⟩ := h.taps
  exact hmix

/-- The operands of the word written (R142). -/
theorem writeOperands : FiniteOperands d (rampNext .lin r.fb).cur ∧ FiniteOperands x (fmul d (rampNext .lin r.fb).cur) := by
  obtain ⟨a, b, -, -, -, -, rfl, -, -, hprod, hsum, -⟩ := h.taps
  exact ⟨hprod, hsum⟩

/-- The state in which the next command finds the block keeps the invariant. -/
theorem inv_sampleTaken : Inv (sampleTaken c x r d s) := by
  have hch : channelInRange s.cr.nch c = true :=
    (channelInRange_iff _ _).2 ⟨Int.natCast_nonneg c, Int.ofNat_lt.2 h.live⟩
  have hdone : Completed (.processSample c x) s (sampleTime c x r d s) :=
    .processSample h.engine hch h.input h.record h.delayed
  exact inv_ports (inv_completed (by rw [h.engine]; decide) h.inv hdone) _ none _

/-- What the words of the channel read as after the sample time (R142, R52). -/
theorem bufRead_sampleTaken (k : Int) : bufRead s.cr.cap (sampleTaken c x r d s).ram c k =
    if k % (s.cr.cap : Int) = (r.w : Int) % (s.cr.cap : Int) then some (writeValue x d (rampNext .lin r.fb).cur)
    else bufRead s.cr.cap s.ram c k := by
  have hread := bufferReadAfterWrite s.cr.cap c c s.ram r.w k (writeValue x d (rampNext .lin r.fb).cur) h.cap_pos
    h.rates.cap_le
  simp only [true_and] at hread
  exact hread

theorem record_sampleTaken : (sampleTaken c x r d s).cs[c]? = some (advanceChannel s.cfg s.cr r) :=
  getElem?_set_of_some h.record _

end Sampling

/-! ### No command stops (R140, R195) -/

theorem requirePrepared_answers (s k : State) : ∃ t, requirePrepared s (.next k) = .next t := by
  unfold requirePrepared
  split <;> exact ⟨_, rfl⟩

/-- In a state of the invariant every command answers a next state: of the nine steps alone a fault could come, and they find
their record and their words. -/
theorem exec_answers {s : State} (hs : Inv s) (i : Instr) : ∃ t, exec i s = .next t := by
  cases i with
  | prepare sr block ch =>
    change ∃ t, execPrepare sr block ch s = .next t
    unfold execPrepare
    split_ifs <;> exact ⟨_, rfl⟩
  | reset | setDelayTimeMs | setMix | setFeedback | setLfoRateHz | setLfoDepthMs => exact requirePrepared_answers s _
  | processSample ch x =>
    cases he : s.engine with
    | faulted => exact ⟨s, exec_of_faulted he _⟩
    | unprepared => exact ⟨_, requirePrepared_of_unprepared he _⟩
    | prepared =>
      cases hv : commandViolation s (.processSample ch x) with
      | some cause => exact ⟨_, exec_processSample_violation he hv⟩
      | none =>
        rw [processSample_violation he] at hv
        split_ifs at hv with hch hx
        obtain ⟨h0, h1⟩ := (channelInRange_iff _ _).1 hch
        lift ch to Nat using h0
        obtain ⟨r, d, h⟩ := exists_sampling hs he (Int.ofNat_lt.1 h1) hx
        exact ⟨_, h.exec_eq⟩

theorem runCommand_answers {s : State} (hs : Inv s) (w : CmdWord) : ∃ t, runCommand w s = .next t := by
  cases hw : decode w with
  | ok i => exact runCommand_of_ok hw s ▸ exec_answers hs i
  | error e => exact ⟨_, runCommand_of_error hw s⟩

/-- Settles O30: a step adds to the commands only ports and hardware reset, which answer a next state. -/
theorem noCommandStops : Obligations.NoCommandStops := by
  intro s hs
  refine ⟨exec_answers hs, ?_⟩
  rcases step_cases s with ⟨-, e⟩ | ⟨p, rest, -, ⟨-, e⟩ | ⟨-, -, -, e⟩ | ⟨-, -, e⟩⟩ <;> rw [e]
  · exact ⟨_, rfl⟩
  · exact ⟨_, rfl⟩
  · exact ⟨_, rfl⟩
  · dsimp only
    split
    · exact runCommand_answers (inv_ports hs _ _ _) _
    · exact ⟨_, rfl⟩

/-! ### One channel alone (R151) -/

/-- A delayed read depends on the addressed words of its channel alone. -/
theorem bufReadInterpolated_congr {cap c : Nat} {m m' : Memory} (hcap : 0 < cap)
    (h : ∀ i, i < cap → Memory.read m' (loc c i) = Memory.read m (loc c i)) (p : F32) :
    bufReadInterpolated cap m' c p = bufReadInterpolated cap m c p := by
  have hread (k : Int) : bufRead cap m' c k = bufRead cap m c k := h _ (wrapIndex_lt hcap k)
  simp only [bufReadInterpolated, hread]

/-- Settles O31: the two states give the same record and the same delayed sample, and the one word and the one record written
are the channel's own. -/
theorem processSampleReadsOwnChannelOnly : Obligations.ProcessSampleReadsOwnChannelOnly := by
  intro s s' c x hs hs' he he' hcfg hcr hc hx hcs hram
  obtain ⟨r, d, h⟩ := exists_sampling hs he hc hx
  have h' : Sampling s' c x r d :=
    ⟨hs', he', hcr ▸ hc, hx, hcs.trans h.record,
      hcr.symm ▸ (bufReadInterpolated_congr h.cap_pos hram r.rp).trans h.delayed⟩
  refine ⟨_, _, h.exec_eq, h'.exec_eq, rfl, ?_, rfl, fun i hi => ?_, fun c' hne => ⟨List.getElem?_set_ne hne.symm, ?_⟩⟩
  · rw [sampleTime_cs, sampleTime_cs, getElem?_set_of_some h'.record, getElem?_set_of_some h.record, hcfg, hcr]
  · simp only [sampleTime_ram, bufWrite, hcr, Memory.read_write, hram i hi]
  · intro i hi
    have hkey : loc c' i ≠ loc c (wrapIndex s.cr.cap r.w) := fun e =>
      hne ((loc_inj hi ((wrapIndex_lt h.cap_pos _).trans_le h.rates.cap_le)).1 e).1
    rw [sampleTime_ram, bufWrite, Memory.read_write, if_neg hkey]

/-! ### The response (R148, R149, R157) -/

theorem between_limit {v : F32} (hv : isNaN v = false) : between fNegOne (limit v) fOne = true :=
  between_clamp hv (by decide) (by decide) (by rw [value_fNegOne, value_fOne]; norm_num)

theorem Sampling.isNaN_mixOut {s : State} {c : Nat} {x d : F32} {r : Channel} (h : Sampling s c x r d) :
    isNaN (mixOut (rampNext .lin r.mix).cur x d) = false := by
  obtain ⟨-, -, -, -, -, -, hn⟩ := h.mixOperands
  exact hn

/-- Settles O33: no NaN reaches the limiter. -/
theorem responsesBounded : Obligations.ResponsesBounded := by
  intro s ch x hs he h0 h1 hx
  lift ch to Nat using h0
  obtain ⟨r, d, h⟩ := exists_sampling hs he (Int.ofNat_lt.1 h1) hx
  have hout := between_limit h.isNaN_mixOut
  exact ⟨_, _, h.exec_eq, rfl, isFinite_of_between isFinite_fNegOne isFinite_fOne hout, lower_of_between hout,
    upper_of_between hout⟩

end Sys2Proof.Proofs
end

section
/-! PROOFS. Laws of `PROCESS_SAMPLE` (spec/44_process_sample.md R153 to R156): zero factors and unit gains pass through the nine
steps without a rounding, which gives the zero depth, the ends of the mix, silence, and the replay of the input by a settled
whole delay. -/

namespace Sys2Proof.Proofs

open Sys2Proof.Machine Sys2Proof.Laws

/-! ### Zero terms and unit factors (R2) -/

section Exact

variable {a b : F32} (ha : isFinite a = true) (hb : isFinite b = true)

include ha hb

theorem value_fmul_of_zero_left (h : value a = 0) : value (fmul a b) = 0 :=
  (fmul_exact ha hb (by decide) (by rw [h, value_fZero, zero_mul, zero_mul])).trans value_fZero

theorem value_fmul_of_zero_right (h : value b = 0) : value (fmul a b) = 0 :=
  (fmul_exact ha hb (by decide) (by rw [h, value_fZero, mul_zero, zero_mul])).trans value_fZero

theorem value_fmul_of_one_left (h : value a = value fOne) : value (fmul a b) = value b :=
  fmul_exact ha hb (not_isNaN_of_isFinite hb) (by rw [h, value_fOne, mul_comm])

theorem value_fadd_of_zero_left (h : value a = 0) : value (fadd a b) = value b :=
  fadd_exact ha hb (not_isNaN_of_isFinite hb) (by rw [h, zero_add])

theorem value_fadd_of_zero_right (h : value b = 0) : value (fadd a b) = value a :=
  fadd_exact ha hb (not_isNaN_of_isFinite ha) (by rw [h, add_zero])

end Exact

/-! ### Zero depth (R153) -/

/-- With depth a zero the target length is the clamped center delay, whatever the oscillator gives. -/
theorem value_targetLength_of_zero_depth {cfg : Config} {cr : Regs} (hc : ControlOk cfg cr) (h : isZero cr.depth = true)
    (r : Channel) : value (targetLength cfg cr r) = value (startLength cr) := by
  obtain ⟨⟨hsin, hdepth⟩, ⟨hcenter, hmod⟩, hsum, hlast⟩ := targetOperands hc r.phase
  have hmod0 := value_fmul_of_zero_right hsin hdepth ((isZero_iff_value _).1 h)
  have hcentern := not_isNaN_of_isFinite hcenter
  unfold targetLength startLength oscOutput
  dsimp only
  rw [value_clamp hsum (by decide) hlast, value_clamp hcentern (by decide) hlast,
    value_fadd_of_zero_right hcenter hmod hmod0]

/-- A retarget to the target's own value changes nothing (R92). -/
theorem rampSetTarget_of_value_eq (cfg : Config) (mode : RampMode) {r : Ramp} {v : F32} (hv : isNaN v = false)
    (ht : isNaN r.tgt = false) (h : value v = value r.tgt) : rampSetTarget cfg mode r v = r :=
  if_pos ((feq_iff hv ht).2 h)

/-- A length ramp that targets the clamped center delay is advanced and not restarted (R145, R153). -/
theorem len_advanceChannel_of_zero_depth {cfg : Config} {cr : Regs} {r : Channel} (hr : RatesOk cr.sr32 cr.cap)
    (hc : ControlOk cfg cr) (hok : ChannelOk cfg cr r) (hdepth : isZero cr.depth = true)
    (htgt : value r.len.tgt = value (startLength cr)) : (advanceChannel cfg cr r).len = rampNext .lin r.len := by
  rw [advanceChannel_len, rampSetTarget_of_value_eq cfg .lin (isNaN_of_between (between_targetLength hr hc r))
    (isNaN_of_between hok.len.tgt) ((value_targetLength_of_zero_depth hc hdepth r).trans htgt.symm)]

/-- Settles O35: the modulation is a zero, so the length ramp is retargeted to its own target. -/
theorem zeroDepthFixesLength : Obligations.ZeroDepthFixesLength := by
  intro s c r x hs he hc hr hx hdepth htgt
  obtain ⟨d, h⟩ := exists_sampling_of_record hs he hc hx hr
  have hlen := len_advanceChannel_of_zero_depth h.rates hs.control h.channelOk hdepth htgt
  exact ⟨_, advanceChannel s.cfg s.cr r, h.exec_eq, getElem?_set_of_some hr _, rfl, hlen,
    fun hrem => hlen.trans (rampNext_of_rem_zero .lin hrem)⟩

/-! ### The ends of the mix (R148, R156) -/

/-- A gain that is a binary32 number is exact. -/
theorem value_gain {y g : F32} (hf : isFinite (fmin fHalf y) = true) (hy : isNaN y = false) (hg : isNaN g = false)
    (h : 2 * min (value fHalf) (value y) = value g) : value (fmul fTwo (fmin fHalf y)) = value g := by
  refine fmul_exact isFinite_fTwo hf hg ?_
  rw [value_fmin (by decide) hy, value_fTwo, ← h]
  ring

section Mix

variable {m x d : F32} (h : MixOperands m x d)

include h

/-- The gains of the input and of the delayed sample where they and `1 - m` are binary32 numbers. -/
theorem value_gains {u dry wet : F32} (hu : isNaN u = false) (hdry : isNaN dry = false) (hwet : isNaN wet = false)
    (hrest : value fOne - value m = value u) (hdryv : 2 * min (value fHalf) (value u) = value dry)
    (hwetv : 2 * min (value fHalf) (value m) = value wet) :
    value (dryGain m) = value dry ∧ value (wetGain m) = value wet := by
  obtain ⟨⟨-, hmf⟩, ⟨-, hdryf⟩, ⟨-, hwetf⟩, -⟩ := h
  have hsub := fsub_exact isFinite_fOne hmf hu hrest
  exact ⟨value_gain hdryf (isNaN_fsub isFinite_fOne hmf) hdry (hsub.symm ▸ hdryv),
    value_gain hwetf (not_isNaN_of_isFinite hmf) hwet hwetv⟩

/-- At mix 0 the dry gain is 1 and the other 0. -/
theorem value_mixOut_of_zero (hm : value m = 0) : value (mixOut m x d) = value x := by
  obtain ⟨hdry1, hwet0⟩ := value_gains h (u := fOne) (dry := fOne) (wet := fZero) (by decide) (by decide) (by decide)
    (by rw [hm, sub_zero]) (by rw [value_fHalf, value_fOne]; norm_num) (by rw [hm, value_fHalf, value_fZero]; norm_num)
  obtain ⟨-, -, -, ⟨hdry, hx⟩, ⟨hwet, hd⟩, ⟨hdx, hwd⟩, -⟩ := h
  exact (value_fadd_of_zero_right hdx hwd (value_fmul_of_zero_left hwet hd (hwet0.trans value_fZero))).trans
    (value_fmul_of_one_left hdry hx hdry1)

/-- At mix 1 the gain of the delayed sample is 1 and the other 0. -/
theorem value_mixOut_of_one (hm : value m = value fOne) : value (mixOut m x d) = value d := by
  obtain ⟨hdry0, hwet1⟩ := value_gains h (u := fZero) (dry := fZero) (wet := fOne) (by decide) (by decide) (by decide)
    (by rw [hm, sub_self, value_fZero]) (by rw [value_fHalf, value_fZero]; norm_num)
    (by rw [hm, value_fHalf, value_fOne]; norm_num)
  obtain ⟨-, -, -, ⟨hdry, hx⟩, ⟨hwet, hd⟩, ⟨hdx, hwd⟩, -⟩ := h
  exact (value_fadd_of_zero_left hdx hwd (value_fmul_of_zero_left hdry hx (hdry0.trans value_fZero))).trans
    (value_fmul_of_one_left hwet hd hwet1)

/-- Two zeros are mixed to a zero at every mix. -/
theorem value_mixOut_of_zeros (hx0 : value x = 0) (hd0 : value d = 0) : value (mixOut m x d) = 0 := by
  obtain ⟨-, -, -, ⟨hdry, hx⟩, ⟨hwet, hd⟩, ⟨hdx, hwd⟩, -⟩ := h
  exact (value_fadd_of_zero_left hdx hwd (value_fmul_of_zero_right hdry hx hx0)).trans
    (value_fmul_of_zero_right hwet hd hd0)

end Mix

/-- A number of `[-1, 1]` passes the limiter (R149). -/
theorem value_limit_of_le_one {v : F32} (hv : isNaN v = false) (h : |value v| ≤ value fOne) :
    value (limit v) = value v := by
  rw [abs_le] at h
  rw [limit, value_clamp hv (by decide) (by decide), value_fNegOne, ← value_fOne]
  omega

/-- The limiter sees values only. -/
theorem value_limit_congr {v u : F32} (hv : isNaN v = false) (hu : isNaN u = false) (h : value v = value u) :
    value (limit v) = value (limit u) := by
  rw [limit, limit, value_clamp hv (by decide) (by decide), value_clamp hu (by decide) (by decide), h]

namespace Sampling

variable {s : State} {c : Nat} {x d : F32} {r : Channel} (h : Sampling s c x r d)

include h

theorem abs_input_le : |value x| ≤ value fOne := ((between_fneg_iff _ _).1 h.between_input).2

theorem isFinite_delayed : isFinite d = true := by
  obtain ⟨-, -, -, -, ⟨-, hd⟩, -⟩ := h.mixOperands
  exact hd

/-- The response at a settled mix of 1. -/
theorem value_response_of_mix_one (hrem : r.mix.rem = 0) (hm : value r.mix.cur = value fOne) :
    value (limit (mixOut (rampNext .lin r.mix).cur x d)) = value (limit d) := by
  have hmix := rampNext_of_rem_zero .lin hrem
  exact value_limit_congr h.isNaN_mixOut (not_isNaN_of_isFinite h.isFinite_delayed)
    (value_mixOut_of_one h.mixOperands (hmix.symm ▸ hm))

end Sampling

/-- Settles O36: a settled mix ramp stays where it is, one gain is 1 and the other 0. -/
theorem mixBoundaries : Obligations.MixBoundaries := by
  intro s c r x d hs he hc hr hx hrem hd
  have h : Sampling s c x r d := ⟨hs, he, hc, hx, hr, hd⟩
  refine ⟨fun hm => ⟨_, _, h.exec_eq, rfl, ?_⟩, fun hm => ⟨_, _, h.exec_eq, rfl, h.value_response_of_mix_one hrem hm⟩⟩
  have hmix := rampNext_of_rem_zero .lin hrem
  have hout := value_mixOut_of_zero h.mixOperands (hmix.symm ▸ hm)
  exact (value_limit_of_le_one h.isNaN_mixOut (hout.symm ▸ h.abs_input_le)).trans hout

/-! ### Runs of samples -/

/-- A run of samples under an invariant `P past s`, where `past` is the inputs so far, newest first: every sample time
completes and gives a response related to its past and its input by `Q`. -/
theorem runSamples_of_kept {c : Nat} {P : List F32 → State → Prop} {Ok : F32 → Prop} {Q : List F32 → F32 → F32 → Prop}
    (hstep : ∀ past s x, P past s → Ok x →
      ∃ t y, exec (.processSample c x) s = .next t ∧ t.rsp = some y ∧ Q past x y ∧ P (x :: past) { t with rsp := none })
    (xs : List F32) {past : List F32} {s : State} (hs : P past s) (hxs : ∀ x ∈ xs, Ok x) :
    ∃ ys t, runSamples c xs s = some (ys, t) ∧ ys.length = xs.length ∧ P (xs.reverse ++ past) t ∧
      ∀ n (hn : n < xs.length), ∃ y, ys[n]? = some y ∧ Q ((xs.take n).reverse ++ past) xs[n] y := by
  induction xs generalizing past s with
  | nil => exact ⟨[], s, rfl, rfl, hs, fun n hn => absurd hn (Nat.not_lt_zero n)⟩
  | cons x xs ih =>
    obtain ⟨hx, hxs⟩ := List.forall_mem_cons.1 hxs
    obtain ⟨t, y, hexec, hrsp, hq, ht⟩ := hstep past s x hs hx
    obtain ⟨ys, u, hrun, hlen, hu, hys⟩ := ih ht hxs
    refine ⟨y :: ys, u, by simp only [runSamples, hexec, hrsp, hrun, Option.map_some], congrArg (· + 1) hlen, ?_,
      fun n hn => ?_⟩
    · rwa [List.reverse_cons, List.append_assoc, List.singleton_append]
    · cases n with
      | zero => exact ⟨y, rfl, hq⟩
      | succ n =>
        rw [List.take_succ_cons, List.reverse_cons, List.append_assoc, List.singleton_append]
        exact hys n (Nat.lt_of_succ_lt_succ hn)

/-! ### Silence (R155) -/

/-- With a zero product of delayed sample and gain the word written is the input. -/
theorem value_writeValue_of_zero {x d g : F32} (hop : FiniteOperands d g ∧ FiniteOperands x (fmul d g))
    (h : value d = 0 ∨ value g = 0) : value (writeValue x d g) = value x := by
  obtain ⟨⟨hd, hg⟩, hx, hprod⟩ := hop
  exact value_fadd_of_zero_right hx hprod (h.elim (value_fmul_of_zero_left hd hg) (value_fmul_of_zero_right hd hg))

/-- A prepared state of the invariant in which every addressed word of channel `c` is a zero. -/
structure Silent (cap c : Nat) (s : State) : Prop where
  inv : Inv s
  engine : s.engine = .prepared
  live : c < s.cr.nch
  cap : s.cr.cap = cap
  words : ∀ k v, bufRead s.cr.cap s.ram c k = some v → value v = 0

namespace Sampling

variable {s : State} {c : Nat} {x d : F32} {r : Channel} (h : Sampling s c x r d)

include h

/-- The delayed sample of zero words is a zero. -/
theorem value_delayed_of_zeros (hzero : ∀ k v, bufRead s.cr.cap s.ram c k = some v → value v = 0) : value d = 0 := by
  obtain ⟨a, b, ha, hb, haok, hbok, rfl, -⟩ := h.taps
  exact value_interpolate_of_zeros (between_fraction h.isFinite_rp) (between_of_wordOk haok) (between_of_wordOk hbok)
    (hzero _ a ha) (hzero _ b hb)

/-- A zero input leaves zeros (R155). -/
theorem silent_sampleTaken {cap : Nat} (hs : Silent cap c s) (hx : value x = 0) :
    Silent cap c (sampleTaken c x r d s) := by
  have hd := h.value_delayed_of_zeros hs.words
  refine ⟨h.inv_sampleTaken, h.engine, h.live, hs.cap, fun k v hv => ?_⟩
  have hread := (h.bufRead_sampleTaken k).symm.trans hv
  split at hread
  · obtain rfl := Option.some.inj hread
    exact (value_writeValue_of_zero h.writeOperands (Or.inl hd)).trans hx
  · exact hs.words k v hread

end Sampling

/-- A zero is finite and an input in range. -/
theorem inputInRange_of_isZero {x : F32} (h : isZero x = true) : inputInRange x = true := by
  have hf : isFinite x = true := by
    refine decide_eq_true fun hexp => ?_
    have hmag : magnitude x = 0 := of_decide_eq_true h
    rw [magnitude, hexp, if_neg (by decide)] at hmag
    exact absurd hmag (by positivity)
  rw [inputInRange_iff, (isZero_iff_value x).1 h, value_fNegOne, value_fOne]
  exact ⟨hf, by norm_num, by norm_num⟩

/-- A sample time of silence: the mix of two zeros is a zero, and the limiter passes it. -/
theorem Silent.step {cap c : Nat} {s : State} {x : F32} (hs : Silent cap c s) (hx : isZero x = true) :
    ∃ t y, exec (.processSample c x) s = .next t ∧ t.rsp = some y ∧ isZero y = true ∧
      Silent cap c { t with rsp := none } := by
  obtain ⟨r, d, h⟩ := exists_sampling hs.inv hs.engine hs.live (inputInRange_of_isZero hx)
  have hx0 := (isZero_iff_value x).1 hx
  have hout := value_mixOut_of_zeros h.mixOperands hx0 (h.value_delayed_of_zeros hs.words)
  have hy := (value_limit_of_le_one h.isNaN_mixOut (by rw [hout, value_fOne]; norm_num)).trans hout
  exact ⟨_, _, h.exec_eq, rfl, (isZero_iff_value _).2 hy, h.silent_sampleTaken hs hx0⟩

/-- Settles O34: silence is kept by every sample time of a zero input. -/
theorem silenceStaysSilent : Obligations.SilenceStaysSilent := by
  intro s c xs hs he hc hzero hxs
  have hpos : 0 < s.cr.cap := by have := (hs.live (hs.prepared he)).cap; omega
  have hsilent : Silent s.cr.cap c s := ⟨hs, he, hc, rfl, fun k v hv => by
    obtain ⟨u, hu, hu0⟩ := hzero _ (wrapIndex_lt hpos k)
    obtain rfl : u = v := Option.some.inj (hu.symm.trans hv)
    exact (isZero_iff_value u).1 hu0⟩
  obtain ⟨ys, t, hrun, hlen, ht, hys⟩ := runSamples_of_kept (P := fun _ => Silent s.cr.cap c)
    (Q := fun _ _ y => isZero y = true) (fun _ _ _ hs hx => hs.step hx) xs (past := []) hsilent hxs
  refine ⟨ys, t, hrun, hlen, fun y hy => ?_, fun i hi => ?_⟩
  · obtain ⟨n, hn, rfl⟩ := List.getElem_of_mem hy
    obtain ⟨y, hyn, hy0⟩ := hys n (hlen ▸ hn)
    rw [List.getElem?_eq_getElem hn] at hyn
    exact Option.some.inj hyn ▸ hy0
  · have hi' : i < t.cr.cap := ht.cap.symm ▸ hi
    obtain ⟨v, hv, -⟩ := (ht.inv.live (ht.inv.prepared ht.engine)).words c i ht.live hi'
    refine ⟨v, hv, (isZero_iff_value v).2 (ht.words i v ?_)⟩
    rwa [bufRead, wrapIndex_of_lt hi']

/-! ### A settled whole delay (R147, R154) -/

theorem bufRead_congr {cap : Nat} (hcap : 0 < cap) (m : Memory) (c : Nat) {k k' : Int} (h : k ≡ k' [ZMOD cap]) :
    bufRead cap m c k = bufRead cap m c k' := by
  rw [bufRead, (wrapIndex_eq_iff hcap k k').2 h, bufRead]

section Whole

variable {sr len : F32} {cap w k : Nat} (hr : RatesOk sr cap) (hw : w < cap)
  (hlen : between fOne len (i2f ((cap : Int) - 1)) = true) (hk : value len = k * 2 ^ 149)

include hr hw hlen hk

/-- Behind a whole delay the read position is a whole number, `w - k` modulo the capacity: every step of R147 is exact. -/
theorem value_readPosition_of_whole :
    value (readPosition cap w len) = ((w : Int) - k) % (cap : Int) * 2 ^ 149 := by
  obtain ⟨⟨hwf, hlenf⟩, hpf, hcapf⟩ := positionOperands hr hw hlen
  obtain ⟨-, hlen1, hlen2⟩ := (between_iff _ _ _).1 hlen
  have hcap := hr.cap_le
  rw [value_fOne] at hlen1; rw [hr.value_last] at hlen2
  have hdiff : value (fsub (i2f w) len) = ((w : Int) - k) * 2 ^ 149 := by
    rw [← value_i2f (by omega)]
    refine fsub_exact hwf hlenf (isNaN_i2f _) ?_
    rw [value_natCast_i2f (by omega), hk, value_i2f (by omega)]; ring
  have hsign := flt_iff (isNaN_fsub hwf hlenf) (not_isNaN_of_isFinite isFinite_fZero)
  rw [value_fZero, hdiff] at hsign
  unfold readPosition
  dsimp only
  split
  · rename_i hneg
    rw [hsign] at hneg
    rw [← Int.add_emod_right, Int.emod_eq_of_lt (by omega) (by omega), ← value_i2f (by omega)]
    refine fadd_exact hpf hcapf (isNaN_i2f _) ?_
    rw [hdiff, hr.value_cap, value_i2f (by omega)]; ring
  · rename_i hpos
    rw [hsign] at hpos
    rw [hdiff, Int.emod_eq_of_lt (by omega) (by omega)]

/-- Its first tap is the word written `k` sample times ago, and it leaves no fraction. -/
theorem tap_of_whole : tapIndex cap (readPosition cap w len) = wrapIndex cap ((w : Int) - k) ∧
    value (fsub (readPosition cap w len) (ffloor (readPosition cap w len))) = 0 := by
  have hpf := isFinite_of_between isFinite_fZero hr.isFinite_cap (between_readPosition hr hw hlen)
  have hpv := value_readPosition_of_whole hr hw hlen hk
  obtain ⟨hff, hfv⟩ := ffloor_spec hpf
  have hfloor : floorInt (readPosition cap w len) = ((w : Int) - k) % (cap : Int) := by
    rw [floorInt, hpv]
    push_cast
    exact Int.mul_ediv_cancel _ (by norm_num)
  constructor
  · rw [tapIndex, f2i_ffloor hpf, hfloor, wrapIndex, Int.emod_emod, wrapIndex]
  · refine (fsub_exact hpf hff (by decide) ?_).trans value_fZero
    rw [hfv, hfloor, hpv, value_fZero]
    push_cast
    ring

end Whole

/-- Without a fraction the delayed sample is the first word (R113). -/
theorem value_interpolate_of_zero_fraction {frac a b : F32} (hfrac : between fZero frac fOne = true)
    (ha : between (fneg (i2f 21)) a (i2f 21) = true) (hb : between (fneg (i2f 21)) b (i2f 21) = true)
    (h : value frac = 0) : value (interpolate frac a b) = value a := by
  obtain ⟨haf, -, hdf, hsf⟩ := isFinite_blendOperands hfrac ha hb
  exact value_fadd_of_zero_right haf hsf
    (value_fmul_of_zero_left (isFinite_of_between isFinite_fZero isFinite_fOne hfrac) hdf h)

/-- A channel that replays its input: length settled at the whole delay `k` and held there by center and depth, read position
behind the write index, feedback settled at 0 and mix at 1 (R154). -/
structure Replay (cr : Regs) (k : Nat) (r : Channel) : Prop where
  pos : 1 ≤ k
  lt_cap : k < cr.cap
  depth : isZero cr.depth = true
  center : value cr.center = value (i2f k)
  lenRem : r.len.rem = 0
  len : value r.len.cur = value (i2f k)
  trails : Trails cr.cap r
  fbRem : r.fb.rem = 0
  fb : value r.fb.cur = 0
  mixRem : r.mix.rem = 0
  mix : value r.mix.cur = value fOne

/-- A center delay of a whole number of samples below the capacity is its own clamp (R122). -/
theorem value_startLength_of_whole {cr : Regs} {k : Nat} (hr : RatesOk cr.sr32 cr.cap) (hn : isNaN cr.center = false)
    (hk : 1 ≤ k) (hlt : k < cr.cap) (h : value cr.center = value (i2f k)) : value (startLength cr) = value (i2f k) := by
  have hcap := hr.cap_le
  rw [startLength, value_clamp hn (by decide) (isNaN_i2f _), h, value_natCast_i2f (by omega), value_fOne, hr.value_last]
  omega

/-- A sample time leaves a replaying channel replaying. -/
theorem Replay.kept {cfg : Config} {cr : Regs} {k : Nat} {r : Channel} (h : Replay cr k r)
    (hr : RatesOk cr.sr32 cr.cap) (hc : ControlOk cfg cr) (hok : ChannelOk cfg cr r) :
    Replay cr k (advanceChannel cfg cr r) := by
  have hstart := value_startLength_of_whole hr (not_isNaN_of_isFinite hc.center.1) h.pos h.lt_cap h.center
  have htgt : value r.len.tgt = value (startLength cr) := by rw [← hok.len.settled h.lenRem, h.len, hstart]
  have hlen : (advanceChannel cfg cr r).len = r.len :=
    (len_advanceChannel_of_zero_depth hr hc hok h.depth htgt).trans (rampNext_of_rem_zero .lin h.lenRem)
  have hfb : (advanceChannel cfg cr r).fb = r.fb := rampNext_of_rem_zero .lin h.fbRem
  have hmix : (advanceChannel cfg cr r).mix = r.mix := rampNext_of_rem_zero .lin h.mixRem
  exact
    { pos := h.pos, lt_cap := h.lt_cap, depth := h.depth, center := h.center, trails := rfl
      lenRem := hlen.symm ▸ h.lenRem, len := hlen.symm ▸ h.len
      fbRem := hfb.symm ▸ h.fbRem, fb := hfb.symm ▸ h.fb
      mixRem := hmix.symm ▸ h.mixRem, mix := hmix.symm ▸ h.mix }

/-! ### The replay of the input (R154) -/

/-- The value of the input `j + 1` sample times ago, zero before the run. -/
def pastValue (past : List F32) (j : Nat) : Int := (past[j]?).elim 0 value

@[simp] theorem pastValue_nil (j : Nat) : pastValue [] j = 0 := rfl
@[simp] theorem pastValue_cons_zero (x : F32) (past : List F32) : pastValue (x :: past) 0 = value x := rfl
@[simp] theorem pastValue_cons_succ (x : F32) (past : List F32) (j : Nat) :
    pastValue (x :: past) (j + 1) = pastValue past j := rfl

theorem abs_pastValue_le {past : List F32} (h : ∀ x ∈ past, |value x| ≤ value fOne) (j : Nat) :
    |pastValue past j| ≤ value fOne := by
  unfold pastValue
  cases hj : past[j]? with
  | none => rw [Option.elim_none, value_fOne]; norm_num
  | some x => exact h x (List.mem_of_getElem? hj)

/-- In a run from the start, the input `k` sample times before sample time `n`. -/
theorem pastValue_run {xs : List F32} {n k : Nat} (hk : 1 ≤ k) (hn : n < xs.length) :
    (n < k → pastValue (xs.take n).reverse (k - 1) = 0) ∧
    (k ≤ n → ∃ x, xs[n - k]? = some x ∧ pastValue (xs.take n).reverse (k - 1) = value x) := by
  have hlen : (xs.take n).length = n := List.length_take_of_le hn.le
  unfold pastValue
  constructor
  · intro h
    rw [List.getElem?_eq_none (by rw [List.length_reverse, hlen]; omega), Option.elim_none]
  · intro h
    refine ⟨xs[n - k], List.getElem?_eq_getElem (by omega), ?_⟩
    rw [List.getElem?_reverse (by omega), hlen, show n - 1 - (k - 1) = n - k by omega, List.getElem?_take_of_lt (by omega),
      List.getElem?_eq_getElem (by omega), Option.elim_some]

/-- The last `k` words written in channel `c`, write index `w`, hold the last `k` inputs. -/
def Holds (cap : Nat) (m : Memory) (c w k : Nat) (past : List F32) : Prop :=
  ∀ j, j < k → ∀ v, bufRead cap m c ((w : Int) - 1 - j) = some v → value v = pastValue past j

/-- A prepared state of the invariant whose channel `c` replays its inputs `past`, newest first, after `k` sample times. -/
structure Replaying (c k : Nat) (past : List F32) (s : State) : Prop where
  inv : Inv s
  engine : s.engine = .prepared
  live : c < s.cr.nch
  inputs : ∀ x ∈ past, |value x| ≤ value fOne
  channel : ∃ r, s.cs[c]? = some r ∧ Replay s.cr k r ∧ Holds s.cr.cap s.ram c r.w k past

namespace Sampling

variable {s : State} {c k : Nat} {x d : F32} {r : Channel} {past : List F32} (h : Sampling s c x r d)
  (hreplay : Replay s.cr k r) (hold : Holds s.cr.cap s.ram c r.w k past)

include h hreplay hold

/-- The delayed sample is the input `k` sample times ago. -/
theorem value_delayed_of_replay : value d = pastValue past (k - 1) := by
  obtain ⟨a, b, ha, -, haok, hbok, rfl, -⟩ := h.taps
  have hcap := h.rates.cap_le
  have hpos := hreplay.pos
  have hlt := hreplay.lt_cap
  obtain ⟨htap, hfrac⟩ := tap_of_whole h.rates h.channelOk.w h.channelOk.len.cur
    (hreplay.len.trans (value_natCast_i2f (by omega)))
  have hrp : r.rp = readPosition s.cr.cap r.w r.len.cur := hreplay.trails
  rw [← hrp] at htap hfrac
  rw [value_interpolate_of_zero_fraction (between_fraction h.isFinite_rp) (between_of_wordOk haok)
    (between_of_wordOk hbok) hfrac]
  refine hold (k - 1) (by omega) a ?_
  rw [htap, bufRead, wrapIndex_of_lt (wrapIndex_lt h.cap_pos _)] at ha
  rwa [show (r.w : Int) - 1 - ((k - 1 : Nat) : Int) = r.w - k by omega]

/-- The word written is the input, and it joins the words that hold the last `k` inputs. -/
theorem holds_sampleTaken :
    Holds s.cr.cap (sampleTaken c x r d s).ram c (advanceChannel s.cfg s.cr r).w k (x :: past) := by
  intro j hj v hv
  have hlt := hreplay.lt_cap
  have hback : (((r.w + 1) % s.cr.cap : Nat) : Int) - 1 - j ≡ r.w - j [ZMOD s.cr.cap] := by
    have hmod := ((Int.mod_modEq ((r.w : Int) + 1) s.cr.cap).sub_right 1).sub_right (j : Int)
    rwa [add_sub_cancel_right, ← Nat.cast_one, ← Nat.cast_add, ← Int.natCast_emod] at hmod
  rw [advanceChannel_w, bufRead_congr h.cap_pos _ _ hback, h.bufRead_sampleTaken] at hv
  cases j with
  | zero =>
    rw [Nat.cast_zero, sub_zero, if_pos rfl] at hv
    obtain rfl := Option.some.inj hv
    exact value_writeValue_of_zero h.writeOperands (Or.inr ((rampNext_of_rem_zero .lin hreplay.fbRem).symm ▸ hreplay.fb))
  | succ j =>
    have hne : ¬ ((r.w : Int) - (j + 1 : Nat)) % (s.cr.cap : Int) = (r.w : Int) % (s.cr.cap : Int) := by
      intro e
      have hdvd := Int.ModEq.dvd e
      rw [sub_sub_cancel] at hdvd
      have := Int.le_of_dvd (by omega) hdvd
      omega
    rw [if_neg hne] at hv
    refine hold j (by omega) v ?_
    rwa [show (r.w : Int) - 1 - j = r.w - (j + 1 : Nat) by omega]

end Sampling

/-- A sample time of the replay: the delayed sample is an input, so the limiter passes it. -/
theorem Replaying.step {c k : Nat} {past : List F32} {s : State} {x : F32} (hs : Replaying c k past s)
    (hx : inputInRange x = true) :
    ∃ t y, exec (.processSample c x) s = .next t ∧ t.rsp = some y ∧ value y = pastValue past (k - 1) ∧
      Replaying c k (x :: past) { t with rsp := none } := by
  obtain ⟨r, hr, hreplay, hold⟩ := hs.channel
  obtain ⟨d, h⟩ := exists_sampling_of_record hs.inv hs.engine hs.live hx hr
  have hd := h.value_delayed_of_replay hreplay hold
  have hy := value_limit_of_le_one (not_isNaN_of_isFinite h.isFinite_delayed) (hd.symm ▸ abs_pastValue_le hs.inputs _)
  exact ⟨_, _, h.exec_eq, rfl, (h.value_response_of_mix_one hreplay.mixRem hreplay.mix).trans (hy.trans hd),
    h.inv_sampleTaken, h.engine, h.live, List.forall_mem_cons.2 ⟨h.abs_input_le, hs.inputs⟩, _, h.record_sampleTaken,
    hreplay.kept h.rates h.inv.control h.channelOk, h.holds_sampleTaken hreplay hold⟩

/-- Settles O37: from a zero history the channel replays, and every sample time keeps it so. -/
theorem integerDelayReplaysInput : Obligations.IntegerDelayReplaysInput := by
  intro s c k r xs hs he hc hr hzero hk hlt hlen hlenRem hdepth hcenter hrp hfbRem hfb hmixRem hmix hxs
  have hreplay : Replay s.cr k r := ⟨hk, hlt, hdepth, hcenter, hlenRem, hlen, hrp, hfbRem, (isZero_iff_value _).1 hfb,
    hmixRem, hmix⟩
  have hold : Holds s.cr.cap s.ram c r.w k [] := fun j _ v hv => by
    rw [bufRead, hzero _ (wrapIndex_lt (by omega) _), Option.some.injEq] at hv
    rw [← hv, value_fZero, pastValue_nil]
  obtain ⟨ys, t, hrun, hlength, -, hys⟩ := runSamples_of_kept (Q := fun past _ y => value y = pastValue past (k - 1))
    (fun _ _ _ hs hx => Replaying.step hs hx) xs (past := [])
    ⟨hs, he, hc, fun x hx => absurd hx List.not_mem_nil, r, hr, hreplay, hold⟩ hxs
  refine ⟨ys, t, hrun, hlength, fun n hn => ?_⟩
  obtain ⟨y, hyn, hy⟩ := hys n hn
  rw [List.append_nil] at hy
  obtain ⟨hbefore, hafter⟩ := pastValue_run hk hn
  refine ⟨y, hyn, fun h => (isZero_iff_value y).2 (hy.trans (hbefore h)), fun h => ?_⟩
  obtain ⟨x, hx, hxv⟩ := hafter h
  exact ⟨x, hx, hy.trans hxv⟩

end Sys2Proof.Proofs
end

section
/-! PROOFS. Contract violations (spec/60_exceptions.md R160 to R171): a command with a violation raises the first one and writes
nothing else, one without completes, and of the fault outputs a step changes nothing but by a violation or hardware reset. -/

namespace Sys2Proof.Proofs

open Sys2Proof.Machine Sys2Proof.Laws

/-! ### A command with and without a violation (R160, R167) -/

/-- A command with a violation answers a next state: only the nine steps of `PROCESS_SAMPLE` can stop, and every check stands
before them (R140). -/
theorem exec_answers_of_violation {i : Instr} {s : State} {cause : Cause} (h : commandViolation s i = some cause) :
    ∃ t, exec i s = .next t := by
  cases i with
  | prepare sr block ch =>
    change ∃ t, execPrepare sr block ch s = .next t
    unfold execPrepare
    split_ifs <;> exact ⟨_, rfl⟩
  | reset | setDelayTimeMs | setMix | setFeedback | setLfoRateHz | setLfoDepthMs => exact requirePrepared_answers s _
  | processSample ch x =>
    cases he : s.engine with
    | faulted => exact ⟨s, exec_of_faulted he _⟩
    | unprepared => exact ⟨_, requirePrepared_of_unprepared he _⟩
    | prepared => exact ⟨_, exec_processSample_violation he h⟩

section Command

variable {i : Instr} {s : State} (he : s.engine ≠ .faulted)

include he

theorem exec_of_violation {cause : Cause} (h : commandViolation s i = some cause) : exec i s = .next (s.raise cause) := by
  obtain ⟨t, ht⟩ := exec_answers_of_violation h
  rcases exec_outcomes ht with ⟨hf, -⟩ | ⟨-, cause', h', rfl⟩ | ⟨-, hnone, -⟩
  · exact absurd hf he
  · rw [ht, Option.some.inj (h'.symm.trans h)]
  · simp [h] at hnone

theorem completed_of_no_violation {t : State} (h : commandViolation s i = none) (ht : exec i s = .next t) :
    Completed i s t := by
  rcases exec_outcomes ht with ⟨hf, -⟩ | ⟨-, cause, hsome, -⟩ | ⟨-, -, hc⟩
  · exact absurd hf he
  · simp [h] at hsome
  · exact hc

theorem runCommand_of_violation {w : CmdWord} {cause : Cause} (h : firstViolation w s = some cause) :
    runCommand w s = .next (s.raise cause) := by
  unfold firstViolation at h
  split at h
  next e hw =>
    cases h
    rw [runCommand_of_error hw, if_neg he]
  next i hw => exact (runCommand_of_ok hw s).trans (exec_of_violation he h)

end Command

/-- A `Faulted` engine ignores every word, legal or not (R162, R169). -/
theorem runCommand_of_faulted {s : State} (he : s.engine = .faulted) (w : CmdWord) : runCommand w s = .next s := by
  cases hw : decode w with
  | ok i => exact (runCommand_of_ok hw s).trans (exec_of_faulted he i)
  | error e => rw [runCommand_of_error hw, if_pos he]

/-- Settles O12: of what a word can do, only a violation enters `Faulted`. -/
theorem violationsArePrecise : Obligations.ViolationsArePrecise := by
  intro w s t h he ht
  rcases runCommand_outcomes h with ⟨hf, -⟩ | ⟨-, cause, -, rfl⟩ | ⟨-, i, -, -, hc⟩
  · exact absurd hf he
  · exact ⟨cause, rfl⟩
  · obtain ⟨hprep, -⟩ := hc.frame
    simp [hprep] at ht

/-- Settles O13: a word with a violation raises it, and one without can only complete its command. -/
theorem firstViolationIsRecorded : Obligations.FirstViolationIsRecorded := by
  refine ⟨⟨rfl, rfl, rfl, rfl, rfl, rfl⟩, fun w s he => ⟨fun cause hv => runCommand_of_violation he hv, fun hv t h => ?_⟩⟩
  rcases runCommand_outcomes h with ⟨hf, -⟩ | ⟨-, cause, hsome, -⟩ | ⟨-, i, -, -, hc⟩
  · exact absurd hf he
  · simp [hv] at hsome
  · obtain ⟨hprep, -, hcause, -⟩ := hc.frame
    exact ⟨hprep, hcause⟩

/-! ### The fault outputs (R168, R169, R171) -/

/-- What a step does to the fault outputs: they stay, or hardware reset clears them, or the first violation of the presented
word enters `Faulted` with its code (R160, R168). -/
theorem step_faultOutputs {s t : State} (h : step s = .next t) :
    ((t.engine = .faulted ↔ s.engine = .faulted) ∧ t.faultCause = s.faultCause) ∨
    ∃ p rest, s.inputs = p :: rest ∧
      ((p.rstN = false ∧ t.engine = .unprepared) ∨
       (p.cmdValid = true ∧ s.engine ≠ .faulted ∧ t.engine = .faulted ∧
          ∃ cause, firstViolation p.cmdData s = some cause ∧ t.faultCause = causeCode cause)) := by
  rcases step_cases s with ⟨-, e⟩ | ⟨p, rest, hin, ⟨hrst, e⟩ | ⟨-, -, -, e⟩ | ⟨-, -, e⟩⟩ <;> rw [e] at h
  · cases h
    exact Or.inl ⟨Iff.rfl, rfl⟩
  · cases h
    exact Or.inr ⟨p, rest, hin, Or.inl ⟨hrst, rfl⟩⟩
  · cases h
    exact Or.inl ⟨Iff.rfl, rfl⟩
  · dsimp only at h
    split at h
    next hvalid =>
      rcases runCommand_outcomes h with ⟨-, rfl⟩ | ⟨he, cause, hv, rfl⟩ | ⟨he, i, -, -, hc⟩
      · exact Or.inl ⟨Iff.rfl, rfl⟩
      · exact Or.inr ⟨p, rest, hin, Or.inr ⟨hvalid, he, rfl, cause, hv, rfl⟩⟩
      · obtain ⟨hprep, -, hcause, -⟩ := hc.frame
        exact Or.inl ⟨iff_of_false (by simp [hprep]) he, hcause⟩
    next =>
      cases h
      exact Or.inl ⟨Iff.rfl, rfl⟩

/-- Settles O17: a violation needs an engine that is not `Faulted`, so hardware reset alone is left. -/
theorem onlyHardwareResetLeavesFaulted : Obligations.OnlyHardwareResetLeavesFaulted := by
  intro s t he h
  rcases step_faultOutputs h with ⟨hengine, hcause⟩ | ⟨p, rest, hin, ⟨hrst, ht⟩ | ⟨-, hne, -⟩⟩
  · exact Or.inl ⟨hengine.2 he, hcause⟩
  · exact Or.inr ⟨ht, p, rest, hin, hrst⟩
  · exact absurd he hne

/-- Settles O19: the levels are those of the definitions, and their changes those of `step_faultOutputs`. -/
theorem faultOutputsChangeOnlyOnViolation : Obligations.FaultOutputsChangeOnlyOnViolation := by
  intro s t h
  refine ⟨by simp [faultO], rfl, fun hchange => ?_⟩
  rcases step_faultOutputs h with ⟨hengine, hcause⟩ | ⟨p, rest, hin, hcase⟩
  · simp [faultO, faultCauseO, hengine, hcause] at hchange
  · exact ⟨p, rest, hin, hcase.imp_left And.left⟩

/-- Settles O16: the word is ignored, and with an empty response port the step serves the ports only. -/
theorem faultedIgnoresEveryCommand : Obligations.FaultedIgnoresEveryCommand := by
  intro s he
  refine ⟨runCommand_of_faulted he, fun p rest hin hrst hvalid hrsp => ⟨by simp [cmdReady, rspValid, hrsp], ?_⟩⟩
  rw [step_of_port_free hin hrst (Or.inl hrsp), if_pos hvalid, runCommand_of_faulted (s := portsServed rest s) he]
  simp [portsServed, hrsp]

/-! ### Engine state and operands (R165, R166) -/

theorem commandViolation_of_unprepared {i : Instr} {s : State} (he : s.engine = .unprepared)
    (hi : ∀ sr block ch, i ≠ .prepare sr block ch) : commandViolation s i = some .notPrepared := by
  cases i with
  | prepare sr block ch => exact absurd rfl (hi sr block ch)
  | _ => exact if_pos he

/-- Settles O14: the engine state is the first check of every command but `PREPARE`, whose one cause is `BAD_CONFIG`. -/
theorem notPreparedCommandsRaise : Obligations.NotPreparedCommandsRaise := by
  intro s i he
  refine ⟨fun hi => exec_of_violation (by simp [he]) (commandViolation_of_unprepared he hi), ?_⟩
  rintro ⟨sr, block, ch, rfl⟩ t ht
  rcases execPrepare_cases (block := block) ht with ⟨hf, -⟩ | ⟨-, -, rfl⟩ | ⟨-, -, rfl⟩
  · simp [he] at hf
  · exact Or.inl rfl
  · exact Or.inr ⟨rfl, rfl⟩

/-- A `SET_*` command in a prepared engine has the check of its operand for its only check, and answers a next state (R130). -/
theorem setCommand_checks {s : State} {v : F32} {i : Instr} (he : s.engine = .prepared)
    (hi : i = .setDelayTimeMs v ∨ i = .setMix v ∨ i = .setFeedback v ∨ i = .setLfoRateHz v ∨ i = .setLfoDepthMs v) :
    commandViolation s i = (if isNaN v then some .badValue else none) ∧ ∃ t, exec i s = .next t := by
  rcases hi with rfl | rfl | rfl | rfl | rfl <;>
    exact ⟨by simp [commandViolation, operandViolation, he], requirePrepared_answers s _⟩

/-- On a channel in range `PROCESS_SAMPLE` in a prepared engine has the check of its input for its only check (R165). -/
theorem processSample_violation_of_channel {s : State} (he : s.engine = .prepared) {ch : Int} (h0 : 0 ≤ ch)
    (h1 : ch < s.cr.nch) (x : F32) :
    commandViolation s (.processSample ch x) = if inputInRange x then none else some .badInput := by
  rw [processSample_violation he, if_pos ((channelInRange_iff _ _).2 ⟨h0, h1⟩)]

/-- Settles O15: each command raises exactly by its operand check, and otherwise completes, which leaves the engine
prepared. -/
theorem operandChecks : Obligations.OperandChecks := by
  intro s v he
  have hne : s.engine ≠ .faulted := by simp [he]
  refine ⟨fun i hi => ?_, fun ch h0 h1 => ?_⟩
  · obtain ⟨hviolation, t, ht⟩ := setCommand_checks he hi
    refine ⟨fun hnan => exec_of_violation hne (hviolation.trans (if_pos hnan)), fun hnum => ⟨t, ht, ?_⟩⟩
    obtain ⟨hprep, -, hcause, -⟩ := (completed_of_no_violation hne (hviolation.trans (by simp [hnum])) ht).frame
    exact ⟨hprep, hcause⟩
  · have hviolation := processSample_violation_of_channel he h0 h1 v
    refine ⟨fun hbad => exec_of_violation hne (hviolation.trans (if_neg ?_)), fun hok t ht => ?_⟩
    · rw [inputInRange_iff]
      rintro ⟨hf, hlo, hhi⟩
      rcases hbad with hbad | hbad | hbad
      · simp [hf] at hbad
      · exact hlo.not_gt hbad
      · exact hhi.not_gt hbad
    · have hnone := hviolation.trans (if_pos ((inputInRange_iff v).2 hok))
      obtain ⟨hprep, -⟩ := (completed_of_no_violation hne hnone ht).frame
      exact hprep

end Sys2Proof.Proofs
end

section
/-! PROOFS. Hardware reset (spec/70_reset_and_hazards.md R180, spec/10_state.md R40): a cycle with `rst_n` low does nothing but
the reset, which gives the power-on contents. -/

namespace Sys2Proof.Proofs

open Sys2Proof.Machine Sys2Proof.Laws

/-- With `rst_n` low the step is the hardware reset of the cycle's state, whatever else the host drives (R180). -/
theorem step_of_rstN_low {s : State} {p : PortCycle} {rest : List PortCycle} (hin : s.inputs = p :: rest)
    (hlow : p.rstN = false) : step s = .next (State.hardwareReset { s with inputs := rest }) := by
  rcases step_cases s with ⟨hnil, -⟩ | ⟨p', rest', hin', hcase⟩
  · simp [hnil] at hin
  · obtain ⟨rfl, rfl⟩ := List.cons.inj (hin'.symm.trans hin)
    rcases hcase with ⟨-, e⟩ | ⟨hhigh, -⟩ | ⟨hhigh, -⟩
    · exact e
    · simp [hlow] at hhigh
    · simp [hlow] at hhigh

/-- Hardware reset leaves a record for each of the `CH_MAX` channels, whatever its contents (R30). -/
theorem powerOnChannels_length (cfg : Config) (n : Nat) : (powerOnChannels cfg n).length = cfg.chMax := by
  rw [powerOnChannels, List.length_map, List.length_range]

/-- Settles O9: the step is the hardware reset, whose registers are those of `State.resetWith` and whose RAM is empty. -/
theorem hardwareResetReturnsToPowerOn : Obligations.HardwareResetReturnsToPowerOn := by
  intro s p rest hin hlow
  refine ⟨_, step_of_rstN_low hin hlow, rfl, rfl, by simp [faultO], rfl, rfl, fun _ => rfl, ?_, rfl, rfl, rfl⟩
  exact powerOnChannels_length s.cfg (s.freeCount + 1)

end Sys2Proof.Proofs
end
